-- ==== Sys2Proof/Word.lean ====
section
/-! DEFINITION. The bit vectors of the block: bytes, halfwords and words. Every quantity is unsigned
(00_scope.md R9). -/

namespace Sys2Proof

/-- One byte: a ring slot, `UDR`, an element of `line`, a byte of the command stream (10_state.md R21, R23, R27). -/
abbrev Byte := BitVec 8

/-- Sixteen bits: an index (IDXW = 16), `PRESC`, `OCR` (10_state.md R22, R28). -/
abbrev Half := BitVec 16

/-- Thirty-two bits: `counter`, `TICK` (CNTW = 32), `RES`, a wait operand (10_state.md R28, R30, R33). -/
abbrev Word := BitVec 32

end Sys2Proof
end

