-- ==== Sys2Proof/Syntax.lean ====
section
/-! DEFINITION. The abstract syntax of the fourteen commands, one constructor per row of spec/opcode_table.json
(30_encoding.md R83), with operands as R84 assembles them. -/

namespace Sys2Proof

/-- A command of the foreground sequencer. -/
inductive Instr where
  /-- SEI: global interrupt enable (40 R101). -/
  | sei
  /-- SLEEP: halt until the next interrupt (40 R102). -/
  | sleep
  /-- CSENTER k: capture `I` in slot `k` and clear it (40 R103). -/
  | csenter (k : BitVec 2)
  /-- CSEXIT k: restore `I` from slot `k` (40 R104). -/
  | csexit (k : BitVec 2)
  /-- PUSH d: non-blocking partial write (42 R141). -/
  | push (d : List Byte)
  /-- SENDALL d: send all, blocking (42 R144). -/
  | sendall (d : List Byte)
  /-- CLKRST: reset the counter (41 R121). -/
  | clkrst
  /-- CLKRD: read the counter (41 R122). -/
  | clkrd
  /-- WAITMS n: wait `n` milliseconds (41 R123, R125). -/
  | waitms (n : Word)
  /-- WAITUS n: wait `n` microseconds (41 R124, R125). -/
  | waitus (n : Word)
  /-- SERCFG ubrr, u2x: configure the serial device (43 R160). -/
  | sercfg (ubrr : BitVec 12) (u2x : Bool)
  /-- TMRCFG presc, ocr: configure and start the timer (43 R167). -/
  | tmrcfg (presc ocr : Half)
  /-- PINLO: drive the pin low (44 R180). -/
  | pinlo
  /-- PINHI: drive the pin high (44 R181). -/
  | pinhi
  deriving DecidableEq, Repr

end Sys2Proof
end

