-- ==== Sys2Proof/WellFormed.lean ====
section
/-! DEFINITION. Which terms of `Instr` an encoding can stand for. All operands but the data of PUSH and SENDALL
are bounded by their types; `len` has 8 bits (30_encoding.md R84, 92_eei_decisions.md D39). -/

namespace Sys2Proof

/-- The data of a PUSH or SENDALL fits the `len` byte. -/
abbrev dataFits (d : List Byte) : Prop := d.length ≤ 255

/-- A command that some word encodes. -/
def Instr.wf : Instr → Bool
  | .sei => true
  | .sleep => true
  | .csenter _ => true
  | .csexit _ => true
  | .push d => decide (dataFits d)
  | .sendall d => decide (dataFits d)
  | .clkrst => true
  | .clkrd => true
  | .waitms _ => true
  | .waitus _ => true
  | .sercfg _ _ => true
  | .tmrcfg _ _ => true
  | .pinlo => true
  | .pinhi => true

end Sys2Proof
end

