-- ==== Sys2Proof/Decode.lean ====
section
/-! DEFINITION. The decoder, total on any bytes and rejecting by name, and the encoder, both from the tables of
30_encoding.md (R81 to R88). -/

namespace Sys2Proof

/-! ## The opcode map -/

/-- The six formats (30 R82). -/
inductive Format where
  | F0 | FK | FL | FI | FS | FT
  deriving DecidableEq, Repr

/-- The mnemonics of the opcode map (30 R83). -/
inductive Mnemonic where
  | SEI | SLEEP | CSENTER | CSEXIT | PUSH | SENDALL | CLKRST | CLKRD
  | WAITMS | WAITUS | SERCFG | TMRCFG | PINLO | PINHI
  deriving DecidableEq, Repr

/-- A row of the opcode map: a command is selected when `op &&& mask = pattern` (30 R81, R83). -/
structure OpcodeRow where
  name    : Mnemonic
  format  : Format
  pattern : Byte
  mask    : Byte
  deriving DecidableEq, Repr

/-- The opcode map (30 R83). The mask of format FK leaves `k` free and demands `z = 0` (30 R82). -/
def opcodeRows : List OpcodeRow := [
  ⟨.SEI,     .F0, 0x01#8, 0xFF#8⟩,
  ⟨.SLEEP,   .F0, 0x02#8, 0xFF#8⟩,
  ⟨.CSENTER, .FK, 0x10#8, 0xFC#8⟩,
  ⟨.CSEXIT,  .FK, 0x18#8, 0xFC#8⟩,
  ⟨.PUSH,    .FL, 0x20#8, 0xFF#8⟩,
  ⟨.SENDALL, .FL, 0x21#8, 0xFF#8⟩,
  ⟨.CLKRST,  .F0, 0x30#8, 0xFF#8⟩,
  ⟨.CLKRD,   .F0, 0x31#8, 0xFF#8⟩,
  ⟨.WAITMS,  .FI, 0x32#8, 0xFF#8⟩,
  ⟨.WAITUS,  .FI, 0x33#8, 0xFF#8⟩,
  ⟨.SERCFG,  .FS, 0x40#8, 0xFF#8⟩,
  ⟨.TMRCFG,  .FT, 0x41#8, 0xFF#8⟩,
  ⟨.PINLO,   .F0, 0x50#8, 0xFF#8⟩,
  ⟨.PINHI,   .F0, 0x51#8, 0xFF#8⟩]

/-- The row that an opcode byte selects, none for a reserved byte (30 R83, R87). -/
def opcodeRow (op : Byte) : Option OpcodeRow :=
  opcodeRows.find? fun r => op &&& r.mask == r.pattern

/-! ## Operands -/

/-- A little-endian halfword: the byte at the lower offset is the less significant (30 R81). -/
def half (b0 b1 : Byte) : Half := b1 ++ b0

/-- A little-endian word (30 R81). -/
def word (b0 b1 b2 b3 : Byte) : Word := b3 ++ b2 ++ b1 ++ b0

/-- Byte `j` of a bit vector, counted from the least significant (30 R81). -/
def byteOf {w : Nat} (v : BitVec w) (j : Nat) : Byte := v.extractLsb' (8 * j) 8

/-- The configuration halfword of SERCFG: `ubrr` in bits 11..0, `rsv = 0` in bits 14..12, `u2x` in bit 15 (30 R82). -/
def serWord (ubrr : BitVec 12) (u2x : Bool) : Half := BitVec.ofBool u2x ++ 0#3 ++ ubrr

/-- Why a command is illegal: the four decode checks of 60 R233, all of code 1 (30 R87, R88). -/
inductive Illegal where
  | reservedOpcode  -- the opcode byte is none of the opcode map's
  | truncatedFixed  -- the stream ends inside the fixed part, or where the opcode byte should stand
  | truncatedData   -- the stream ends inside the data bytes
  | reservedField   -- SERCFG with `rsv` not zero
  deriving DecidableEq, Repr

/-- The `len` byte and the `len` data bytes of format FL (30 R82, R85). -/
def takeData : List Byte → Except Illegal (List Byte)
  | [] => .error .truncatedFixed
  | len :: rest =>
    if rest.length < len.toNat then .error .truncatedData else .ok (rest.take len.toNat)

/-- The `imm32` of format FI (30 R82). -/
def takeImm32 : List Byte → Except Illegal Word
  | b0 :: b1 :: b2 :: b3 :: _ => .ok (word b0 b1 b2 b3)
  | _ => .error .truncatedFixed

/-- The operands of a command whose row is known, from the opcode byte and the bytes after it. -/
def decodeOperands (m : Mnemonic) (op : Byte) (rest : List Byte) : Except Illegal Instr :=
  match m with
  | .SEI => .ok .sei
  | .SLEEP => .ok .sleep
  | .CSENTER => .ok (.csenter (op.extractLsb' 0 2))
  | .CSEXIT => .ok (.csexit (op.extractLsb' 0 2))
  | .PUSH => (takeData rest).map .push
  | .SENDALL => (takeData rest).map .sendall
  | .CLKRST => .ok .clkrst
  | .CLKRD => .ok .clkrd
  | .WAITMS => (takeImm32 rest).map .waitms
  | .WAITUS => (takeImm32 rest).map .waitus
  | .SERCFG =>
    match rest with
    | lo :: hi :: _ =>
      let cfg := half lo hi
      if cfg.extractLsb' 12 3 = 0#3 then .ok (.sercfg (cfg.extractLsb' 0 12) (cfg.getLsbD 15))
      else .error .reservedField
    | _ => .error .truncatedFixed
  | .TMRCFG => (takeImm32 rest).map fun w => .tmrcfg (w.extractLsb' 0 16) (w.extractLsb' 16 16)
  | .PINLO => .ok .pinlo
  | .PINHI => .ok .pinhi

/-- The command at the head of a byte sequence. The checks come in the order of 60 R233 and 90_conflicts.md C9:
opcode byte, fixed part, data bytes, reserved field. -/
def decode : List Byte → Except Illegal Instr
  | [] => .error .truncatedFixed
  | op :: rest =>
    match opcodeRow op with
    | none => .error .reservedOpcode
    | some r => decodeOperands r.name op rest

/-! ## The encoder -/

/-- The bytes of a command (30 R82, R83). -/
def encode : Instr → List Byte
  | .sei => [0x01#8]
  | .sleep => [0x02#8]
  | .csenter k => [0b000100#6 ++ k]
  | .csexit k => [0b000110#6 ++ k]
  | .push d => 0x20#8 :: BitVec.ofNat 8 d.length :: d
  | .sendall d => 0x21#8 :: BitVec.ofNat 8 d.length :: d
  | .clkrst => [0x30#8]
  | .clkrd => [0x31#8]
  | .waitms n => [0x32#8, byteOf n 0, byteOf n 1, byteOf n 2, byteOf n 3]
  | .waitus n => [0x33#8, byteOf n 0, byteOf n 1, byteOf n 2, byteOf n 3]
  | .sercfg ubrr u2x => [0x40#8, byteOf (serWord ubrr u2x) 0, byteOf (serWord ubrr u2x) 1]
  | .tmrcfg presc ocr => [0x41#8, byteOf presc 0, byteOf presc 1, byteOf ocr 0, byteOf ocr 1]
  | .pinlo => [0x50#8]
  | .pinhi => [0x51#8]

/-- The length of a command in bytes (30 R85). -/
def Instr.size : Instr → Nat
  | .sei => 1
  | .sleep => 1
  | .csenter _ => 1
  | .csexit _ => 1
  | .push d => 2 + d.length
  | .sendall d => 2 + d.length
  | .clkrst => 1
  | .clkrd => 1
  | .waitms _ => 5
  | .waitus _ => 5
  | .sercfg _ _ => 3
  | .tmrcfg _ _ => 5
  | .pinlo => 1
  | .pinhi => 1

/-- The composite commands, which run in several micro-steps (10 R35, 30 R86). -/
def Instr.composite : Instr → Bool
  | .sei => false
  | .sleep => false
  | .csenter _ => false
  | .csexit _ => false
  | .push _ => false
  | .sendall _ => true
  | .clkrst => false
  | .clkrd => false
  | .waitms _ => true
  | .waitus _ => true
  | .sercfg _ _ => false
  | .tmrcfg _ _ => false
  | .pinlo => false
  | .pinhi => false

/-! ## Words of the opcode table -/

/-- The longest command: `2 + 255` bytes (30 R85). -/
def longestCommand : Nat := 257

/-- The bytes of a table word in stream order: byte `j` is bits `8j+7 .. 8j` of `w` (30 R81), and every bit from
`nbits` up is 0, to the length of the longest command. -/
def tableBytes (nbits w : Nat) : List Byte :=
  (List.range longestCommand).map fun j => BitVec.ofNat 8 ((w % 2 ^ nbits) >>> (8 * j))

/-- The command that the decoder reads from a table word of `nbits` bits. -/
def decodeTableWord (nbits w : Nat) : Option Instr :=
  match decode (tableBytes nbits w) with
  | .ok i => some i
  | .error _ => none

end Sys2Proof
end

