-- ==== Sys2Proof/Config.lean ====
section
/-! DEFINITION. What is fixed before a run (00_scope.md R6, 92_eei_decisions.md "Open parameters") and the free
values, which nothing in Lean can evaluate. Fixed by the spec, no parameters: IDXW = 16, CNTW = 32, NSAVE = 4. -/

namespace Sys2Proof

/-- The five agents that take steps (00_scope.md R5). -/
inductive Agent where
  | fg      -- the foreground sequencer
  | txisr   -- the drain handler
  | tmrisr  -- the tick handler
  | serdev  -- the serial device
  | tmrdev  -- the timer device
  deriving DecidableEq, Repr, Inhabited

/-- `CLOCK_MODE`: which clock strategy is built (41_clock.md R120). -/
inductive ClockMode where
  | timer  -- the counter driven by the tick handler, the block in scope
  | busy   -- a cycle-counted loop, the alternative build (41_clock.md R125)
  deriving DecidableEq, Repr, Inhabited

/-- `tick_of` (43_config.md R168): the default formula, or a platform's own function of which nothing is known. -/
inductive TickOf where
  | period    -- `presc * (ocr + 1) * 1000 / C`
  | platform  -- the free value `Config.platformTick`
  deriving DecidableEq, Repr, Inhabited

/-- The parameters that a step of the block reads (00_scope.md R6). They are arguments of the run that no step
changes; `State` carries them so that a statement about every state is one about every configuration (log 1). -/
structure Config where
  /-- `N = 2 ^ (ringExp + 1)`: every power of two from 2 to 2^16 and nothing else (R7, D8). -/
  ringExp     : Fin 16
  /-- `C`, in hertz; a positive integer (R6). -/
  clockHz     : Nat
  /-- `CLOCK_MODE`. -/
  clockMode   : ClockMode
  /-- `tick_of`. -/
  tickOf      : TickOf
  /-- `PIN_FALLIBLE` (44_pin_and_morse_client.md R182). -/
  pinFallible : Bool
  deriving DecidableEq, Repr, Inhabited

/-- FREE VALUE (93_implementation_defined.md U13, log 8): a platform's tick amount in milliseconds. -/
opaque Config.platformTick : Half → Half → Nat → Rat

/-- FREE VALUE (44_pin_and_morse_client.md R180 to R182 `draw(bool)`, log 7): whether the pin write of draw `n` fails. -/
opaque Config.pinFails : Nat → Bool

/-- FREE VALUE (00_scope.md R12, 60_exceptions.md R214, log 2): the agent chosen for turn `n`. -/
opaque Config.turn : Nat → Agent

end Sys2Proof
end

