-- ==== Sys2Proof/Machine/Memory.lean ====
section
/-! DEFINITION. The ring storage as a canonical list of address and byte pairs (10_state.md R21, 20_memory.md R60,
R61). Only one-byte accesses exist (R61). -/

namespace Sys2Proof.Machine

/-- Bytes by slot number, addresses strictly rising, no entry equal to `Memory.unlisted`. -/
abbrev Memory := List Host.Cell

/-- What a slot that nothing has written reads as. DESIGN CHOICE, unsafe (log 6): the spec leaves the contents after
reset unspecified (10 R21, R44). -/
def Memory.unlisted : Byte := 0#8

/-- The byte of slot `a` (20 R61). -/
def Memory.read : Memory → Nat → Byte
  | [], _ => Memory.unlisted
  | (k, c) :: m, a => if k = a then c else Memory.read m a

/-- Put an entry in front of `m`, unless it is what an unlisted slot reads as. -/
def Memory.cons (a : Nat) (b : Byte) (m : Memory) : Memory :=
  if b = Memory.unlisted then m else (a, b) :: m

/-- Store byte `b` in slot `a` (20 R61, R62). -/
def Memory.write : Memory → Nat → Byte → Memory
  | [], a, b => Memory.cons a b []
  | (k, c) :: m, a, b =>
    if a < k then Memory.cons a b ((k, c) :: m)
    else if a = k then Memory.cons a b m
    else (k, c) :: Memory.write m a b

/-- The canonical form, for a memory of `n` slots. -/
abbrev Memory.wf (n : Nat) (m : Memory) : Prop :=
  m.Pairwise (fun p q => p.1 < q.1) ∧ ∀ c ∈ m, c.1 < n ∧ c.2 ≠ Memory.unlisted

end Sys2Proof.Machine
end

