-- ==== Sys2Proof/Machine/State.lean ====
section
/-! DEFINITION. The state of the block (10_state.md R20), its reset values (R44), and the reasons a step can stop. -/

namespace Sys2Proof.Machine

/-- `ph`, the phase of a composite command (10 R35): 0 is none in progress, 1 and 2 as each command's rule says. -/
inductive Phase where
  | zero | one | two
  deriving DecidableEq, Repr, Inhabited

/-- The fault codes (60 R231). -/
inductive FaultCode where
  | illegalCommand     -- 1: decode
  | saveSlotUnwritten  -- 2: CSEXIT
  | bootConflict       -- 3: SERCFG, TMRCFG
  | configRange        -- 4: TMRCFG
  | pinIo              -- 5: PINLO, PINHI
  deriving DecidableEq, Repr, Inhabited

/-- A save slot `S[k]`: the saved enable bit and its written mark (10 R32). -/
structure SaveSlot where
  value   : Bool
  written : Bool
  deriving DecidableEq, Repr, Inhabited

/-- `RES`: the result register and its written mark (10 R33). -/
structure ResultReg where
  value   : Word
  written : Bool
  deriving DecidableEq, Repr, Inhabited

/-- Who steps when the script `sched` is used up (log 2). -/
inductive Policy where
  | free   -- the free value `Config.turn`: any order (00 R12)
  | eager  -- schedule E (95_test_vectors.md, Conventions)
  | lazy   -- schedule L (the same)
  deriving DecidableEq, Repr, Inhabited

/-- The complete state of the block (10 R20), then the parameters of the run (10 R43), then the model's own fields. -/
structure State where
  /-- `buf`: the ring storage (R21). -/
  buf        : Memory
  /-- `read_index` (R22). -/
  readIndex  : Half
  /-- `write_index` (R22). -/
  writeIndex : Half
  /-- `UDR`: the serial device's write register (R23). -/
  udr        : Byte
  /-- `UDRE`: transmit register empty (R24). -/
  udre       : Bool
  /-- `TXIE`: the transmit interrupt is armed (R25). -/
  txie       : Bool
  /-- `UBRR`: the baud divisor (R26). -/
  ubrr       : BitVec 12
  /-- `U2X`: the double-speed flag (R26, 43 R166). -/
  u2x        : Bool
  /-- `ser_cfgd`: SERCFG has executed (R26). -/
  serCfgd    : Bool
  /-- `line`: the bytes put on the serial line, oldest first (R27). -/
  line       : List Byte
  /-- `PRESC`: the timer's prescale divisor (R28). -/
  presc      : Half
  /-- `OCR`: the timer's compare threshold (R28). -/
  ocr        : Half
  /-- `tmr_run`: TMRCFG has executed (R28). -/
  tmrRun     : Bool
  /-- `TICK`: the tick amount in milliseconds (R28). -/
  tick       : Word
  /-- `OCF`: a compare match is pending (R29). -/
  ocf        : Bool
  /-- `OCIE`: the compare-match interrupt is enabled (R29). -/
  ocie       : Bool
  /-- `counter`: the millisecond counter (R30). -/
  counter    : Word
  /-- `I`: the global interrupt enable (R31). -/
  iflag      : Bool
  /-- `S[0 .. 3]`: the save slots (R32). -/
  saves      : Vector SaveSlot 4
  /-- `RES`: the result register (R33). -/
  res        : ResultReg
  /-- `cp`: the command pointer, a natural number with no wrap-around (R34). -/
  cp         : Nat
  /-- `ph`: the phase of a composite command (R35). -/
  ph         : Phase
  /-- `sent`: bytes of a SENDALL already accepted (R35). -/
  sent       : Byte
  /-- `asleep`: the core is halted until the next interrupt (R36). -/
  asleep     : Bool
  /-- `fault`: the first fault raised, none for code 0 (R37). -/
  fault      : Option FaultCode
  /-- `pin`: the output pin, high or low (R38). -/
  pin        : Bool
  /-- `want_inter_word_space`: the client's bit, touched by no command (R39). -/
  wantInterWordSpace : Bool
  /-- The parameters of the run that a step reads; no step changes them (00 R6, 10 R43). -/
  cfg        : Config
  /-- `cmd`: the command stream; no step changes it (10 R43, 20 R72). -/
  cmd        : List Byte
  /-- The model's own: the agents the environment has already chosen, next first (log 2). -/
  sched      : List Agent
  /-- The model's own: who steps once `sched` is used up (log 2). -/
  policy     : Policy
  /-- The model's own: how many turns were taken, the argument of the free value `Config.turn` (log 2). -/
  turns      : Nat
  /-- The model's own: how many pin draws were made, the argument of the free value `Config.pinFails` (log 7). -/
  draws      : Nat
  deriving DecidableEq, Repr

/-- The parameters after reset. DESIGN CHOICE, unsafe (log 1): the spec leaves them open, and these are the ones its
test vectors use (95, Conventions); a statement about reset holds for every `cfg` where its text says so. -/
def Config.atReset : Config :=
  { ringExp := 2, clockHz := 16000000, clockMode := .timer, tickOf := .period, pinFallible := false }

/-- The machine right after power-on (10 R44, 70 R250 to R252). `udr`, `ubrr`, `u2x`, `presc`, `ocr`, `tick`, the
values of `saves` and `res`, and `sent` are unspecified there: 0 is a DESIGN CHOICE, unsafe (log 5). -/
def State.reset : State :=
  { buf := [], readIndex := 0#16, writeIndex := 0#16
    udr := 0#8, udre := true, txie := false, ubrr := 0#12, u2x := false, serCfgd := false, line := []
    presc := 0#16, ocr := 0#16, tmrRun := false, tick := 0#32, ocf := false, ocie := false
    counter := 0#32
    iflag := false, saves := Vector.replicate 4 ⟨false, false⟩, res := ⟨0#32, false⟩
    cp := 0, ph := .zero, sent := 0#8, asleep := false, fault := none
    pin := false, wantInterWordSpace := false
    cfg := Config.atReset, cmd := []
    sched := [], policy := .free, turns := 0, draws := 0 }

/-- Why a step answers with no next state. The spec's own faults (60 R230) are no reasons here: raising one is a next
state with `fault` written, after which handlers and devices go on. -/
inductive Fault where
  /-- Raised by `step` when no agent is enabled and the state is final (70 R259): the run is over. Safe (log 3). -/
  | finished
  /-- Raised by `step` when no agent is enabled and the state is not final: nothing can ever step again, "a hang, not
  an end" (00 R14). Safe (log 3). -/
  | stuck
  deriving DecidableEq, Repr, Inhabited

/-- Why an instruction has no meaning. -/
inductive Refusal where
  /-- Raised by an arm of `exec` whose instruction has no meaning yet. Safe. No arm of this model does. -/
  | notModelled (mnemonic : String)
  deriving DecidableEq, Repr

end Sys2Proof.Machine
end

