-- ==== Sys2Proof/Machine/Flags.lean ====
section
/-! DEFINITION. The predicates computed from the state: the ring's (00_scope.md R11), the interrupt requests
(60_exceptions.md R211, R212) and the final state (70_reset_and_hazards.md R259). -/

namespace Sys2Proof.Machine

/-! ## The ring (00 R11) -/

/-- `N`, the number of slots (00 R6, R7). -/
def State.slots (s : State) : Nat := 2 ^ (s.cfg.ringExp.val + 1)

/-- `MASK = N - 1`. -/
def State.mask (s : State) : Half := BitVec.ofNat 16 (s.slots - 1)

/-- The slot that an index selects: `index & MASK` (20 R62, R63). -/
def State.slotOf (s : State) (index : Half) : Nat := (index &&& s.mask).toNat

/-- `empty`: the indices agree under the mask. -/
def State.empty (s : State) : Bool := (s.readIndex &&& s.mask) == (s.writeIndex &&& s.mask)

/-- `full`: advancing `write_index` would make it collide with `read_index` under the mask. -/
def State.full (s : State) : Bool := ((s.writeIndex + 1#16) &&& s.mask) == (s.readIndex &&& s.mask)

/-- `occupancy`: the number of bytes held, `0 .. N - 1`. -/
def State.occupancy (s : State) : Nat := ((s.writeIndex - s.readIndex) &&& s.mask).toNat

/-- `free`: the number of bytes a push can still take. -/
def State.free (s : State) : Nat := (s.slots - 1) - s.occupancy

/-! ## Interrupt requests -/

/-- The TX source requests, as a level (60 R211). -/
def State.txRequest (s : State) : Bool := s.txie && s.udre

/-- The TMR source requests (60 R212). -/
def State.tmrRequest (s : State) : Bool := s.ocie && s.ocf

/-! ## Ends -/

/-- FG is between commands with the stream used up (30 R86, 70 R259). -/
def State.fgFinished (s : State) : Bool := decide (s.cmd.length ≤ s.cp) && s.ph == .zero

/-- The end of a run (70 R259). -/
def State.final (s : State) : Bool :=
  s.fault.isNone && s.fgFinished && !s.asleep && s.empty && s.udre && !s.txie

/-- The number of a fault code (60 R231). -/
def FaultCode.code : FaultCode → Nat
  | .illegalCommand => 1
  | .saveSlotUnwritten => 2
  | .bootConflict => 3
  | .configRange => 4
  | .pinIo => 5

/-- `fault` as the number the spec gives it, 0 for none (10 R37). -/
def State.faultNumber (s : State) : Nat := (s.fault.map FaultCode.code).getD 0

end Sys2Proof.Machine
end

