-- ==== Sys2Proof/Machine/Operands.lean ====
section
/-! DEFINITION. What the operands of a command stand for in the state (30_encoding.md R84): a save slot, a count of
milliseconds, a tick amount. -/

namespace Sys2Proof.Machine

/-- The save slot `S[k]` (10 R32). -/
def State.slot (s : State) (k : BitVec 2) : SaveSlot := s.saves[k.toNat]'k.isLt

/-- `S[k] <- v; written(S[k]) <- true` (40 R103). -/
def State.writeSlot (s : State) (k : BitVec 2) (v : Bool) : State :=
  { s with saves := s.saves.set k.toNat ⟨v, true⟩ k.isLt }

/-- The whole milliseconds not less than `n` microseconds, `(n + 999) div 1000`, without overflow (41 R124). -/
def millisOfMicros (n : Word) : Word := BitVec.ofNat 32 ((n.toNat + 999) / 1000)

/-- The default `tick_of`: `presc * (ocr + 1) * 1000 / C` as an exact rational (43 R168). PRESUMED by the spec itself
("from general knowledge"), log 8. `mkRat` of a zero `C`, which 00 R6 excludes, is 0 and so no accepted tick. -/
def periodTick (presc ocr : Half) (c : Nat) : Rat := mkRat (presc.toNat * (ocr.toNat + 1) * 1000) c

/-- `tick_of(presc, ocr, C)` in the configuration of the run (43 R168). -/
def Config.tickAmount (cfg : Config) (presc ocr : Half) : Rat :=
  match cfg.tickOf with
  | .period => periodTick presc ocr cfg.clockHz
  | .platform => Config.platformTick presc ocr cfg.clockHz

/-- A tick amount that TMRCFG accepts: an integer `1 <= t < 2^32` (43 R167). -/
def acceptedTick (t : Rat) : Option Word :=
  if t.den = 1 ∧ 1 ≤ t.num ∧ t.num < 2 ^ 32 then some (BitVec.ofNat 32 t.num.toNat) else none

end Sys2Proof.Machine
end

