-- ==== Sys2Proof/Machine/Ops.lean ====
section
/-! DEFINITION. The operations that the meanings share. Each is one atomic step or a part of one (00_scope.md R12). -/

namespace Sys2Proof.Machine

/-- The outcome of a step of this machine. -/
abbrev Result := Host.Outcome State Fault Refusal

/-! ## Sequencing (30 R86) -/

/-- `cp <- cp + n`: a command that is not composite completes. -/
def State.advance (s : State) (n : Nat) : State := { s with cp := s.cp + n }

/-- `ph <- 0; cp <- cp + n`: a composite command completes. -/
def State.complete (s : State) (n : Nat) : State := { s with ph := .zero, cp := s.cp + n }

/-- `RES <- v; written(RES) <- true` (10 R33). -/
def State.writeResult (s : State) (v : Word) : State := { s with res := ⟨v, true⟩ }

/-- The sleep of SLEEP and of the sleep micro-steps: `asleep <- 1` (40 R102). -/
def State.sleepNow (s : State) : State := { s with asleep := true }

/-! ## Exceptions -/

/-- `raise`: taking a fault (60 R230). The code is recorded if none was, and nothing else changes: the info of every
fault is `cp` (60 R231), which stays where the faulting command begins. No command returns from a fault. -/
def State.raise (s : State) (c : FaultCode) : State := { s with fault := s.fault.or (some c) }

/-- Interrupt entry: `I <- 0`, and no other state is saved or changed (60 R215). -/
def State.enterInterrupt (s : State) : State := { s with iflag := false }

/-- Interrupt return: `I <- 1; asleep <- 0` (60 R219). -/
def State.returnInterrupt (s : State) : State := { s with iflag := true, asleep := false }

/-! ## Ring storage (20 R62, R63) -/

/-- Push: `buf[write_index & MASK] <- b; write_index <- write_index + 1`, for a ring that is not full (20 R62). -/
def State.pushByte (s : State) (b : Byte) : State :=
  { s with buf := s.buf.write (s.slotOf s.writeIndex) b, writeIndex := s.writeIndex + 1#16 }

/-- Pop: the head byte goes to `UDR`, which clears `UDRE`, and `read_index` advances; for a ring that is not empty,
with `UDRE = 1` (20 R63). The slot keeps its byte. -/
def State.popByte (s : State) : State :=
  { s with udr := s.buf.read (s.slotOf s.readIndex), udre := false, readIndex := s.readIndex + 1#16 }

/-- The enqueue loop of push_bytes: push while there is data and the ring is not full; the count and the state after
(42 R140). -/
def State.enqueue : List Byte → State → Nat × State
  | [], s => (0, s)
  | b :: d, s =>
    if s.full then (0, s)
    else
      match State.enqueue d (s.pushByte b) with
      | (k, t) => (k + 1, t)

/-- Arming: `if TXIE = 0 then TXIE <- 1` (42 R142). -/
def State.arm (s : State) : State := if s.txie then s else { s with txie := true }

/-- The hand-off: `if UDRE = 1 then pop` (42 R143). -/
def State.handOff (s : State) : State := if s.udre then s.popByte else s

/-- `push_bytes(data)`: the count and the state after (42 R140). Emptiness is tested before any write; arming and the
hand-off come after the enqueue, only on an empty to non-empty transition (90_conflicts.md C3, C4). -/
def State.pushBytes (d : List Byte) (s : State) : Nat × State :=
  if s.empty = true ∧ 0 < (State.enqueue d s).1 then ((State.enqueue d s).1, (State.enqueue d s).2.arm.handOff)
  else State.enqueue d s

end Sys2Proof.Machine
end

