-- ==== Sys2Proof/Machine/Clock.lean ====
section
/-! DEFINITION. The clock commands (41_clock.md). -/

namespace Sys2Proof.Machine

/-- CLKRST: `counter <- 0; cp <- cp + 1`; `OCF` is not touched (41 R121). -/
def execClkrst (s : State) : Result := .next ({ s with counter := 0#32 }.advance 1)

/-- CLKRD: `RES <- counter; written(RES) <- true; cp <- cp + 1` (41 R122). -/
def execClkrd (s : State) : Result := .next ((s.writeResult s.counter).advance 1)

/-- A timer-mode wait until the counter reaches `n`, one micro-step by `ph`: reset, read, sleep (41 R123). -/
def timerWait (n : Word) (s : State) : State :=
  match s.ph with
  | .zero => { s with counter := 0#32, ph := .one }
  | .one => if n ≤ s.counter then s.complete 5 else { s with ph := .two }
  | .two => { s.sleepNow with ph := .one }

/-- WAITMS n: the timer-mode wait (41 R123), or in busy mode one step that only moves `cp` (41 R125). -/
def execWaitms (n : Word) (s : State) : Result :=
  match s.cfg.clockMode with
  | .timer => .next (timerWait n s)
  | .busy => .next (s.advance 5)

/-- WAITUS n: in timer mode WAITMS of the whole milliseconds not less than `n` microseconds (41 R124), in busy mode
as WAITMS (41 R125). -/
def execWaitus (n : Word) (s : State) : Result :=
  match s.cfg.clockMode with
  | .timer => .next (timerWait (millisOfMicros n) s)
  | .busy => .next (s.advance 5)

end Sys2Proof.Machine
end

