-- ==== Sys2Proof/Machine/DeviceConfig.lean ====
section
/-! DEFINITION. The configuration commands (43_config.md). -/

namespace Sys2Proof.Machine

/-- SERCFG ubrr, u2x: `BootConflict` the second time, else the operands are written as they are (43 R160, R169). -/
def execSercfg (ubrr : BitVec 12) (u2x : Bool) (s : State) : Result :=
  if s.serCfgd then .next (s.raise .bootConflict)
  else .next ({ s with ubrr := ubrr, u2x := u2x, serCfgd := true }.advance 3)

/-- TMRCFG presc, ocr: `BootConflict` the second time, then `ConfigRange` for a tick amount that is no integer of
`1 .. 2^32 - 1`, else the operands and the tick are written and the timer and its interrupt start (43 R167, R169;
the order of the two checks is 60 R233). -/
def execTmrcfg (presc ocr : Half) (s : State) : Result :=
  if s.tmrRun then .next (s.raise .bootConflict)
  else
    match acceptedTick (Config.tickAmount s.cfg presc ocr) with
    | none => .next (s.raise .configRange)
    | some t =>
      .next ({ s with presc := presc, ocr := ocr, tick := t, ocie := true, tmrRun := true }.advance 5)

end Sys2Proof.Machine
end

