-- ==== Sys2Proof/Machine/Pin.lean ====
section
/-! DEFINITION. The output pin commands (44_pin_and_morse_client.md R180 to R182). -/

namespace Sys2Proof.Machine

/-- Drive the pin: where `PIN_FALLIBLE` holds, a free draw says whether the write fails with `PinIo`, leaving `pin`
unchanged (44 R182, log 7); no draw is made otherwise. -/
def drivePin (level : Bool) (s : State) : State :=
  if s.cfg.pinFallible then
    if Config.pinFails s.draws then { s with draws := s.draws + 1 }.raise .pinIo
    else { s with draws := s.draws + 1, pin := level }.advance 1
  else { s with pin := level }.advance 1

/-- PINLO (44 R180). -/
def execPinlo (s : State) : Result := .next (drivePin false s)

/-- PINHI (44 R181). -/
def execPinhi (s : State) : Result := .next (drivePin true s)

end Sys2Proof.Machine
end

