-- ==== Sys2Proof/Machine/RingBuffer.lean ====
section
/-! DEFINITION. The transmit commands (42_ringbuffer_tx.md). -/

namespace Sys2Proof.Machine

/-- PUSH d: `RES <- push_bytes(d); cp <- cp + 2 + len` (42 R141). -/
def execPush (d : List Byte) (s : State) : Result :=
  .next (((State.pushBytes d s).2.writeResult (BitVec.ofNat 32 (State.pushBytes d s).1)).advance (2 + d.length))

/-- The attempt micro-step of SENDALL: push the unsent remainder, then complete or go to the sleep (42 R144). -/
def sendAttempt (d : List Byte) (s : State) : State :=
  let r := State.pushBytes (d.drop s.sent.toNat) s
  let sent := s.sent + BitVec.ofNat 8 r.1
  if sent.toNat = d.length then
    ({ r.2 with sent := sent }.writeResult (BitVec.ofNat 32 d.length)).complete (2 + d.length)
  else { r.2 with sent := sent, ph := .two }

/-- SENDALL d, one micro-step by `ph`: start (with the first attempt in the same step), attempt, sleep (42 R144). -/
def execSendall (d : List Byte) (s : State) : Result :=
  match s.ph with
  | .zero =>
    if d.length = 0 then .next (({ s with sent := 0#8 }.writeResult 0#32).advance 2)
    else .next (sendAttempt d { s with sent := 0#8 })
  | .one => .next (sendAttempt d s)
  | .two => .next { s.sleepNow with ph := .one }

end Sys2Proof.Machine
end

