-- ==== Sys2Proof/Machine/System.lean ====
section
/-! DEFINITION. The system commands and the critical section (40_system_critical_section.md). -/

namespace Sys2Proof.Machine

/-- SEI: `I <- 1; cp <- cp + 1` (40 R101). -/
def execSei (s : State) : Result := .next ({ s with iflag := true }.advance 1)

/-- SLEEP: `asleep <- 1; cp <- cp + 1` (40 R102). -/
def execSleep (s : State) : Result := .next (s.sleepNow.advance 1)

/-- CSENTER k: `S[k] <- I; written(S[k]) <- true; I <- 0; cp <- cp + 1` (40 R103). -/
def execCsenter (k : BitVec 2) (s : State) : Result :=
  .next ({ s.writeSlot k s.iflag with iflag := false }.advance 1)

/-- CSEXIT k: `SaveSlotUnwritten` for a slot never written, else `I <- S[k]; cp <- cp + 1` (40 R104). -/
def execCsexit (k : BitVec 2) (s : State) : Result :=
  if (s.slot k).written then .next ({ s with iflag := (s.slot k).value }.advance 1)
  else .next (s.raise .saveSlotUnwritten)

end Sys2Proof.Machine
end

