-- ==== Sys2Proof/Machine/Dispatch.lean ====
section
/-! DEFINITION. One arm per command of the opcode table. -/

namespace Sys2Proof.Machine

def exec (i : Instr) (s : State) : Host.Outcome State Fault Refusal :=
  match i with
  | .sei => Sys2Proof.Machine.execSei s
  | .sleep => Sys2Proof.Machine.execSleep s
  | .csenter k => Sys2Proof.Machine.execCsenter k s
  | .csexit k => Sys2Proof.Machine.execCsexit k s
  | .push d => Sys2Proof.Machine.execPush d s
  | .sendall d => Sys2Proof.Machine.execSendall d s
  | .clkrst => Sys2Proof.Machine.execClkrst s
  | .clkrd => Sys2Proof.Machine.execClkrd s
  | .waitms n => Sys2Proof.Machine.execWaitms n s
  | .waitus n => Sys2Proof.Machine.execWaitus n s
  | .sercfg ubrr u2x => Sys2Proof.Machine.execSercfg ubrr u2x s
  | .tmrcfg presc ocr => Sys2Proof.Machine.execTmrcfg presc ocr s
  | .pinlo => Sys2Proof.Machine.execPinlo s
  | .pinhi => Sys2Proof.Machine.execPinhi s

end Sys2Proof.Machine
end

