-- ==== Sys2Proof/Machine/Foreground.lean ====
section
/-! DEFINITION. The foreground sequencer FG: fetch, decode and one step (30_encoding.md R86), and how a program comes
to stand in the command stream (log 9). -/

namespace Sys2Proof.Machine

/-- The bytes from `cp` to the end of the stream (30 R86). -/
def State.fetch (s : State) : List Byte := s.cmd.drop s.cp

/-- FG's step: decode at `cp` and perform the command, or the micro-step of it that `ph` selects; a decode that fails
raises `IllegalCommand` (30 R86 to R88). -/
def fgStep (s : State) : Result :=
  match decode s.fetch with
  | .error _ => .next (s.raise .illegalCommand)
  | .ok i => exec i s

/-- The run is started with the command stream `bytes` (30 R80): loading from outside the machine. -/
def State.load (s : State) (bytes : List Byte) : State := { s with cmd := bytes }

/-- Put `bytes` into the stream at `cp`, and make FG the next agent, awake, unfaulted and between commands, so that
the very next step executes them (30 R86). -/
def State.placeCommand (s : State) (bytes : List Byte) : State :=
  { s with
    cmd := s.cmd.take s.cp ++ List.replicate (s.cp - s.cmd.length) 0#8 ++ bytes
      ++ s.cmd.drop (s.cp + bytes.length)
    ph := .zero, asleep := false, fault := none, sched := .fg :: s.sched }

end Sys2Proof.Machine
end

