-- ==== Sys2Proof/Machine/Handlers.lean ====
section
/-! DEFINITION. The two interrupt handlers, each one atomic step of entry, body and return (60_exceptions.md R215 to
R219), and the two devices (R220, R221). -/

namespace Sys2Proof.Machine

/-- The body of the drain handler: disarm if the ring is empty, else pop (60 R217). -/
def State.drain (s : State) : State := if s.empty then { s with txie := false } else s.popByte

/-- TXISR (60 R217). -/
def txIsr (s : State) : State := s.enterInterrupt.drain.returnInterrupt

/-- The body of the tick handler: `counter <- counter + TICK; OCF <- 0` (60 R218). -/
def State.tickOnce (s : State) : State := { s with counter := s.counter + s.tick, ocf := false }

/-- TMRISR (60 R218). -/
def tmrIsr (s : State) : State := s.enterInterrupt.tickOnce.returnInterrupt

/-- SERDEV: `line <- line ++ [UDR]; UDRE <- 1` (60 R220). -/
def serDev (s : State) : State := { s with line := s.line ++ [s.udr], udre := true }

/-- TMRDEV: `OCF <- 1`; a match while one is pending is merged into it (60 R221, 10 R29). -/
def tmrDev (s : State) : State := { s with ocf := true }

/-- A frame on the line (43 R161): start bit 0, the eight data bits least significant first, stop bit 1. The order
and the polarity are PRESUMED by the spec itself ("from general knowledge", log 12); no step uses them. -/
def frameOf (b : Byte) : List Bool :=
  [false] ++ (List.range 8).map (fun i => b.getLsbD i) ++ [true]

end Sys2Proof.Machine
end

