-- ==== Sys2Proof/Machine/Scheduler.lean ====
section
/-! DEFINITION. Which agents can step (30_encoding.md R86, 60_exceptions.md R213, R220, R221) and whose turn it is
(00_scope.md R12, log 2). -/

namespace Sys2Proof.Machine

/-- FG is enabled: no fault, awake, and not finished (30 R86). -/
def State.fgEnabled (s : State) : Bool := s.fault.isNone && !s.asleep && !s.fgFinished

/-- An agent's enabling condition. -/
def State.enabled (s : State) : Agent → Bool
  | .fg => s.fgEnabled
  | .txisr => s.iflag && s.txRequest
  | .tmrisr => s.iflag && s.tmrRequest
  | .serdev => s.serCfgd && !s.udre
  | .tmrdev => s.tmrRun

/-- Some agent can step. -/
def State.anyEnabled (s : State) : Bool :=
  s.enabled .fg || s.enabled .txisr || s.enabled .tmrisr || s.enabled .serdev || s.enabled .tmrdev

/-- The first enabled agent of a list; else TMRDEV, if it is enabled, FG asleep and `I = 1`; else FG, which is then
not enabled and is passed over (95_test_vectors.md, Conventions). -/
def State.firstEnabled (s : State) (order : List Agent) : Agent :=
  match order.find? s.enabled with
  | some a => a
  | none => if s.tmrRun && s.asleep && s.iflag then .tmrdev else .fg

/-- Whose turn it is: the head of the script, or the policy's choice when the script is used up (log 2). -/
def State.nextAgent (s : State) : Agent :=
  match s.sched with
  | a :: _ => a
  | [] =>
    match s.policy with
    | .free => Config.turn s.turns
    | .eager => s.firstEnabled [.txisr, .tmrisr, .serdev, .fg]
    | .lazy => s.firstEnabled [.fg, .txisr, .tmrisr, .serdev]

/-- The turn is used up. -/
def State.takeTurn (s : State) : State := { s with sched := s.sched.tail, turns := s.turns + 1 }

/-- One step of an agent that is enabled. -/
def runAgent (a : Agent) (s : State) : Result :=
  match a with
  | .fg => fgStep s
  | .txisr => .next (txIsr s)
  | .tmrisr => .next (tmrIsr s)
  | .serdev => .next (serDev s)
  | .tmrdev => .next (tmrDev s)

/-- One step of the block. The agent whose turn it is steps if it is enabled; a turn of an agent that is not enabled
passes with no other effect. Where no agent at all is enabled there is "no step at all" (00 R14): the run is over in a
final state and hangs in any other (log 3). -/
def blockStep (s : State) : Result :=
  if s.anyEnabled then
    if s.enabled s.nextAgent then runAgent s.nextAgent s.takeTurn else .next s.takeTurn
  else .fault (if s.final then .finished else .stuck)

end Sys2Proof.Machine
end

