-- ==== Sys2Proof/Machine/Step.lean ====
section
/-! DEFINITION. The step of the machine, and a table word placed where FG fetches. -/

namespace Sys2Proof.Machine

/-- One step: one agent's atomic step (00_scope.md R12). -/
def step (s : State) : Host.Outcome State Fault Refusal := blockStep s

/-- `s` with the command of table word `w` (of `nbits` bits, zeros above) at `cp` and FG's turn next, so that `step`
executes exactly it. -/
def State.withFetchWord (s : State) (nbits w : Nat) : State := s.placeCommand (tableBytes nbits w)

end Sys2Proof.Machine
end

