-- ==== Sys2Proof/Machine/Baud.lean ====
section
/-! DEFINITION. The baud-rate derivation (43_config.md R162 to R166): build-time arithmetic of the BAUD
pseudo-instruction, whose result SERCFG writes. -/

namespace Sys2Proof.Machine

/-- `BAUD_ARITH`: the two readings of the document's formula, of which the spec picks none (43 R162, D24). -/
inductive BaudArith where
  | exactRound  -- exact rationals, to the nearest integer, a tie up (43 R163)
  | trunc       -- truncating divisions of unsigned integers (43 R164)
  deriving DecidableEq, Repr

/-- `div_round(C, d, B)`, the document's `round((C/d/B - 1)/2)`; none where the value before rounding is negative or
`B = 0` (43 R163 to R165). The first case is the closed form that R163 gives. -/
def divRound (a : BaudArith) (c d b : Nat) : Option Nat :=
  match a with
  | .exactRound => if 0 < b ∧ d * b ≤ c then some (c / (2 * d * b)) else none
  | .trunc => if 1 ≤ c / d / b then some ((c / d / b - 1) / 2) else none

/-- `baud_cfg(C, B)`: the divisor and the double-speed flag, none where it refuses (43 R162, R165). -/
def baudCfg (a : BaudArith) (c b : Nat) : Option (BitVec 12 × Bool) :=
  match divRound a c 4 b with
  | none => none
  | some u =>
    if u ≤ 4095 then some (BitVec.ofNat 12 u, true)
    else
      match divRound a c 8 b with
      | none => none
      | some v => if v ≤ 4095 then some (BitVec.ofNat 12 v, false) else none

end Sys2Proof.Machine
end

