-- ==== Sys2Proof/Machine/Morse.lean ====
section
/-! DEFINITION. The Morse codec of the client (44_pin_and_morse_client.md R183 to R187, R197 to R199). It holds no
state of the block (00_scope.md R2). -/

namespace Sys2Proof.Machine

/-- `MorseChar` (44 R183): bit `i` of `bits` is 0 for a dot and 1 for a dash, for `i < count`. -/
structure MorseChar where
  count : Fin 9
  bits  : Byte
  deriving DecidableEq, Repr

/-- One signal of a character. -/
inductive Signal where
  | dot | dash
  deriving DecidableEq, Repr

/-- The word-space code (44 R185). -/
def MorseChar.space : MorseChar := ⟨0, 0#8⟩

/-- `TABLE` by its explicit entries: a code of 0 to 127 without one has count 0 (44 R184). -/
abbrev MorseTable := List (Byte × MorseChar)

/-- The signal that a character of a source pattern spells (44 R198). -/
def signalOf (c : Char) : Option Signal :=
  if c = '.' then some .dot else if c = '-' then some .dash else none

/-- The field of a sequence of signals, the first in bit 0 (44 R198). -/
def packSignals : List Signal → Byte
  | [] => 0#8
  | sig :: rest => (packSignals rest <<< 1) ||| (if sig = .dash then 1#8 else 0#8)

/-- The record of at most eight signals, none for a longer sequence (44 R184, R198). -/
def ofSignals (sigs : List Signal) : Option MorseChar :=
  if h : sigs.length < 9 then some ⟨⟨sigs.length, h⟩, packSignals sigs⟩ else none

/-- The record of a source pattern; none, that is a failed build, for another character than dot and dash or more than
eight signals (44 R184, R198). -/
def ofPattern (pattern : List Char) : Option MorseChar := (pattern.mapM signalOf).bind ofSignals

/-- A table of explicit entries that stands for a mapping from the 128 codes (44 R184): every code at most 127, and no
code twice. -/
def MorseTable.legal (t : MorseTable) : Bool :=
  decide ((t.map fun e => e.1).Nodup ∧ ∀ e ∈ t, e.1 ≤ 0x7F#8)

/-- The code of a source character, none outside the 128 codes. DESIGN CHOICE, safe (log 15): the spec names no build
failure for such a character. -/
def sourceCode (c : Char) : Option Byte := if c.toNat ≤ 127 then some (BitVec.ofNat 8 c.toNat) else none

/-- One entry of the table, none where the build fails (44 R184, R198). -/
def sourceEntry (e : Char × List Char) : Option (Byte × MorseChar) :=
  match sourceCode e.1, ofPattern e.2 with
  | some c, some m => some (c, m)
  | _, _ => none

/-- Table construction (44 R184, R198). That the build also fails on a character outside the 128 codes and on two
patterns for one character is a DESIGN CHOICE, safe (log 15): the spec says nothing about either. -/
def buildTable (source : List (Char × List Char)) : Option MorseTable :=
  (source.mapM sourceEntry).bind fun t => if MorseTable.legal t then some t else none

/-- The source patterns of the default table (44 R197). PRESUMED by the spec itself ("from general knowledge") but for
`s`, `o` and `0`, which the document gives (log 12). -/
def standardPatterns : List (Char × List Char) :=
  [('a', ['.', '-']), ('b', ['-', '.', '.', '.']), ('c', ['-', '.', '-', '.']), ('d', ['-', '.', '.']),
   ('e', ['.']), ('f', ['.', '.', '-', '.']), ('g', ['-', '-', '.']), ('h', ['.', '.', '.', '.']),
   ('i', ['.', '.']), ('j', ['.', '-', '-', '-']), ('k', ['-', '.', '-']), ('l', ['.', '-', '.', '.']),
   ('m', ['-', '-']), ('n', ['-', '.']), ('o', ['-', '-', '-']), ('p', ['.', '-', '-', '.']),
   ('q', ['-', '-', '.', '-']), ('r', ['.', '-', '.'])]
  ++ [('s', ['.', '.', '.']), ('t', ['-']), ('u', ['.', '.', '-']), ('v', ['.', '.', '.', '-']),
   ('w', ['.', '-', '-']), ('x', ['-', '.', '.', '-']), ('y', ['-', '.', '-', '-']), ('z', ['-', '-', '.', '.'])]
  ++ [('0', ['-', '-', '-', '-', '-']), ('1', ['.', '-', '-', '-', '-']), ('2', ['.', '.', '-', '-', '-']),
   ('3', ['.', '.', '.', '-', '-']), ('4', ['.', '.', '.', '.', '-']), ('5', ['.', '.', '.', '.', '.']),
   ('6', ['-', '.', '.', '.', '.']), ('7', ['-', '-', '.', '.', '.']), ('8', ['-', '-', '-', '.', '.']),
   ('9', ['-', '-', '-', '-', '.'])]

/-- The default `TABLE` (44 R197, D32). -/
def standardTable : MorseTable := (buildTable standardPatterns).getD []

/-- Case folding of one code (44 R185). -/
def foldCase (c : Byte) : Byte := if 0x41#8 ≤ c ∧ c ≤ 0x5A#8 then c + 0x20#8 else c

/-- `lookup(character)`: fold, then the table's entry; a code above 127 or without an entry is the space code
(44 R185, R199). -/
def lookup (t : MorseTable) (c : Byte) : MorseChar :=
  if foldCase c ≤ 0x7F#8 then ((t.find? fun e => e.1 == foldCase c).map fun e => e.2).getD .space
  else .space

/-- `is_word_space(code)` (44 R186). -/
def isWordSpace (m : MorseChar) : Bool := m.count == 0

/-- `signals(code)`: exactly `count` tokens, least-significant bit first (44 R187). -/
def signals (m : MorseChar) : List Signal :=
  (List.range m.count.val).map fun i => if m.bits.getLsbD i then .dash else .dot

end Sys2Proof.Machine
end

