-- ==== Sys2Proof/Machine/Client.lean ====
section
/-! DEFINITION. The Morse emitter and the diagnostic writer of the client (44_pin_and_morse_client.md R188 to R196):
which commands it issues. It adds no behaviour of the block (00_scope.md R2). -/

namespace Sys2Proof.Machine

/-- `DIAG_MODE` (44 R195). -/
inductive DiagMode where
  | sendall   -- one SENDALL, which blocks until every byte is accepted
  | pushDrop  -- one PUSH, `RES` ignored, which loses what does not fit
  deriving DecidableEq, Repr

/-- Where a narrating emitter can write, within the commands of one character (44 R193). Between them these are all the
places before, between and after the commands of 44 R190, and the word space of R189, which issues none. -/
inductive Point where
  | space              -- on a word space
  | gap (word : Bool)  -- before the wait that precedes a character; `word` says whether it is a word gap
  | signal (i : Nat)   -- after the gap before signal `i`, before PINHI
  | high (i : Nat)     -- after PINHI of signal `i`, before its wait
  | held (i : Nat)     -- after that wait, before PINLO
  | low (i : Nat)      -- after PINLO of signal `i`
  deriving DecidableEq, Repr

/-- The marker strings of one character, by their place: any number of messages at each. -/
abbrev CharNarration := Point → List (List Byte)

/-- The marker strings of a whole text, by the position of the character in it. -/
abbrev TextNarration := Nat → CharNarration

/-- The client's parameters (00 R6), arguments of the client and the assembler and no state (log 11). -/
structure ClientParams where
  /-- `B`, the target baud rate, a positive integer. -/
  baud       : Nat
  /-- `BAUD_ARITH`; the spec picks no default (43 R162). -/
  baudArith  : BaudArith
  /-- `W`, words per minute, `1 .. 1200`. -/
  wpm        : Nat
  /-- `TABLE`; the default is that of 44 R197. -/
  table      : MorseTable := standardTable
  /-- `STAGE_CAP`, `1 .. 255`. -/
  stageCap   : Nat
  /-- `DIAG_MODE`; the default is the blocking composition (44 R195). -/
  diagMode   : DiagMode := .sendall
  /-- The marker strings and their positions (44 R193), for each text that is emitted; by default there is none. -/
  narration  : List Byte → TextNarration := fun _ _ _ => []

/-- The parameters that a build accepts (00 R6, 44 R184, R188, R194; `B` is a positive integer, 92 "Open parameters").
That a build also accepts a positive `B` for which `baud_cfg` refuses (43 R165), as long as no BAUD line of its program
asks for such a rate, is a DESIGN CHOICE, safe (log 16): the spec does not say. -/
def ClientParams.legal (p : ClientParams) : Bool :=
  decide (1 ≤ p.baud ∧ 1 ≤ p.wpm ∧ p.wpm ≤ 1200 ∧ 1 ≤ p.stageCap ∧ p.stageCap ≤ 255) && p.table.legal

/-- The same client without narration. -/
def ClientParams.silenced (p : ClientParams) : ClientParams := { p with narration := fun _ _ _ => [] }

/-! ## Timing constants (44 R188) -/

/-- `dit_ms = 60000 div (50 * W)`. -/
def ditMs (w : Nat) : Nat := 60000 / (50 * w)

/-- `dah_ms`. -/
def dahMs (w : Nat) : Nat := 3 * ditMs w

/-- `inter_char_space_ms`. -/
def interCharSpaceMs (w : Nat) : Nat := 3 * ditMs w

/-- `inter_word_space_ms`. -/
def interWordSpaceMs (w : Nat) : Nat := 7 * ditMs w

/-- The command `WAITMS ms`. -/
def waitCommand (ms : Nat) : Instr := .waitms (BitVec.ofNat 32 ms)

/-! ## The diagnostic writer -/

/-- The commands for one diagnostic message: none at all, and a failed operation, when it is longer than the staging
buffer (44 R194); else the composition that `DIAG_MODE` selects (44 R195). -/
def diagCommands (p : ClientParams) (text : List Byte) : Option (List Instr) :=
  if text.length ≤ p.stageCap then
    match p.diagMode with
    | .sendall => some [.sendall text]
    | .pushDrop => some [.push text]
  else none

/-- The commands for the messages written at one place (44 R193). A message longer than the staging buffer issues none
and the emission goes on: DESIGN CHOICE (log 11), the spec does not say what becomes of an emission (93 U10). -/
def narrate (p : ClientParams) (messages : List (List Byte)) : List Instr :=
  messages.flatMap fun m => (diagCommands p m).getD []

/-- A command by which the diagnostic writer sends (44 R195). -/
def isDiagnostic : Instr → Bool
  | .sei => false
  | .sleep => false
  | .csenter _ => false
  | .csexit _ => false
  | .push _ => true
  | .sendall _ => true
  | .clkrst => false
  | .clkrd => false
  | .waitms _ => false
  | .waitus _ => false
  | .sercfg _ _ => false
  | .tmrcfg _ _ => false
  | .pinlo => false
  | .pinhi => false

/-! ## The emitter -/

/-- How long the pin is high for a signal (44 R190). -/
def signalMs (w : Nat) : Signal → Nat
  | .dot => ditMs w
  | .dash => dahMs w

/-- Signal token `i` of a character: after a dit of silence unless it is the first, the pin high for a dit or a dah
(44 R190). -/
def emitSignal (p : ClientParams) (notes : CharNarration) (i : Nat) (sig : Signal) : List Instr :=
  (if i = 0 then [] else [waitCommand (ditMs p.wpm)])
    ++ narrate p (notes (.signal i)) ++ .pinhi
    :: (narrate p (notes (.high i)) ++ waitCommand (signalMs p.wpm sig)
    :: (narrate p (notes (.held i)) ++ .pinlo
    :: narrate p (notes (.low i))))

/-- The tokens of a character from token `i` on, in order (44 R190). -/
def emitSignals (p : ClientParams) (notes : CharNarration) : Nat → List Signal → List Instr
  | _, [] => []
  | i, sig :: rest => emitSignal p notes i sig ++ emitSignals p notes (i + 1) rest

/-- `emit_code(code)`: the commands issued and `want_inter_word_space` after (44 R189, R190), the markers of `notes`
interleaved (44 R193). -/
def emitCode (p : ClientParams) (notes : CharNarration) (want : Bool) (code : MorseChar) : List Instr × Bool :=
  if isWordSpace code then (narrate p (notes .space), true)
  else
    (narrate p (notes (.gap want))
      ++ waitCommand (if want then interWordSpaceMs p.wpm else interCharSpaceMs p.wpm)
      :: emitSignals p notes 0 (signals code), false)

/-- The characters of a text in input order; `notes j` belongs to the one `j` places on (44 R191). -/
def emitChars (p : ClientParams) (notes : TextNarration) (want : Bool) : List Byte → List Instr × Bool
  | [] => ([], want)
  | c :: text =>
    match emitCode p (notes 0) want (lookup p.table (foldCase c)) with
    | (now, want') =>
      match emitChars p (fun j => notes (j + 1)) want' text with
      | (later, want'') => (now ++ later, want'')

/-- `emit_string(text)`: the characters in input order, with no trailing gap (44 R191). -/
def emitString (p : ClientParams) (want : Bool) (text : List Byte) : List Instr × Bool :=
  emitChars p (p.narration text) want text

/-- The emitter at work on the client's bit in the state (10 R39, 44 R192): the commands issued and the state after. -/
def State.emit (p : ClientParams) (text : List Byte) (s : State) : List Instr × State :=
  match emitString p s.wantInterWordSpace text with
  | (issued, want) => (issued, { s with wantInterWordSpace := want })

/-- The SERCFG that the bootstrap must issue (70 R256): `baud_cfg(C, B)`, none where the build refuses. -/
def bootSercfg (p : ClientParams) (cfg : Config) : Option Instr :=
  (baudCfg p.baudArith cfg.clockHz p.baud).map fun r => .sercfg r.1 r.2

end Sys2Proof.Machine
end

