-- ==== Sys2Proof/Machine/Assembler.lean ====
section
/-! DEFINITION. The assembler: pseudo-instructions and their expansion (30_encoding.md R90), the text form (R89), and a
program loaded into the command stream (R80). It adds no behaviour of the block. -/

namespace Sys2Proof.Machine

/-- One line of a program: a command or a pseudo-instruction (30 R90). -/
inductive AsmLine where
  | command (i : Instr)
  | withcs (k : BitVec 2)
  | endcs (k : BitVec 2)
  | baud (c b : Nat)
  | emit (text : List Byte)
  | diag (text : List Byte)
  deriving DecidableEq, Repr

/-- The commands that a line stands for and the client's bit after it; none is an assembly-time error (30 R90,
43 R165, 44 R194). -/
def expandLine (p : ClientParams) (want : Bool) : AsmLine → Option (List Instr × Bool)
  | .command i => if i.wf then some ([i], want) else none
  | .withcs k => some ([.csenter k], want)
  | .endcs k => some ([.csexit k], want)
  | .baud c b => (baudCfg p.baudArith c b).map fun r => ([.sercfg r.1 r.2], want)
  | .emit text => some (emitString p want text)
  | .diag text => (diagCommands p text).map fun is => (is, want)

/-- The commands of a program; the assembler tracks the client's bit from line to line (44 R196). -/
def expandProgram (p : ClientParams) (want : Bool) : List AsmLine → Option (List Instr × Bool)
  | [] => some ([], want)
  | l :: ls =>
    match expandLine p want l with
    | none => none
    | some (now, want') =>
      match expandProgram p want' ls with
      | none => none
      | some (later, want'') => some (now ++ later, want'')

/-- The command stream of a sequence of commands: their encodings one after another, with no padding (30 R80). -/
def streamOf (is : List Instr) : List Byte := is.flatMap encode

/-- A program assembled and loaded: the run is started with its command stream (30 R80), and the client's bit is the one
the assembler leaves. The build refuses client parameters out of range
(ClientParams.legal). -/
def State.loadProgram (p : ClientParams) (ls : List AsmLine) (s : State) : Option State :=
  if p.legal then
    (expandProgram p s.wantInterWordSpace ls).map fun r =>
      { s.load (streamOf r.1) with wantInterWordSpace := r.2 }
  else none

/-! ## The text form (30 R89; what it leaves open is in log 13) -/

/-- Characters between words. -/
def isBlank (c : Char) : Bool := c == ' ' || c == '\t' || c == '\r'

/-- A text without the blanks at its ends. -/
def trimBlanks (cs : List Char) : List Char := ((cs.dropWhile isBlank).reverse.dropWhile isBlank).reverse

/-- A line without its comment: `;` outside a quoted string starts one (30 R89). -/
def stripComment (quoted : Bool) : List Char → List Char
  | [] => []
  | c :: cs =>
    if c = ';' ∧ quoted = false then []
    else c :: stripComment (if c = '"' then !quoted else quoted) cs

/-- The value of a digit, for bases up to sixteen. -/
def digitValue (c : Char) : Option Nat :=
  if '0' ≤ c ∧ c ≤ '9' then some (c.toNat - 48)
  else if 'a' ≤ c ∧ c ≤ 'f' then some (c.toNat - 87)
  else if 'A' ≤ c ∧ c ≤ 'F' then some (c.toNat - 55)
  else none

/-- The value of a sequence of digits, the most significant first. -/
def digitsValue (base : Nat) : Nat → List Char → Option Nat
  | acc, [] => some acc
  | acc, c :: cs =>
    match digitValue c with
    | none => none
    | some v => if v < base then digitsValue base (acc * base + v) cs else none

/-- A number: decimal, or hexadecimal with `0x` (30 R89). -/
def parseNumber : List Char → Option Nat
  | [] => none
  | '0' :: 'x' :: c :: cs => digitsValue 16 0 (c :: cs)
  | c :: cs => digitsValue 10 0 (c :: cs)

/-- Numbers separated by commas. -/
def parseNumbers (cs : List Char) : Option (List Nat) :=
  (cs.splitOn ',').mapM fun part => parseNumber (trimBlanks part)

/-- A printable ASCII character of a quoted string, as its code (30 R89). -/
def stringByte (c : Char) : Option Byte :=
  if ' ' ≤ c ∧ c ≤ '~' ∧ c ≠ '"' then some (BitVec.ofNat 8 c.toNat) else none

/-- The rest of a quoted string, after its opening quote. -/
def parseQuoted : List Char → Option (List Byte)
  | [] => none
  | [c] => if c = '"' then some [] else none
  | c :: d :: cs =>
    match stringByte c, parseQuoted (d :: cs) with
    | some b, some bs => some (b :: bs)
    | _, _ => none

/-- A number that fits in `w` bits. -/
def fits (w n : Nat) : Option (BitVec w) := if n < 2 ^ w then some (BitVec.ofNat w n) else none

/-- A data operand: a quoted string or a list of byte values (30 R89). -/
def parseData : List Char → Option (List Byte)
  | '"' :: cs => parseQuoted cs
  | cs => (parseNumbers cs).bind fun ns => ns.mapM (fits 8)

/-- A quoted string operand. -/
def parseText : List Char → Option (List Byte)
  | '"' :: cs => parseQuoted cs
  | _ => none

/-- One number that fits in `w` bits. -/
def parseOne (w : Nat) (cs : List Char) : Option (BitVec w) := (parseNumber cs).bind (fits w)

/-- Two numbers. -/
def parseTwo (cs : List Char) : Option (Nat × Nat) :=
  match parseNumbers cs with
  | some [a, b] => some (a, b)
  | _ => none

/-- A command without operands. -/
def bare (i : Instr) (operands : List Char) : Option AsmLine :=
  if operands = [] then some (.command i) else none

/-- A line by its mnemonic and its operands (30 R89, R90). -/
def parseCommand (mnemonic operands : List Char) : Option AsmLine :=
  if mnemonic = "SEI".toList then bare .sei operands
  else if mnemonic = "SLEEP".toList then bare .sleep operands
  else if mnemonic = "CSENTER".toList then (parseOne 2 operands).map fun k => .command (.csenter k)
  else if mnemonic = "CSEXIT".toList then (parseOne 2 operands).map fun k => .command (.csexit k)
  else if mnemonic = "PUSH".toList then (parseData operands).map fun d => .command (.push d)
  else if mnemonic = "SENDALL".toList then (parseData operands).map fun d => .command (.sendall d)
  else if mnemonic = "CLKRST".toList then bare .clkrst operands
  else if mnemonic = "CLKRD".toList then bare .clkrd operands
  else if mnemonic = "WAITMS".toList then (parseOne 32 operands).map fun n => .command (.waitms n)
  else if mnemonic = "WAITUS".toList then (parseOne 32 operands).map fun n => .command (.waitus n)
  else if mnemonic = "SERCFG".toList then
    (parseTwo operands).bind fun r =>
      (fits 12 r.1).bind fun u => (fits 1 r.2).map fun x => .command (.sercfg u (x == 1#1))
  else if mnemonic = "TMRCFG".toList then
    (parseTwo operands).bind fun r =>
      (fits 16 r.1).bind fun p => (fits 16 r.2).map fun o => .command (.tmrcfg p o)
  else if mnemonic = "PINLO".toList then bare .pinlo operands
  else if mnemonic = "PINHI".toList then bare .pinhi operands
  else if mnemonic = "WITHCS".toList then (parseOne 2 operands).map .withcs
  else if mnemonic = "ENDCS".toList then (parseOne 2 operands).map .endcs
  else if mnemonic = "BAUD".toList then (parseTwo operands).map fun r => .baud r.1 r.2
  else if mnemonic = "EMIT".toList then (parseText operands).map .emit
  else if mnemonic = "DIAG".toList then (parseText operands).map .diag
  else none

/-- One line of text: nothing for a blank or comment line, none for an error (30 R89). -/
def parseLine (cs : List Char) : Option (List AsmLine) :=
  match trimBlanks (stripComment false cs) with
  | [] => some []
  | body =>
    (parseCommand (body.takeWhile fun c => !isBlank c)
      (trimBlanks (body.dropWhile fun c => !isBlank c))).map fun l => [l]

/-- A program text, one command a line (30 R89). -/
def parseProgram (cs : List Char) : Option (List AsmLine) :=
  ((cs.splitOn '\n').mapM parseLine).map List.flatten

end Sys2Proof.Machine
end

