-- ==== Sys2Proof/Safety.lean ====
section
/-! DEFINITION. The terms in which claims are stated: whose step the next one is, the byte stream from producer to
line, runs, and the invariant of the block. -/

namespace Sys2Proof.Machine

/-! ## The next step -/

/-- The next step of the block is a step of agent `a`: it is `a`'s turn and `a` is enabled. -/
def State.moves (s : State) (a : Agent) : Bool := s.nextAgent == a && s.enabled a

/-- The next step of the block is FG's, on the command `i`. -/
def State.executes (s : State) (i : Instr) : Prop := s.moves .fg = true ∧ decode s.fetch = .ok i

/-! ## The byte stream (20 R73) -/

/-- The bytes held in the ring, oldest first: `buf[(read_index + j) & MASK]` for `j < occupancy`. -/
def State.queue (s : State) : List Byte :=
  (List.range s.occupancy).map fun j => s.buf.read (s.slotOf (s.readIndex + BitVec.ofNat 16 j))

/-- The byte in `UDR` that the serial device has not taken yet. -/
def State.inRegister (s : State) : List Byte := if s.udre then [] else [s.udr]

/-- `line`, then the byte in `UDR` if `UDRE = 0`, then the ring (20 R73). -/
def State.stream (s : State) : List Byte := s.line ++ s.inRegister ++ s.queue

/-- The bytes that a command offers to the ring in the next micro-step. -/
def State.offered (s : State) : Instr → List Byte
  | .sei => []
  | .sleep => []
  | .csenter _ => []
  | .csexit _ => []
  | .push d => d
  | .sendall d =>
    match s.ph with
    | .zero => d
    | .one => d.drop s.sent.toNat
    | .two => []
  | .clkrst => []
  | .clkrd => []
  | .waitms _ => []
  | .waitus _ => []
  | .sercfg _ _ => []
  | .tmrcfg _ _ => []
  | .pinlo => []
  | .pinhi => []

/-- The bytes that the next step accepts into the ring: the first `free` of those offered (42 R140). -/
def State.accepts (s : State) : List Byte :=
  if s.moves .fg then
    match decode s.fetch with
    | .ok i => (s.offered i).take s.free
    | .error _ => []
  else []

/-! ## Runs -/

/-- `n` steps of the block, stopping where no agent is enabled; it is the host's run of `Sys2Proof.core`. -/
def runSteps : Nat → State → Result
  | 0, s => .next s
  | n + 1, s =>
    match step s with
    | .next t => runSteps n t
    | .fault f => .fault f
    | .refused r => .refused r

/-- The bytes accepted in the first `n` steps, in order. -/
def acceptedIn : Nat → State → List Byte
  | 0, _ => []
  | n + 1, s =>
    match step s with
    | .next t => s.accepts ++ acceptedIn n t
    | .fault _ => []
    | .refused _ => []

/-- How many of the first `n` steps are runs of the tick handler. -/
def tickRuns : Nat → State → Nat
  | 0, _ => 0
  | n + 1, s =>
    match step s with
    | .next t => (if s.moves .tmrisr then 1 else 0) + tickRuns n t
    | .fault _ => 0
    | .refused _ => 0

/-- None of the first `n` steps is FG's on the command `i`. -/
def neverExecutes (i : Instr) : Nat → State → Prop
  | 0, _ => True
  | n + 1, s =>
    ¬ s.executes i ∧
      match step s with
      | .next t => neverExecutes i n t
      | .fault _ => True
      | .refused _ => True

/-! ## The invariant -/

/-- The ring storage has its canonical form and lies within the `N` slots (20 R60). -/
abbrev State.ringWf (s : State) : Prop := Memory.wf s.slots s.buf

/-- If the ring is not empty then `TXIE = 1` (10 R40). -/
abbrev State.armedWf (s : State) : Prop := s.empty = false → s.txie = true

/-- The timer's interrupt is enabled exactly when TMRCFG has executed, a match is pending only then, and `TICK` is then
a positive amount (10 R28, R29; 43 R167). -/
abbrev State.timerWf (s : State) : Prop :=
  s.ocie = s.tmrRun ∧ (s.ocf = true → s.tmrRun = true) ∧ (s.tmrRun = true → s.tick ≠ 0#32)

/-- A command that can be between its micro-steps: a wait in timer mode, a SENDALL with bytes unsent (10 R35, 41 R125). -/
def State.inProgress (s : State) : Instr → Prop
  | .sei => False
  | .sleep => False
  | .csenter _ => False
  | .csexit _ => False
  | .push _ => False
  | .sendall d => s.sent.toNat < d.length
  | .clkrst => False
  | .clkrd => False
  | .waitms _ => s.cfg.clockMode = .timer
  | .waitus _ => s.cfg.clockMode = .timer
  | .sercfg _ _ => False
  | .tmrcfg _ _ => False
  | .pinlo => False
  | .pinhi => False

/-- `cp` stays within the stream; between the micro-steps of a command, that command stands at `cp`; and a core that is
asleep or inside a command has raised no fault (10 R34 to R37, 60 R234). -/
def State.sequencerWf (s : State) : Prop :=
  s.cp ≤ s.cmd.length ∧
  (s.ph ≠ .zero → ∃ i, decode s.fetch = .ok i ∧ s.inProgress i) ∧
  (s.ph ≠ .zero → s.fault = none) ∧
  (s.asleep = true → s.fault = none)

/-- The invariant that every step keeps. -/
structure State.Inv (s : State) : Prop where
  ring      : s.ringWf
  armed     : s.armedWf
  timer     : s.timerWf
  sequencer : s.sequencerWf

end Sys2Proof.Machine
end

