-- ==== Sys2Proof/Certificates/Slice0/Obligations.lean ====
section
/-! DEFINITION. The statements for the provers, from the numbered rules of spec/. A rule of spec/ that carries a
"derived" mark of the spec's own is cited by a statement of basis derived only. -/

open Sys2Proof Sys2Proof.Machine

/-! ## Encoding -/

/-- Sanity: words written out from the encodings of 30_encoding.md R82, R83 decode to the commands they stand for. -/
def Obligations.WrittenWordsDecode : Prop :=
  decode [0x02#8] = .ok .sleep ∧
  decode [0x13#8] = .ok (.csenter 3#2) ∧
  decode [0x19#8, 0x00#8] = .ok (.csexit 1#2) ∧
  decode [0x20#8, 0x03#8, 0x41#8, 0x42#8, 0x43#8] = .ok (.push [0x41#8, 0x42#8, 0x43#8]) ∧
  decode [0x31#8] = .ok .clkrd ∧
  decode [0x33#8, 0xDC#8, 0x05#8, 0x00#8, 0x00#8] = .ok (.waitus 1500#32) ∧
  decode [0x40#8, 0x22#8, 0x80#8] = .ok (.sercfg 34#12 true) ∧
  decode [0x41#8, 0x00#8, 0x04#8, 0x7C#8, 0x00#8] = .ok (.tmrcfg 1024#16 124#16) ∧
  decode [0x51#8] = .ok .pinhi

/-- Decoding the encoding of a well-formed command, whatever follows it, gives the command back, and the encoding has
the length of 30 R85: no bit of an operand is dropped (30 R81 to R85). -/
def Obligations.DecodeOfEncode : Prop :=
  ∀ (i : Instr) (rest : List Byte), i.wf = true →
    decode (encode i ++ rest) = .ok i ∧ (encode i).length = i.size

/-- Every byte sequence that decodes begins with the encoding of a well-formed command: no command has a second
spelling (30 R83, R87 "There are no hint encodings"). -/
def Obligations.EncodeOfDecode : Prop :=
  ∀ (bs : List Byte) (i : Instr), decode bs = .ok i → i.wf = true ∧ ∃ rest, bs = encode i ++ rest

/-- A command stream is a concatenation of commands with no padding, and decoding at the offset of a command gives that
command (30 R80, R85). -/
def Obligations.StreamDecodesInOrder : Prop :=
  ∀ (before : List Instr) (i : Instr) (after : List Instr), (∀ j ∈ before ++ i :: after, j.wf = true) →
    (streamOf before).length = (before.map Instr.size).sum ∧
    decode ((streamOf (before ++ i :: after)).drop (before.map Instr.size).sum) = .ok i

/-- 30 R87: exactly the opcode bytes outside the map are reserved, SERCFG with `rsv` not zero is illegal, and FG's step
on an illegal command raises `IllegalCommand` and changes nothing else (`sched` and `turns` are the model's own). -/
def Obligations.IllegalCommandsFault : Prop :=
  (∀ (op : Byte) (rest : List Byte),
    decode (op :: rest) = .error .reservedOpcode ↔
      op.toNat ∉ [0x01, 0x02, 0x10, 0x11, 0x12, 0x13, 0x18, 0x19, 0x1A, 0x1B, 0x20, 0x21, 0x30, 0x31, 0x32, 0x33,
        0x40, 0x41, 0x50, 0x51]) ∧
  (∀ (lo hi : Byte) (rest : List Byte),
    decode (0x40#8 :: lo :: hi :: rest) = .error .reservedField ↔ (hi.toNat / 16) % 8 ≠ 0) ∧
  (∀ (s : State) (e : Illegal), s.moves .fg = true → decode s.fetch = .error e →
    step s = .next { s with fault := some .illegalCommand, sched := s.sched.tail, turns := s.turns + 1 })

/-- 30 R88: where the stream ends inside a command, FG's step raises `IllegalCommand` and changes nothing else. -/
def Obligations.TruncatedCommandsFault : Prop :=
  ∀ (s : State) (i : Instr) (n : Nat), i.wf = true → 0 < n → n < i.size →
    s.fetch = (encode i).take n → s.moves .fg = true →
    step s = .next { s with fault := some .illegalCommand, sched := s.sched.tail, turns := s.turns + 1 }

/-! ## The step of the foreground -/

/-- 30 R86: when the bytes at `cp` decode to a command and it is FG's step, the step is `exec` of that command, around
which only the turn is used up; and FG is enabled exactly when `fault = 0`, `asleep = 0` and it is not finished. -/
def Obligations.StepRunsDecodedCommand : Prop :=
  ∀ s : State,
    (∀ i, s.moves .fg = true → decode s.fetch = .ok i →
      step s = exec i { s with sched := s.sched.tail, turns := s.turns + 1 }) ∧
    (s.enabled .fg = true ↔ s.fault = none ∧ s.asleep = false ∧ ¬ (s.cmd.length ≤ s.cp ∧ s.ph = .zero)) ∧
    (s.moves .fg = true ↔ s.nextAgent = .fg ∧ s.enabled .fg = true)

/-- A table word placed at `cp` is the very next command that runs (30 R86; the placing is the model's, log 9). -/
def Obligations.PlacedWordRunsNext : Prop :=
  ∀ (s : State) (nbits w : Nat) (i : Instr), decodeTableWord nbits w = some i →
    step (s.withFetchWord nbits w) = exec i { s.withFetchWord nbits w with sched := s.sched, turns := s.turns + 1 }

/-- 00 R14: a step never refuses, and it has no next state exactly when no agent is enabled; that the two names of
that outcome tell a final state from a hang is the model's choice (log 3). -/
def Obligations.StepStopsOnlyWithoutEnabledAgent : Prop :=
  ∀ s : State,
    (∀ r, step s ≠ .refused r) ∧
    ((∃ f, step s = .fault f) ↔ ∀ a, s.enabled a = false) ∧
    (step s = .fault .finished → s.final = true) ∧
    (step s = .fault .stuck → s.final = false)

/-! ## Reset -/

/-- 70 R251, R252 and the values that 10 R44 gives, for every configuration and command stream; after reset no agent
but FG is enabled. -/
def Obligations.ResetLeaves : Prop :=
  ∀ (c : Config) (p : List Byte) (s : State), s = { State.reset with cfg := c, cmd := p } →
    (s.cp = 0 ∧ s.ph = .zero ∧ s.asleep = false ∧ s.fault = none ∧ s.iflag = false ∧ s.fetch = p) ∧
    (s.readIndex = 0#16 ∧ s.writeIndex = 0#16 ∧ s.empty = true ∧ s.udre = true ∧ s.txie = false ∧
      s.serCfgd = false ∧ s.line = []) ∧
    (s.tmrRun = false ∧ s.ocf = false ∧ s.ocie = false ∧ s.counter = 0#32) ∧
    ((∀ k, (s.slot k).written = false) ∧ s.res.written = false ∧ s.pin = false ∧ s.wantInterWordSpace = false) ∧
    (∀ a, a ≠ .fg → s.enabled a = false)

/-- The invariant holds at reset, for every configuration and command stream. -/
def Obligations.ResetMeetsInvariant : Prop :=
  ∀ (c : Config) (p : List Byte), ({ State.reset with cfg := c, cmd := p } : State).Inv

/-! ## System commands and the critical section -/

/-- 40 R101: SEI sets `I` and moves `cp`, and nothing else; a request that is pending may be taken right after. -/
def Obligations.SeiEnablesInterrupts : Prop :=
  (∀ rest, decode (0x01#8 :: rest) = .ok .sei) ∧
  ∀ s : State, ∃ t, exec .sei s = .next t ∧ t = { s with iflag := true, cp := s.cp + 1 } ∧
    (t.enabled .txisr = true ↔ s.txie = true ∧ s.udre = true) ∧
    (t.enabled .tmrisr = true ↔ s.ocie = true ∧ s.ocf = true)

/-- 40 R102: SLEEP sets `asleep`; FG is then not enabled, either handler's return wakes it at the next command, and
with `I = 0` no handler is enabled. -/
def Obligations.SleepHaltsForeground : Prop :=
  (∀ rest, decode (0x02#8 :: rest) = .ok .sleep) ∧
  ∀ s : State, ∃ t, exec .sleep s = .next t ∧ t = { s with asleep := true, cp := s.cp + 1 } ∧
    t.enabled .fg = false ∧
    ((txIsr t).asleep = false ∧ (txIsr t).cp = s.cp + 1 ∧ (tmrIsr t).asleep = false ∧ (tmrIsr t).cp = s.cp + 1) ∧
    (s.iflag = false → t.enabled .txisr = false ∧ t.enabled .tmrisr = false)

/-- 40 R103: CSENTER k saves `I` in `S[k]`, marks it written and clears `I`; no handler is enabled after it; the opcode
bytes `0x14` to `0x17` are illegal. -/
def Obligations.CsenterCapturesAndMasks : Prop :=
  (∀ (k : BitVec 2) (rest : List Byte), decode (BitVec.ofNat 8 (0x10 + k.toNat) :: rest) = .ok (.csenter k)) ∧
  (∀ (x : Nat) (rest : List Byte), 0x14 ≤ x → x ≤ 0x17 →
    decode (BitVec.ofNat 8 x :: rest) = .error .reservedOpcode) ∧
  ∀ (k : BitVec 2) (s : State), ∃ t, exec (.csenter k) s = .next t ∧
    t = { s with saves := t.saves, iflag := false, cp := s.cp + 1 } ∧
    t.slot k = ⟨s.iflag, true⟩ ∧ (∀ k', k' ≠ k → t.slot k' = s.slot k') ∧
    t.enabled .txisr = false ∧ t.enabled .tmrisr = false

/-- 40 R104: CSEXIT k restores `I` from a written slot and keeps the slot, so that twice is the same as once, and a
handler may run right after it exactly if the slot held 1 and its source requests; on a slot never written it raises
`SaveSlotUnwritten` and changes nothing else; the bytes `0x1C` to `0x1F` are illegal. -/
def Obligations.CsexitRestores : Prop :=
  (∀ (k : BitVec 2) (rest : List Byte), decode (BitVec.ofNat 8 (0x18 + k.toNat) :: rest) = .ok (.csexit k)) ∧
  (∀ (x : Nat) (rest : List Byte), 0x1C ≤ x → x ≤ 0x1F →
    decode (BitVec.ofNat 8 x :: rest) = .error .reservedOpcode) ∧
  ∀ (k : BitVec 2) (s : State),
    ((s.slot k).written = true → ∃ t, exec (.csexit k) s = .next t ∧
      t = { s with iflag := (s.slot k).value, cp := s.cp + 1 } ∧
      exec (.csexit k) t = .next { t with cp := t.cp + 1 } ∧
      (t.enabled .txisr = true ↔ (s.slot k).value = true ∧ s.txie = true ∧ s.udre = true) ∧
      (t.enabled .tmrisr = true ↔ (s.slot k).value = true ∧ s.ocie = true ∧ s.ocf = true)) ∧
    ((s.slot k).written = false → s.fault = none →
      exec (.csexit k) s = .next { s with fault := some .saveSlotUnwritten })

/-- 40 R105, R106: from a CSENTER k to a CSEXIT k, with any commands, handlers and device steps in between but another
CSENTER k, the exit leaves `I` as it was before the entry. -/
def Obligations.CriticalSectionRestoresInterrupts : Prop :=
  ∀ (k : BitVec 2) (n : Nat) (s t u v : State), s.executes (.csenter k) → step s = .next t →
    neverExecutes (.csenter k) n t → runSteps n t = .next u → u.executes (.csexit k) → step u = .next v →
    v.iflag = s.iflag

/-- 10 R32: a save slot changes only in FG's step on a CSENTER of that slot. -/
def Obligations.SaveSlotWriters : Prop :=
  ∀ (s t : State) (k : BitVec 2), step s = .next t → t.slot k ≠ s.slot k →
    s.executes (.csenter k) ∧ t.slot k = ⟨s.iflag, true⟩

/-- 10 R31: between steps `I` changes only by SEI (to 1), CSENTER (to 0) and CSEXIT (to the saved value): a handler
runs with `I = 1` before and after it. -/
def Obligations.EnableFlagWriters : Prop :=
  ∀ (s t : State), step s = .next t → t.iflag ≠ s.iflag →
    (s.executes .sei ∧ t.iflag = true) ∨
    (∃ k, s.executes (.csenter k) ∧ t.iflag = false) ∨
    (∃ k, s.executes (.csexit k) ∧ t.iflag = (s.slot k).value)

/-! ## Clock -/

/-- 41 R121, R122: CLKRST clears the counter and nothing else, so that a match that is pending still adds `TICK` after
it; CLKRD puts the counter in `RES`, marks it written and changes nothing else. -/
def Obligations.CounterCommands : Prop :=
  (∀ rest, decode (0x30#8 :: rest) = .ok .clkrst ∧ decode (0x31#8 :: rest) = .ok .clkrd) ∧
  ∀ s : State,
    (∃ t, exec .clkrst s = .next t ∧ t = { s with counter := 0#32, cp := s.cp + 1 } ∧
      t.tmrRequest = s.tmrRequest ∧ (tmrIsr t).counter = s.tick) ∧
    (∃ t, exec .clkrd s = .next t ∧ t = { s with res := ⟨s.counter, true⟩, cp := s.cp + 1 })

/-- 41 R123: the three micro-steps of WAITMS in timer mode, the read completing exactly when the counter is not below
the operand as an unsigned number. -/
def Obligations.WaitmsMicroSteps : Prop :=
  ∀ (n : Word) (s : State), s.cfg.clockMode = .timer →
    (s.ph = .zero → exec (.waitms n) s = .next { s with counter := 0#32, ph := .one }) ∧
    (s.ph = .one → n.toNat ≤ s.counter.toNat →
      exec (.waitms n) s = .next { s with ph := .zero, cp := s.cp + 5 }) ∧
    (s.ph = .one → s.counter.toNat < n.toNat → exec (.waitms n) s = .next { s with ph := .two }) ∧
    (s.ph = .two → exec (.waitms n) s = .next { s with asleep := true, ph := .one })

/-- 41 R124: WAITUS n in timer mode is WAITMS m for the number `m` of whole milliseconds not less than `n`
microseconds, which never overflows. -/
def Obligations.WaitusRoundsUp : Prop :=
  ∀ n : Word, ∃ m : Word,
    (n.toNat ≤ 1000 * m.toNat ∧ 1000 * m.toNat < n.toNat + 1000 ∧ m.toNat ≤ 4294968) ∧
    ∀ s : State, s.cfg.clockMode = .timer →
      exec (.waitus n) s = exec (.waitms m) s ∧
      (s.ph = .zero → exec (.waitus n) s = .next { s with counter := 0#32, ph := .one }) ∧
      (s.ph = .one → m.toNat ≤ s.counter.toNat →
        exec (.waitus n) s = .next { s with ph := .zero, cp := s.cp + 5 }) ∧
      (s.ph = .one → s.counter.toNat < m.toNat → exec (.waitus n) s = .next { s with ph := .two }) ∧
      (s.ph = .two → exec (.waitus n) s = .next { s with asleep := true, ph := .one })

/-- 41 R125: in busy mode each wait is one step that changes only `cp`. -/
def Obligations.BusyWaitOneStep : Prop :=
  ∀ (n : Word) (s : State), s.cfg.clockMode = .busy →
    exec (.waitms n) s = .next { s with cp := s.cp + 5 } ∧ exec (.waitus n) s = .next { s with cp := s.cp + 5 }

/-- 10 R30: the counter changes only by the write of 0 in CLKRST and in the first micro-step of a timer-mode wait, and
by the addition of `TICK` in TMRISR. -/
def Obligations.CounterWriters : Prop :=
  ∀ (s t : State), step s = .next t → t.counter ≠ s.counter →
    (s.moves .tmrisr = true ∧ t.counter = s.counter + s.tick) ∨
    (s.moves .fg = true ∧ t.counter = 0#32 ∧
      (s.executes .clkrst ∨ (s.cfg.clockMode = .timer ∧ s.ph = .zero ∧
        ∃ n, s.executes (.waitms n) ∨ s.executes (.waitus n))))

/-- 41 R129: no step of any agent ends a timer-mode wait early: the only exit of WAITMS and WAITUS is the read
micro-step that finds the counter at or above the operand in milliseconds; and no step of a wait raises a fault. -/
def Obligations.WaitEndsOnlyAtRead : Prop :=
  ∀ (s t : State) (n : Word) (ms : Nat), s.cfg.clockMode = .timer →
    (decode s.fetch = .ok (.waitms n) ∧ ms = n.toNat) ∨
      (decode s.fetch = .ok (.waitus n) ∧ ms = (n.toNat + 999) / 1000) →
    step s = .next t →
    t.fault = s.fault ∧
    (t.cp ≠ s.cp → s.moves .fg = true ∧ s.ph = .one ∧ ms ≤ s.counter.toNat ∧ t.cp = s.cp + 5 ∧ t.ph = .zero)

/-- 41 R127: from just after its reset micro-step, a WAITMS that ends after `j` further steps has seen the counter rise
by `TICK` for each run of TMRISR and by nothing else, and at least `n / TICK` runs of it, rounded up. -/
def Obligations.WaitSeesEnoughTicks : Prop :=
  ∀ (n : Word) (j : Nat) (s u v : State), s.cfg.clockMode = .timer → decode s.fetch = .ok (.waitms n) →
    s.ph = .one → s.counter = 0#32 → runSteps j s = .next u → u.cp = s.cp → step u = .next v → v.cp ≠ u.cp →
    u.counter = s.tick * BitVec.ofNat 32 (tickRuns j s) ∧ n.toNat ≤ s.tick.toNat * tickRuns j s

/-! ## The ring-buffer transmitter -/

/-- 42 R140, R143: PUSH in full, for every data and state with a canonical ring. The count is `min(L, free)`; byte `j`
goes to the slot that `write_index + j` selects and every other slot keeps its byte; on an empty to non-empty
transition `TXIE` is 1 and, if `UDRE` was 1, the first byte is handed off; nothing else changes. -/
def Obligations.PushStoresWhatFits : Prop :=
  ∀ (d : List Byte) (s : State) (k : Nat), s.ringWf → k = min d.length s.free →
    ∃ t, exec (.push d) s = .next t ∧
      t = { s with
        buf := t.buf
        writeIndex := s.writeIndex + BitVec.ofNat 16 k
        readIndex := if s.empty = true ∧ 0 < k ∧ s.udre = true then s.readIndex + 1#16 else s.readIndex
        udr := if s.empty = true ∧ 0 < k ∧ s.udre = true then d.headD s.udr else s.udr
        udre := if s.empty = true ∧ 0 < k then false else s.udre
        txie := if s.empty = true ∧ 0 < k then true else s.txie
        res := ⟨BitVec.ofNat 32 k, true⟩
        cp := s.cp + 2 + d.length } ∧
      (∀ j, j < k → t.buf.read (s.slotOf (s.writeIndex + BitVec.ofNat 16 j)) = d.getD j 0#8) ∧
      (∀ a, (∀ j, j < k → a ≠ s.slotOf (s.writeIndex + BitVec.ofNat 16 j)) → t.buf.read a = s.buf.read a)

/-- 42 R146, R147: the occupancy after a PUSH is `occupancy + k`, less one for a hand-off, and an empty ring takes
`N - 1` bytes of any longer data, at any value of the indices. -/
def Obligations.PushCountLaws : Prop :=
  ∀ (d : List Byte) (s : State), ∃ (t : State) (k : Nat), exec (.push d) s = .next t ∧
    k = min d.length s.free ∧ k ≤ s.slots - 1 ∧
    t.res = ⟨BitVec.ofNat 32 k, true⟩ ∧
    t.occupancy + (if s.empty = true ∧ 0 < k ∧ s.udre = true then 1 else 0) = s.occupancy + k ∧
    (k = 0 ↔ d = [] ∨ s.full = true) ∧
    (s.empty = true → s.slots - 1 ≤ d.length → k = s.slots - 1)

/-- 42 R144: the micro-steps of SENDALL. An attempt is a PUSH of the unsent remainder, up to `RES`, `cp`, `sent` and
`ph`; it completes when all of the data is accepted, and else goes to the sleep. -/
def Obligations.SendallMicroSteps : Prop :=
  ∀ (d : List Byte) (s : State), d.length ≤ 255 →
    (s.ph = .zero → d = [] →
      exec (.sendall d) s = .next { s with sent := 0#8, res := ⟨0#32, true⟩, cp := s.cp + 2 }) ∧
    (s.ph = .two → exec (.sendall d) s = .next { s with asleep := true, ph := .one }) ∧
    (∀ (before k : Nat), (s.ph = .zero ∧ d ≠ [] ∧ before = 0) ∨ (s.ph = .one ∧ before = s.sent.toNat) →
      before ≤ d.length → k = min (d.length - before) s.free →
      ∃ u, exec (.push (d.drop before)) s = .next u ∧
        exec (.sendall d) s = .next (
          if before + k = d.length then
            { u with sent := BitVec.ofNat 8 d.length, res := ⟨BitVec.ofNat 32 d.length, true⟩, ph := .zero
                     cp := s.cp + 2 + d.length }
          else { u with sent := BitVec.ofNat 8 (before + k), res := s.res, ph := .two, cp := s.cp }))

/-- 42 R142, 10 R25: `TXIE` rises exactly in a step that accepts at least one byte into an empty ring while it is 0, and
falls exactly in a run of TXISR that finds the ring empty. -/
def Obligations.ArmingAndDisarming : Prop :=
  ∀ (s t : State), step s = .next t →
    (s.txie = false → (t.txie = true ↔ s.empty = true ∧ s.accepts ≠ [])) ∧
    (s.txie = true → (t.txie = false ↔ s.moves .txisr = true ∧ s.empty = true))

/-- 10 R22: the indices only ever advance: `write_index` by the number of bytes accepted, `read_index` by one in a pop
and else not at all. -/
def Obligations.IndicesOnlyAdvance : Prop :=
  ∀ (s t : State), step s = .next t →
    t.writeIndex = s.writeIndex + BitVec.ofNat 16 s.accepts.length ∧
    (t.readIndex = s.readIndex ∨
      (t.readIndex = s.readIndex + 1#16 ∧ s.udre = true ∧ t.udre = false ∧
        ((s.moves .txisr = true ∧ s.empty = false) ∨
          (s.moves .fg = true ∧ s.empty = true ∧ s.accepts ≠ []))))

/-- 20 R64: the block observes an index only modulo `N`: adding multiples of `N` to the two indices changes no
predicate, no queue, and nothing that push_bytes does but the indices. -/
def Obligations.IndexWidthUnobservable : Prop :=
  ∀ (s t : State) (m l : Nat) (d : List Byte),
    t = { s with
      readIndex := s.readIndex + BitVec.ofNat 16 (m * s.slots)
      writeIndex := s.writeIndex + BitVec.ofNat 16 (l * s.slots) } →
    t.empty = s.empty ∧ t.full = s.full ∧ t.occupancy = s.occupancy ∧ t.free = s.free ∧ t.queue = s.queue ∧
    (State.pushBytes d t).1 = (State.pushBytes d s).1 ∧
    (State.pushBytes d t).2 =
      { (State.pushBytes d s).2 with
        readIndex := (State.pushBytes d s).2.readIndex + BitVec.ofNat 16 (m * s.slots)
        writeIndex := (State.pushBytes d s).2.writeIndex + BitVec.ofNat 16 (l * s.slots) }

/-- 20 R73: in every step, by whichever agent, the stream from the line through the register and the ring grows at its
end by exactly the bytes accepted: no byte is duplicated, dropped or reordered. -/
def Obligations.FifoEveryStep : Prop :=
  ∀ (s t : State), s.ringWf → step s = .next t → t.stream = s.stream ++ s.accepts

/-- 20 R73 along a whole run from reset, for every configuration, program and order of the agents: the bytes accepted
are `line`, then the byte in the register, then the ring. -/
def Obligations.FifoFromReset : Prop :=
  ∀ (n : Nat) (c : Config) (p : List Byte) (order : List Agent) (pol : Policy) (s t : State),
    s = { State.reset with cfg := c, cmd := p, sched := order, policy := pol } → runSteps n s = .next t →
    acceptedIn n s = t.line ++ t.inRegister ++ t.queue

/-- 10 R41: a step that starts with `UDRE = 0` does not write `UDR`, and a step that changes `UDR` leaves `UDRE = 0`. -/
def Obligations.RegisterNeverOverwritten : Prop :=
  ∀ (s t : State), step s = .next t →
    (s.udre = false → t.udr = s.udr) ∧ (t.udr ≠ s.udr → s.udre = true ∧ t.udre = false)

/-! ## Device configuration -/

/-- 43 R160: the encoding of SERCFG, illegal where `cfg[14:12]` is not 0, its operands stored unchanged the first time,
and `BootConflict` with nothing else changed the second time. -/
def Obligations.SercfgStoresOperands : Prop :=
  (∀ (ubrr : BitVec 12) (u2x : Bool) (rest : List Byte) (cfg : Nat), cfg = ubrr.toNat + (if u2x then 32768 else 0) →
    decode (0x40#8 :: BitVec.ofNat 8 cfg :: BitVec.ofNat 8 (cfg / 256) :: rest) = .ok (.sercfg ubrr u2x)) ∧
  (∀ (lo hi : Byte) (rest : List Byte), (hi.toNat / 16) % 8 ≠ 0 →
    decode (0x40#8 :: lo :: hi :: rest) = .error .reservedField) ∧
  (∀ (ubrr : BitVec 12) (u2x : Bool) (s : State),
    (s.serCfgd = false →
      exec (.sercfg ubrr u2x) s = .next { s with ubrr := ubrr, u2x := u2x, serCfgd := true, cp := s.cp + 3 }) ∧
    (s.serCfgd = true → s.fault = none →
      exec (.sercfg ubrr u2x) s = .next { s with fault := some .bootConflict }))

/-- 43 R167: the encoding of TMRCFG; the second time it raises `BootConflict`; the first time it completes exactly when
the tick amount is an integer of `1 .. 2^32 - 1`, and else raises `ConfigRange`. -/
def Obligations.TmrcfgStartsTimer : Prop :=
  (∀ (presc ocr : Half) (rest : List Byte),
    decode (0x41#8 :: BitVec.ofNat 8 presc.toNat :: BitVec.ofNat 8 (presc.toNat / 256) :: BitVec.ofNat 8 ocr.toNat ::
      BitVec.ofNat 8 (ocr.toNat / 256) :: rest) = .ok (.tmrcfg presc ocr)) ∧
  ∀ (presc ocr : Half) (s : State),
    (s.tmrRun = true → s.fault = none → exec (.tmrcfg presc ocr) s = .next { s with fault := some .bootConflict }) ∧
    (s.tmrRun = false → ∀ t : Nat, Config.tickAmount s.cfg presc ocr = (t : Rat) → 1 ≤ t → t < 2 ^ 32 →
      exec (.tmrcfg presc ocr) s =
        .next { s with presc := presc, ocr := ocr, tick := BitVec.ofNat 32 t, ocie := true, tmrRun := true
                       cp := s.cp + 5 }) ∧
    (s.tmrRun = false → s.fault = none →
      (∀ t : Nat, Config.tickAmount s.cfg presc ocr = (t : Rat) → ¬ (1 ≤ t ∧ t < 2 ^ 32)) →
      exec (.tmrcfg presc ocr) s = .next { s with fault := some .configRange })

/-- 43 R168: under the default `tick_of`, a tick amount `t` is accepted exactly when
`t * C = presc * (ocr + 1) * 1000`. -/
def Obligations.DefaultTickFormula : Prop :=
  ∀ (presc ocr : Half) (c : Nat) (t : Word), 0 < c →
    (acceptedTick (periodTick presc ocr c) = some t ↔
      t ≠ 0#32 ∧ t.toNat * c = presc.toNat * (ocr.toNat + 1) * 1000)

/-- 43 R169, 10 R26, R28: what SERCFG and TMRCFG have written, no run changes again. -/
def Obligations.ConfigurationOnlyOnce : Prop :=
  ∀ (n : Nat) (s t : State), runSteps n s = .next t →
    (s.serCfgd = true → t.serCfgd = true ∧ t.ubrr = s.ubrr ∧ t.u2x = s.u2x) ∧
    (s.tmrRun = true → t.tmrRun = true ∧ t.presc = s.presc ∧ t.ocr = s.ocr ∧ t.tick = s.tick ∧ t.ocie = s.ocie)

/-- 43 R163, R164: `exact_round` is the document's formula over the rationals, rounded half up, and equals its closed
form; the truncating reading is `((C div d) div B - 1) div 2`, defined on the same inputs, and gives the same divisor or
one less. -/
def Obligations.BaudRoundingReadings : Prop :=
  ∀ c d b : Nat, 0 < d →
    (0 < b → d * b ≤ c →
      ∃ u v, divRound .exactRound c d b = some u ∧ divRound .trunc c d b = some v ∧
        (u : ℤ) = ⌊((c : ℚ) / (d * b) - 1) / 2 + 1 / 2⌋ ∧ (u : ℤ) = ⌊(c : ℚ) / (2 * d * b)⌋ ∧
        v = (c / d / b - 1) / 2 ∧ v ≤ u ∧ u ≤ v + 1) ∧
    (b = 0 ∨ c < d * b → divRound .exactRound c d b = none ∧ divRound .trunc c d b = none)

/-- 43 R162, R165: `baud_cfg` answers the first branch with the flag 1 when its divisor fits 12 bits, the second with
the flag 0 when only that one fits, and refuses exactly otherwise: for `B = 0`, for a value below zero, and where both
branches exceed 12 bits. `BAUD` is then an assembly-time error, and else the SERCFG of the answer. -/
def Obligations.BaudBranches : Prop :=
  ∀ (a : BaudArith) (c b : Nat) (r : BitVec 12),
    (baudCfg a c b = some (r, true) ↔ divRound a c 4 b = some r.toNat) ∧
    (baudCfg a c b = some (r, false) ↔
      (∃ u, divRound a c 4 b = some u ∧ 4095 < u) ∧ divRound a c 8 b = some r.toNat) ∧
    (baudCfg a c b = none ↔
      b = 0 ∨ c < 4 * b ∨
        ∃ u v, divRound a c 4 b = some u ∧ 4095 < u ∧ divRound a c 8 b = some v ∧ 4095 < v) ∧
    (∀ (p : ClientParams) (want : Bool), p.baudArith = a →
      (expandLine p want (.baud c b) = none ↔ baudCfg a c b = none) ∧
      ∀ x : Bool, baudCfg a c b = some (r, x) → expandLine p want (.baud c b) = some ([.sercfg r x], want))

/-! ## The pin -/

/-- 44 R180 to R182: PINLO and PINHI drive the pin; where `PIN_FALLIBLE` holds, a free draw may make the write fail with
`PinIo`, the pin unchanged. The statement holds for every value of the draw (log 7). -/
def Obligations.PinCommands : Prop :=
  (∀ rest, decode (0x50#8 :: rest) = .ok .pinlo ∧ decode (0x51#8 :: rest) = .ok .pinhi) ∧
  ∀ s : State,
    (s.cfg.pinFallible = false →
      exec .pinlo s = .next { s with pin := false, cp := s.cp + 1 } ∧
      exec .pinhi s = .next { s with pin := true, cp := s.cp + 1 }) ∧
    (s.cfg.pinFallible = true → s.fault = none →
      exec .pinlo s = .next (
        if Config.pinFails s.draws = true then { s with fault := some .pinIo, draws := s.draws + 1 }
        else { s with pin := false, cp := s.cp + 1, draws := s.draws + 1 }) ∧
      exec .pinhi s = .next (
        if Config.pinFails s.draws = true then { s with fault := some .pinIo, draws := s.draws + 1 }
        else { s with pin := true, cp := s.cp + 1, draws := s.draws + 1 }))

/-! ## Interrupts and devices -/

/-- 60 R211 to R213: the two requests are levels of their bits, and a handler is enabled exactly when `I = 1` and its
source requests, whether FG is asleep, finished, faulted or running. -/
def Obligations.HandlersEnabled : Prop :=
  ∀ s : State,
    (s.enabled .txisr = true ↔ s.iflag = true ∧ s.txie = true ∧ s.udre = true) ∧
    (s.enabled .tmrisr = true ↔ s.iflag = true ∧ s.ocie = true ∧ s.ocf = true)

/-- 60 R217: the step of TXISR in full. An empty ring is disarmed; else the oldest byte goes to `UDR`, `UDRE` falls and
`read_index` advances, one byte at most; `I` is 1 and FG awake after it. -/
def Obligations.DrainHandlerStep : Prop :=
  ∀ s : State, s.moves .txisr = true →
    (s.empty = true →
      step s = .next { s with txie := false, iflag := true, asleep := false
                              sched := s.sched.tail, turns := s.turns + 1 }) ∧
    (s.empty = false → ∃ t, step s = .next t ∧
      t = { s with udr := t.udr, udre := false, readIndex := s.readIndex + 1#16, iflag := true, asleep := false
                   sched := s.sched.tail, turns := s.turns + 1 } ∧
      s.queue = t.udr :: t.queue)

/-- 60 R218: the step of TMRISR in full; the addition wraps at `2^32`. -/
def Obligations.TickHandlerStep : Prop :=
  ∀ s : State, s.moves .tmrisr = true → ∃ t, step s = .next t ∧
    t = { s with counter := t.counter, ocf := false, iflag := true, asleep := false
                 sched := s.sched.tail, turns := s.turns + 1 } ∧
    t.counter.toNat = (s.counter.toNat + s.tick.toNat) % 2 ^ 32

/-- 60 R220: SERDEV is enabled exactly when it is configured and a byte is in `UDR`, whatever `I` is; its step puts the
byte on the line and raises `UDRE`. -/
def Obligations.SerialDeviceStep : Prop :=
  ∀ s : State,
    (s.enabled .serdev = true ↔ s.serCfgd = true ∧ s.udre = false) ∧
    (s.moves .serdev = true →
      step s = .next { s with line := s.line ++ [s.udr], udre := true
                              sched := s.sched.tail, turns := s.turns + 1 })

/-- 60 R221, 10 R29: TMRDEV is enabled exactly when the timer runs; its step sets `OCF`, and a match while one is
pending is lost. -/
def Obligations.TimerDeviceStep : Prop :=
  ∀ s : State,
    (s.enabled .tmrdev = true ↔ s.tmrRun = true) ∧
    (s.moves .tmrdev = true →
      step s = .next { s with ocf := true, sched := s.sched.tail, turns := s.turns + 1 }) ∧
    (s.moves .tmrdev = true → s.ocf = true →
      step s = .next { s with sched := s.sched.tail, turns := s.turns + 1 })

/-- 60 R214: where both handlers are enabled, the two orders of running them reach the same state. -/
def Obligations.HandlerOrderIrrelevant : Prop :=
  ∀ (s : State) (rest : List Agent), s.enabled .txisr = true → s.enabled .tmrisr = true →
    ∃ t, runSteps 2 { s with sched := .txisr :: .tmrisr :: rest } = .next t ∧
      runSteps 2 { s with sched := .tmrisr :: .txisr :: rest } = .next t ∧ t.sched = rest

/-- 10 R42: which agent writes what: each step of a handler or a device leaves everything else as it was, and FG never
writes `line` or `OCF`, never sets `UDRE` or clears `TXIE`, writes only 0 to the counter, and writes `read_index` and
`UDR` only in a hand-off. -/
def Obligations.OwnershipOfState : Prop :=
  ∀ (s t : State), step s = .next t →
    (s.moves .txisr = true →
      t = { s with readIndex := t.readIndex, udr := t.udr, udre := t.udre, txie := t.txie, iflag := t.iflag
                   asleep := t.asleep, sched := t.sched, turns := t.turns }) ∧
    (s.moves .tmrisr = true →
      t = { s with counter := t.counter, ocf := t.ocf, iflag := t.iflag, asleep := t.asleep
                   sched := t.sched, turns := t.turns }) ∧
    (s.moves .serdev = true →
      t = { s with line := t.line, udre := t.udre, sched := t.sched, turns := t.turns }) ∧
    (s.moves .tmrdev = true → t = { s with ocf := t.ocf, sched := t.sched, turns := t.turns }) ∧
    (s.moves .fg = true →
      t.line = s.line ∧ t.ocf = s.ocf ∧ (s.udre = false → t.udre = false) ∧ (s.txie = true → t.txie = true) ∧
      (t.counter = s.counter ∨ t.counter = 0#32) ∧
      (t.readIndex ≠ s.readIndex ∨ t.udr ≠ s.udr → s.empty = true ∧ s.udre = true ∧ s.accepts ≠ []))

/-- 20 R72, 10 R43, 00 R6: no step of any agent writes the command stream or a parameter, and no step of the block
touches the client's bit (10 R39). -/
def Obligations.CommandStreamImmutable : Prop :=
  ∀ (s t : State), step s = .next t →
    t.cmd = s.cmd ∧ t.cfg = s.cfg ∧ t.wantInterWordSpace = s.wantInterWordSpace ∧ t.policy = s.policy

/-- 10 R33: `RES` changes only in FG's step on a PUSH, a SENDALL or a CLKRD. -/
def Obligations.ResultRegisterWriters : Prop :=
  ∀ (s t : State), step s = .next t → t.res ≠ s.res →
    t.res.written = true ∧
    ((∃ d, s.executes (.push d)) ∨ (∃ d, s.executes (.sendall d)) ∨ (s.executes .clkrd ∧ t.res.value = s.counter))

/-! ## Sleep -/

/-- 10 R36, 60 R219, R227: while the core is asleep no step moves FG's state, and it wakes exactly in a step of one of
the two handlers. -/
def Obligations.OnlyHandlersWake : Prop :=
  ∀ (s t : State), s.asleep = true → step s = .next t →
    t.cp = s.cp ∧ t.ph = s.ph ∧ t.sent = s.sent ∧ t.res = s.res ∧ t.saves = s.saves ∧ t.pin = s.pin ∧
    t.fault = s.fault ∧ t.writeIndex = s.writeIndex ∧ t.buf = s.buf ∧
    (t.asleep = false ↔ s.moves .txisr = true ∨ s.moves .tmrisr = true)

/-- 70 R260: a core asleep with `I = 0` never wakes in any run, in any order of the agents; the queue is not drained and
the run is never final. -/
def Obligations.MaskedSleepHangs : Prop :=
  ∀ (n : Nat) (s t : State), s.asleep = true → s.iflag = false → runSteps n s = .next t →
    t.asleep = true ∧ t.iflag = false ∧ t.cp = s.cp ∧ t.ph = s.ph ∧ t.fault = s.fault ∧ t.counter = s.counter ∧
    t.queue = s.queue ∧ t.final = false

/-! ## Faults -/

/-- 60 R230, R234: a step that changes `fault` is FG's, starts with no fault, and changes nothing else of the block
(`draws`, `sched` and `turns` are the model's own): the command at `cp` has had no effect. -/
def Obligations.FaultsArePrecise : Prop :=
  ∀ (s t : State), step s = .next t → t.fault ≠ s.fault →
    s.moves .fg = true ∧ s.fault = none ∧
    ∃ c, t = { s with fault := some c, draws := t.draws, sched := s.sched.tail, turns := s.turns + 1 }

/-- 60 R230, 10 R37: after a fault FG takes no further step in any run, the code stays, and no state is final. -/
def Obligations.FaultedForegroundStops : Prop :=
  ∀ (n : Nat) (s t : State) (c : FaultCode), s.fault = some c → runSteps n s = .next t →
    t.fault = some c ∧ t.cp = s.cp ∧ t.ph = s.ph ∧ t.sent = s.sent ∧ t.res = s.res ∧ t.saves = s.saves ∧
    t.pin = s.pin ∧ t.writeIndex = s.writeIndex ∧ t.buf = s.buf ∧ t.ubrr = s.ubrr ∧ t.presc = s.presc ∧
    t.final = false

/-- 60 R234: in a state of the invariant, a composite command does not fault after its first micro-step. -/
def Obligations.NoFaultInsideCommand : Prop :=
  ∀ (s t : State), s.Inv → s.ph ≠ .zero → step s = .next t → t.fault = none

/-! ## Invariant and final state -/

/-- Every step of every agent keeps the invariant: the ring storage canonical and within its slots (20 R60), a
non-empty ring armed (10 R40), the timer's bits consistent (10 R28, R29), the sequencer at a command (10 R34, R35). -/
def Obligations.StepKeepsInvariant : Prop :=
  ∀ (s t : State), s.Inv → step s = .next t → t.Inv

/-- 70 R259: in a final state every accepted byte is on the line, no agent but TMRDEV and TMRISR can step, and every
step leads to a final state with the same line and pin. -/
def Obligations.FinalStateIsDrained : Prop :=
  ∀ s : State, s.final = true →
    s.stream = s.line ∧ (∀ a, s.enabled a = true → a = .tmrdev ∨ a = .tmrisr) ∧
    (∀ t, step s = .next t → t.final = true ∧ t.line = s.line ∧ t.pin = s.pin ∧ t.res = s.res)

/-! ## The client -/

/-- 44 R187, R198: a sequence of at most eight signals has a record whose tokens are that sequence, least-significant
bit first, and a longer one has none; the record of a record's own tokens has the same tokens. -/
def Obligations.MorsePatternRoundTrip : Prop :=
  (∀ sigs : List Signal,
    (sigs.length ≤ 8 → ∃ m, ofSignals sigs = some m ∧ signals m = sigs ∧ m.count.val = sigs.length) ∧
    (8 < sigs.length → ofSignals sigs = none)) ∧
  (∀ m : MorseChar, ∃ m', ofSignals (signals m) = some m' ∧ m'.count = m.count ∧ signals m' = signals m)

/-- 44 R191, R193: a text that ends in a character with signals leaves no pending word gap, and after its last PINLO
there is no delay: nothing at all without narration, and with it no command but the diagnostic writer's. That the
emission goes on past a marker longer than `STAGE_CAP` is the model's choice (log 11); R194 leaves it open. -/
def Obligations.EmitHasNoTrailingGap : Prop :=
  ∀ (p : ClientParams) (want : Bool) (text : List Byte) (c : Byte), isWordSpace (lookup p.table (foldCase c)) = false →
    (emitString p want (text ++ [c])).2 = false ∧
    (emitString p.silenced want (text ++ [c])).1.getLast? = some .pinlo ∧
    ∃ before after, (emitString p want (text ++ [c])).1 = before ++ .pinlo :: after ∧
      ∀ i ∈ after, ∃ d, i = .sendall d ∨ i = .push d

/-- 44 R188 to R191, R193, R196.
Without narration emit_code issues nothing for a word space and sets the client's bit; for a character it issues exactly
one gap, of seven dits if the bit was set and of three if not, and then the signals in order, each PINHI, a wait of one
dit for a dot or three for a dash, PINLO, with one wait of a dit between two signals and nothing after the last.
A text issues its characters' commands in order, so any number of word spaces gives one gap before the next character.
With narration the commands are the same ones, with commands of the diagnostic writer interleaved; that a marker longer
than `STAGE_CAP` leaves them and the bit as they are is the model's choice (log 11), R194 leaves it open. -/
def Obligations.EmitSpacesCollapse : Prop :=
  (∀ (p : ClientParams) (want : Bool) (code : MorseChar) (dit : Nat), dit = 60000 / (50 * p.wpm) →
    (isWordSpace code = true → emitCode p (fun _ => []) want code = ([], true)) ∧
    (isWordSpace code = false → emitCode p (fun _ => []) want code =
      (.waitms (BitVec.ofNat 32 (if want then 7 * dit else 3 * dit)) ::
        List.intercalate [.waitms (BitVec.ofNat 32 dit)] ((signals code).map fun sig =>
          [.pinhi, .waitms (BitVec.ofNat 32 (if sig = .dash then 3 * dit else dit)), .pinlo]), false))) ∧
  (∀ (p : ClientParams) (want : Bool) (c : Byte) (text : List Byte) (now later : List Instr) (mid last : Bool),
    emitCode p (fun _ => []) want (lookup p.table (foldCase c)) = (now, mid) →
    emitString p.silenced mid text = (later, last) →
    emitString p.silenced want (c :: text) = (now ++ later, last)) ∧
  (∀ (p : ClientParams) (want : Bool), emitString p.silenced want [] = ([], want)) ∧
  (∀ (p : ClientParams) (want : Bool) (spaces : List Byte) (c : Byte) (text : List Byte),
    spaces ≠ [] → (∀ x ∈ spaces, isWordSpace (lookup p.table (foldCase x)) = true) →
    isWordSpace (lookup p.table (foldCase c)) = false →
    emitString p.silenced want spaces = ([], true) ∧
    emitString p.silenced want (spaces ++ c :: text) = emitString p.silenced true (c :: text) ∧
    ∃ rest, (emitString p.silenced true (c :: text)).1 =
      .waitms (BitVec.ofNat 32 (7 * (60000 / (50 * p.wpm)))) :: .pinhi :: rest) ∧
  (∀ (p : ClientParams) (want : Bool) (text : List Byte),
    (emitString p want text).1.filter (fun i => !isDiagnostic i) = (emitString p.silenced want text).1 ∧
    (emitString p want text).2 = (emitString p.silenced want text).2)
end

