-- ==== Sys2Proof/Laws/Client.lean ====
section
/-! SUPPORT. What the diagnostic writer and a narrating emitter can issue, and the table's construction. -/

namespace Sys2Proof.Laws

open Sys2Proof.Machine

/-! ## The diagnostic writer -/

/-- The diagnostic writer issues nothing for a message that is too long, and otherwise one command that holds it. -/
theorem diagCommands_spec (p : ClientParams) (text : List Byte) :
    (p.stageCap < text.length ∧ diagCommands p text = none) ∨
    (text.length ≤ p.stageCap ∧ p.diagMode = .sendall ∧ diagCommands p text = some [.sendall text]) ∨
    (text.length ≤ p.stageCap ∧ p.diagMode = .pushDrop ∧ diagCommands p text = some [.push text]) := by
  unfold diagCommands
  split
  case isTrue h => cases hm : p.diagMode <;> simp [h]
  case isFalse h => exact .inl ⟨Nat.lt_of_not_le h, rfl⟩

/-- Narration issues commands of the diagnostic writer alone. -/
theorem narrate_spec (p : ClientParams) (messages : List (List Byte)) :
    ∀ i ∈ narrate p messages, ∃ d, i = .sendall d ∨ i = .push d := by
  intro i hi
  obtain ⟨m, -, him⟩ := List.mem_flatMap.mp hi
  obtain ⟨-, h⟩ | ⟨-, -, h⟩ | ⟨-, -, h⟩ := diagCommands_spec p m
  · simp [h] at him
  · exact ⟨m, .inl (by simpa [h] using him)⟩
  · exact ⟨m, .inr (by simpa [h] using him)⟩

@[simp] theorem narrate_nil (p : ClientParams) : narrate p [] = [] := rfl

@[simp] theorem narrate_filter (p : ClientParams) (messages : List (List Byte)) :
    (narrate p messages).filter (fun i => !isDiagnostic i) = [] := by
  refine List.filter_eq_nil_iff.mpr fun i hi => ?_
  obtain ⟨d, rfl | rfl⟩ := narrate_spec p messages i hi <;> simp [isDiagnostic]

/-! ## The emitter's commands are none of the diagnostic writer's -/

@[simp] theorem isDiagnostic_waitCommand (ms : Nat) : isDiagnostic (waitCommand ms) = false := rfl
@[simp] theorem isDiagnostic_pinhi : isDiagnostic .pinhi = false := rfl
@[simp] theorem isDiagnostic_pinlo : isDiagnostic .pinlo = false := rfl

/-! ## The client's parameters -/

@[simp] theorem silenced_baud (p : ClientParams) : p.silenced.baud = p.baud := rfl
@[simp] theorem silenced_baudArith (p : ClientParams) : p.silenced.baudArith = p.baudArith := rfl
@[simp] theorem silenced_wpm (p : ClientParams) : p.silenced.wpm = p.wpm := rfl
@[simp] theorem silenced_table (p : ClientParams) : p.silenced.table = p.table := rfl
@[simp] theorem silenced_stageCap (p : ClientParams) : p.silenced.stageCap = p.stageCap := rfl
@[simp] theorem silenced_diagMode (p : ClientParams) : p.silenced.diagMode = p.diagMode := rfl
@[simp] theorem silenced_narration (p : ClientParams) (text : List Byte) (j : Nat) (at' : Point) :
    p.silenced.narration text j at' = [] := rfl

/-! ## The emitter -/

/-- The commands of one character depend on the client's narration only through the markers they are given. -/
@[simp] theorem emitSignals_silenced (p : ClientParams) (notes : CharNarration) (i : Nat) (sigs : List Signal) :
    emitSignals p.silenced notes i sigs = emitSignals p notes i sigs := by
  induction sigs generalizing i with
  | nil => rfl
  | cons sig rest ih => simp only [emitSignals, ih]; rfl

@[simp] theorem emitCode_silenced (p : ClientParams) (notes : CharNarration) (want : Bool) (code : MorseChar) :
    emitCode p.silenced notes want code = emitCode p notes want code := by
  simp only [emitCode, emitSignals_silenced]; rfl

/-- A text emitted in two parts: the second starts with the flag that the first leaves, and its markers go on. -/
theorem emitChars_append (p : ClientParams) (notes : TextNarration) (want : Bool) (a b : List Byte) :
    emitChars p notes want (a ++ b) =
      ((emitChars p notes want a).1 ++ (emitChars p (fun j => notes (j + a.length)) (emitChars p notes want a).2 b).1,
        (emitChars p (fun j => notes (j + a.length)) (emitChars p notes want a).2 b).2) := by
  induction a generalizing notes want with
  | nil => rfl
  | cons c a ih =>
    simp only [List.cons_append, emitChars, ih, List.append_assoc, List.length_cons, Nat.add_comm a.length 1,
      Nat.add_assoc]

/-! ## The table -/

/-- A table that a build accepts is legal. -/
theorem buildTable_legal {source : List (Char × List Char)} {t : MorseTable} (h : buildTable source = some t) :
    t.legal = true := by
  obtain ⟨u, -, hu⟩ := Option.bind_eq_some_iff.mp h
  split at hu
  · cases hu; assumption
  · cases hu

end Sys2Proof.Laws
end

