-- ==== Sys2Proof/Laws/Memory.lean ====
section
/-! SUPPORT. The laws of the ring storage: a read after a write, and the canonical form kept by every operation. -/

namespace Sys2Proof.Machine

@[simp] theorem Memory.read_nil (a : Nat) : Memory.read [] a = Memory.unlisted := rfl

theorem Memory.read_cons (k : Nat) (c : Byte) (m : Memory) (a : Nat) :
    Memory.read ((k, c) :: m) a = if k = a then c else m.read a := rfl

/-- A slot below every listed address reads as an unlisted one. -/
theorem Memory.read_of_forall_lt {m : Memory} {a : Nat} (h : ∀ c ∈ m, a < c.1) :
    m.read a = Memory.unlisted := by
  induction m with
  | nil => rfl
  | cons c m ih =>
    obtain ⟨k, v⟩ := c
    have hk : a < k := h (k, v) (by simp)
    rw [Memory.read_cons, if_neg (by omega)]
    exact ih fun c hc => h c (by simp [hc])

/-- Reading where `Memory.cons` put its byte. -/
theorem Memory.read_cons_self {a : Nat} {m : Memory} (b : Byte) (h : ∀ c ∈ m, a < c.1) :
    (Memory.cons a b m).read a = b := by
  unfold Memory.cons
  split
  · next hb => rw [hb]; exact Memory.read_of_forall_lt h
  · simp [Memory.read_cons]

/-- Reading elsewhere than `Memory.cons` put its byte. -/
theorem Memory.read_cons_of_ne {a a' : Nat} (m : Memory) (b : Byte) (h : a' ≠ a) :
    (Memory.cons a b m).read a' = m.read a' := by
  unfold Memory.cons
  split
  · rfl
  · rw [Memory.read_cons, if_neg (Ne.symm h)]

/-- A read after a write to the same slot gives the byte written. -/
theorem Memory.read_write_self {n : Nat} {m : Memory} (h : Memory.wf n m) (a : Nat) (b : Byte) :
    (m.write a b).read a = b := by
  induction m with
  | nil => exact Memory.read_cons_self b (by simp)
  | cons c m ih =>
    obtain ⟨k, v⟩ := c
    obtain ⟨hs, hv⟩ := h
    rw [List.pairwise_cons] at hs
    have hm : Memory.wf n m := ⟨hs.2, fun c hc => hv c (by simp [hc])⟩
    unfold Memory.write
    split
    · next hlt =>
      refine Memory.read_cons_self b ?_
      rintro c hc
      rcases List.mem_cons.1 hc with rfl | hc
      · exact hlt
      · exact hlt.trans (hs.1 c hc)
    · split
      · next he => subst he; exact Memory.read_cons_self b hs.1
      · next hne => rw [Memory.read_cons, if_neg (Ne.symm hne)]; exact ih hm

/-- A write leaves every other slot alone, in any list. -/
theorem Memory.read_write_of_ne (m : Memory) {a a' : Nat} (b : Byte) (h : a' ≠ a) :
    (m.write a b).read a' = m.read a' := by
  induction m with
  | nil => exact Memory.read_cons_of_ne [] b h
  | cons c m ih =>
    obtain ⟨k, v⟩ := c
    unfold Memory.write
    split
    · exact Memory.read_cons_of_ne _ b h
    · split
      · next he => subst he; rw [Memory.read_cons_of_ne m b h, Memory.read_cons, if_neg (Ne.symm h)]
      · rw [Memory.read_cons, Memory.read_cons, ih]

/-- The addresses of a written memory: the one written, or one listed before. -/
theorem Memory.mem_write {m : Memory} {a : Nat} {b : Byte} {c : Host.Cell} (h : c ∈ m.write a b) :
    (c = (a, b) ∧ b ≠ Memory.unlisted) ∨ c ∈ m := by
  have key : ∀ {m' : Memory}, c ∈ Memory.cons a b m' → (c = (a, b) ∧ b ≠ Memory.unlisted) ∨ c ∈ m' := by
    intro m' hc
    unfold Memory.cons at hc
    split at hc
    · exact .inr hc
    · next hb =>
      rcases List.mem_cons.1 hc with rfl | hc
      · exact .inl ⟨rfl, hb⟩
      · exact .inr hc
  induction m with
  | nil => exact key h
  | cons d m ih =>
    obtain ⟨k, v⟩ := d
    unfold Memory.write at h
    split at h
    · exact key h
    · split at h
      · exact (key h).imp id fun hc => List.mem_cons_of_mem _ hc
      · rcases List.mem_cons.1 h with rfl | h
        · exact .inr (by simp)
        · exact (ih h).imp id fun hc => List.mem_cons_of_mem _ hc

/-- A write within the `n` slots keeps the canonical form. -/
theorem Memory.wf_write {n : Nat} {m : Memory} (h : Memory.wf n m) {a : Nat} (ha : a < n) (b : Byte) :
    Memory.wf n (m.write a b) := by
  refine ⟨?_, ?_⟩
  · obtain ⟨hs, -⟩ := h
    have key : ∀ {m' : Memory}, m'.Pairwise (fun p q => p.1 < q.1) → (∀ c ∈ m', a < c.1) →
        (Memory.cons a b m').Pairwise (fun p q => p.1 < q.1) := by
      intro m' hm hlt
      unfold Memory.cons
      split
      · exact hm
      · exact List.pairwise_cons.2 ⟨hlt, hm⟩
    induction m with
    | nil => exact key .nil (by simp)
    | cons c m ih =>
      obtain ⟨k, v⟩ := c
      have hs' := List.pairwise_cons.1 hs
      unfold Memory.write
      split
      · next hlt =>
        refine key hs fun c hc => ?_
        rcases List.mem_cons.1 hc with rfl | hc
        · exact hlt
        · exact hlt.trans (hs'.1 c hc)
      · next hge =>
        split
        · next he => subst he; exact key hs'.2 hs'.1
        · next hne =>
          refine List.pairwise_cons.2 ⟨fun c hc => ?_, ih hs'.2⟩
          rcases Memory.mem_write hc with ⟨rfl, -⟩ | hc
          · exact Nat.lt_of_le_of_ne (Nat.not_lt.1 hge) (Ne.symm hne)
          · exact hs'.1 c hc
  · intro c hc
    rcases Memory.mem_write hc with ⟨rfl, hb⟩ | hc
    · exact ⟨ha, hb⟩
    · exact h.2 c hc

/-- The ring storage after reset has the canonical form. -/
theorem Memory.wf_reset : Memory.wf State.reset.slots State.reset.buf := by
  refine ⟨List.Pairwise.nil, ?_⟩
  intro c hc
  simp [State.reset] at hc

end Sys2Proof.Machine
end

