-- ==== Sys2Proof/Laws/State.lean ====
section
/-! SUPPORT. One lemma per field and shared update, so that no later proof unfolds a record update. A field that an
update writes reads as the value written; every other field reads as before. -/

namespace Sys2Proof.Machine

/-! ## `writeSlot` -/

@[simp] theorem State.writeSlot_buf (s : State) (k : BitVec 2) (v : Bool) : (s.writeSlot k v).buf = s.buf := rfl
@[simp] theorem State.writeSlot_readIndex (s : State) (k : BitVec 2) (v : Bool) : (s.writeSlot k v).readIndex = s.readIndex := rfl
@[simp] theorem State.writeSlot_writeIndex (s : State) (k : BitVec 2) (v : Bool) : (s.writeSlot k v).writeIndex = s.writeIndex := rfl
@[simp] theorem State.writeSlot_udr (s : State) (k : BitVec 2) (v : Bool) : (s.writeSlot k v).udr = s.udr := rfl
@[simp] theorem State.writeSlot_udre (s : State) (k : BitVec 2) (v : Bool) : (s.writeSlot k v).udre = s.udre := rfl
@[simp] theorem State.writeSlot_txie (s : State) (k : BitVec 2) (v : Bool) : (s.writeSlot k v).txie = s.txie := rfl
@[simp] theorem State.writeSlot_ubrr (s : State) (k : BitVec 2) (v : Bool) : (s.writeSlot k v).ubrr = s.ubrr := rfl
@[simp] theorem State.writeSlot_u2x (s : State) (k : BitVec 2) (v : Bool) : (s.writeSlot k v).u2x = s.u2x := rfl
@[simp] theorem State.writeSlot_serCfgd (s : State) (k : BitVec 2) (v : Bool) : (s.writeSlot k v).serCfgd = s.serCfgd := rfl
@[simp] theorem State.writeSlot_line (s : State) (k : BitVec 2) (v : Bool) : (s.writeSlot k v).line = s.line := rfl
@[simp] theorem State.writeSlot_presc (s : State) (k : BitVec 2) (v : Bool) : (s.writeSlot k v).presc = s.presc := rfl
@[simp] theorem State.writeSlot_ocr (s : State) (k : BitVec 2) (v : Bool) : (s.writeSlot k v).ocr = s.ocr := rfl
@[simp] theorem State.writeSlot_tmrRun (s : State) (k : BitVec 2) (v : Bool) : (s.writeSlot k v).tmrRun = s.tmrRun := rfl
@[simp] theorem State.writeSlot_tick (s : State) (k : BitVec 2) (v : Bool) : (s.writeSlot k v).tick = s.tick := rfl
@[simp] theorem State.writeSlot_ocf (s : State) (k : BitVec 2) (v : Bool) : (s.writeSlot k v).ocf = s.ocf := rfl
@[simp] theorem State.writeSlot_ocie (s : State) (k : BitVec 2) (v : Bool) : (s.writeSlot k v).ocie = s.ocie := rfl
@[simp] theorem State.writeSlot_counter (s : State) (k : BitVec 2) (v : Bool) : (s.writeSlot k v).counter = s.counter := rfl
@[simp] theorem State.writeSlot_iflag (s : State) (k : BitVec 2) (v : Bool) : (s.writeSlot k v).iflag = s.iflag := rfl
@[simp] theorem State.writeSlot_saves (s : State) (k : BitVec 2) (v : Bool) : (s.writeSlot k v).saves = s.saves.set k.toNat ⟨v, true⟩ k.isLt := rfl
@[simp] theorem State.writeSlot_res (s : State) (k : BitVec 2) (v : Bool) : (s.writeSlot k v).res = s.res := rfl
@[simp] theorem State.writeSlot_cp (s : State) (k : BitVec 2) (v : Bool) : (s.writeSlot k v).cp = s.cp := rfl
@[simp] theorem State.writeSlot_ph (s : State) (k : BitVec 2) (v : Bool) : (s.writeSlot k v).ph = s.ph := rfl
@[simp] theorem State.writeSlot_sent (s : State) (k : BitVec 2) (v : Bool) : (s.writeSlot k v).sent = s.sent := rfl
@[simp] theorem State.writeSlot_asleep (s : State) (k : BitVec 2) (v : Bool) : (s.writeSlot k v).asleep = s.asleep := rfl
@[simp] theorem State.writeSlot_fault (s : State) (k : BitVec 2) (v : Bool) : (s.writeSlot k v).fault = s.fault := rfl
@[simp] theorem State.writeSlot_pin (s : State) (k : BitVec 2) (v : Bool) : (s.writeSlot k v).pin = s.pin := rfl
@[simp] theorem State.writeSlot_wantInterWordSpace (s : State) (k : BitVec 2) (v : Bool) : (s.writeSlot k v).wantInterWordSpace = s.wantInterWordSpace := rfl
@[simp] theorem State.writeSlot_cfg (s : State) (k : BitVec 2) (v : Bool) : (s.writeSlot k v).cfg = s.cfg := rfl
@[simp] theorem State.writeSlot_cmd (s : State) (k : BitVec 2) (v : Bool) : (s.writeSlot k v).cmd = s.cmd := rfl
@[simp] theorem State.writeSlot_sched (s : State) (k : BitVec 2) (v : Bool) : (s.writeSlot k v).sched = s.sched := rfl
@[simp] theorem State.writeSlot_policy (s : State) (k : BitVec 2) (v : Bool) : (s.writeSlot k v).policy = s.policy := rfl
@[simp] theorem State.writeSlot_turns (s : State) (k : BitVec 2) (v : Bool) : (s.writeSlot k v).turns = s.turns := rfl
@[simp] theorem State.writeSlot_draws (s : State) (k : BitVec 2) (v : Bool) : (s.writeSlot k v).draws = s.draws := rfl

/-! ## `advance` -/

@[simp] theorem State.advance_buf (s : State) (n : Nat) : (s.advance n).buf = s.buf := rfl
@[simp] theorem State.advance_readIndex (s : State) (n : Nat) : (s.advance n).readIndex = s.readIndex := rfl
@[simp] theorem State.advance_writeIndex (s : State) (n : Nat) : (s.advance n).writeIndex = s.writeIndex := rfl
@[simp] theorem State.advance_udr (s : State) (n : Nat) : (s.advance n).udr = s.udr := rfl
@[simp] theorem State.advance_udre (s : State) (n : Nat) : (s.advance n).udre = s.udre := rfl
@[simp] theorem State.advance_txie (s : State) (n : Nat) : (s.advance n).txie = s.txie := rfl
@[simp] theorem State.advance_ubrr (s : State) (n : Nat) : (s.advance n).ubrr = s.ubrr := rfl
@[simp] theorem State.advance_u2x (s : State) (n : Nat) : (s.advance n).u2x = s.u2x := rfl
@[simp] theorem State.advance_serCfgd (s : State) (n : Nat) : (s.advance n).serCfgd = s.serCfgd := rfl
@[simp] theorem State.advance_line (s : State) (n : Nat) : (s.advance n).line = s.line := rfl
@[simp] theorem State.advance_presc (s : State) (n : Nat) : (s.advance n).presc = s.presc := rfl
@[simp] theorem State.advance_ocr (s : State) (n : Nat) : (s.advance n).ocr = s.ocr := rfl
@[simp] theorem State.advance_tmrRun (s : State) (n : Nat) : (s.advance n).tmrRun = s.tmrRun := rfl
@[simp] theorem State.advance_tick (s : State) (n : Nat) : (s.advance n).tick = s.tick := rfl
@[simp] theorem State.advance_ocf (s : State) (n : Nat) : (s.advance n).ocf = s.ocf := rfl
@[simp] theorem State.advance_ocie (s : State) (n : Nat) : (s.advance n).ocie = s.ocie := rfl
@[simp] theorem State.advance_counter (s : State) (n : Nat) : (s.advance n).counter = s.counter := rfl
@[simp] theorem State.advance_iflag (s : State) (n : Nat) : (s.advance n).iflag = s.iflag := rfl
@[simp] theorem State.advance_saves (s : State) (n : Nat) : (s.advance n).saves = s.saves := rfl
@[simp] theorem State.advance_res (s : State) (n : Nat) : (s.advance n).res = s.res := rfl
@[simp] theorem State.advance_cp (s : State) (n : Nat) : (s.advance n).cp = s.cp + n := rfl
@[simp] theorem State.advance_ph (s : State) (n : Nat) : (s.advance n).ph = s.ph := rfl
@[simp] theorem State.advance_sent (s : State) (n : Nat) : (s.advance n).sent = s.sent := rfl
@[simp] theorem State.advance_asleep (s : State) (n : Nat) : (s.advance n).asleep = s.asleep := rfl
@[simp] theorem State.advance_fault (s : State) (n : Nat) : (s.advance n).fault = s.fault := rfl
@[simp] theorem State.advance_pin (s : State) (n : Nat) : (s.advance n).pin = s.pin := rfl
@[simp] theorem State.advance_wantInterWordSpace (s : State) (n : Nat) : (s.advance n).wantInterWordSpace = s.wantInterWordSpace := rfl
@[simp] theorem State.advance_cfg (s : State) (n : Nat) : (s.advance n).cfg = s.cfg := rfl
@[simp] theorem State.advance_cmd (s : State) (n : Nat) : (s.advance n).cmd = s.cmd := rfl
@[simp] theorem State.advance_sched (s : State) (n : Nat) : (s.advance n).sched = s.sched := rfl
@[simp] theorem State.advance_policy (s : State) (n : Nat) : (s.advance n).policy = s.policy := rfl
@[simp] theorem State.advance_turns (s : State) (n : Nat) : (s.advance n).turns = s.turns := rfl
@[simp] theorem State.advance_draws (s : State) (n : Nat) : (s.advance n).draws = s.draws := rfl

/-! ## `complete` -/

@[simp] theorem State.complete_buf (s : State) (n : Nat) : (s.complete n).buf = s.buf := rfl
@[simp] theorem State.complete_readIndex (s : State) (n : Nat) : (s.complete n).readIndex = s.readIndex := rfl
@[simp] theorem State.complete_writeIndex (s : State) (n : Nat) : (s.complete n).writeIndex = s.writeIndex := rfl
@[simp] theorem State.complete_udr (s : State) (n : Nat) : (s.complete n).udr = s.udr := rfl
@[simp] theorem State.complete_udre (s : State) (n : Nat) : (s.complete n).udre = s.udre := rfl
@[simp] theorem State.complete_txie (s : State) (n : Nat) : (s.complete n).txie = s.txie := rfl
@[simp] theorem State.complete_ubrr (s : State) (n : Nat) : (s.complete n).ubrr = s.ubrr := rfl
@[simp] theorem State.complete_u2x (s : State) (n : Nat) : (s.complete n).u2x = s.u2x := rfl
@[simp] theorem State.complete_serCfgd (s : State) (n : Nat) : (s.complete n).serCfgd = s.serCfgd := rfl
@[simp] theorem State.complete_line (s : State) (n : Nat) : (s.complete n).line = s.line := rfl
@[simp] theorem State.complete_presc (s : State) (n : Nat) : (s.complete n).presc = s.presc := rfl
@[simp] theorem State.complete_ocr (s : State) (n : Nat) : (s.complete n).ocr = s.ocr := rfl
@[simp] theorem State.complete_tmrRun (s : State) (n : Nat) : (s.complete n).tmrRun = s.tmrRun := rfl
@[simp] theorem State.complete_tick (s : State) (n : Nat) : (s.complete n).tick = s.tick := rfl
@[simp] theorem State.complete_ocf (s : State) (n : Nat) : (s.complete n).ocf = s.ocf := rfl
@[simp] theorem State.complete_ocie (s : State) (n : Nat) : (s.complete n).ocie = s.ocie := rfl
@[simp] theorem State.complete_counter (s : State) (n : Nat) : (s.complete n).counter = s.counter := rfl
@[simp] theorem State.complete_iflag (s : State) (n : Nat) : (s.complete n).iflag = s.iflag := rfl
@[simp] theorem State.complete_saves (s : State) (n : Nat) : (s.complete n).saves = s.saves := rfl
@[simp] theorem State.complete_res (s : State) (n : Nat) : (s.complete n).res = s.res := rfl
@[simp] theorem State.complete_cp (s : State) (n : Nat) : (s.complete n).cp = s.cp + n := rfl
@[simp] theorem State.complete_ph (s : State) (n : Nat) : (s.complete n).ph = .zero := rfl
@[simp] theorem State.complete_sent (s : State) (n : Nat) : (s.complete n).sent = s.sent := rfl
@[simp] theorem State.complete_asleep (s : State) (n : Nat) : (s.complete n).asleep = s.asleep := rfl
@[simp] theorem State.complete_fault (s : State) (n : Nat) : (s.complete n).fault = s.fault := rfl
@[simp] theorem State.complete_pin (s : State) (n : Nat) : (s.complete n).pin = s.pin := rfl
@[simp] theorem State.complete_wantInterWordSpace (s : State) (n : Nat) : (s.complete n).wantInterWordSpace = s.wantInterWordSpace := rfl
@[simp] theorem State.complete_cfg (s : State) (n : Nat) : (s.complete n).cfg = s.cfg := rfl
@[simp] theorem State.complete_cmd (s : State) (n : Nat) : (s.complete n).cmd = s.cmd := rfl
@[simp] theorem State.complete_sched (s : State) (n : Nat) : (s.complete n).sched = s.sched := rfl
@[simp] theorem State.complete_policy (s : State) (n : Nat) : (s.complete n).policy = s.policy := rfl
@[simp] theorem State.complete_turns (s : State) (n : Nat) : (s.complete n).turns = s.turns := rfl
@[simp] theorem State.complete_draws (s : State) (n : Nat) : (s.complete n).draws = s.draws := rfl

/-! ## `writeResult` -/

@[simp] theorem State.writeResult_buf (s : State) (v : Word) : (s.writeResult v).buf = s.buf := rfl
@[simp] theorem State.writeResult_readIndex (s : State) (v : Word) : (s.writeResult v).readIndex = s.readIndex := rfl
@[simp] theorem State.writeResult_writeIndex (s : State) (v : Word) : (s.writeResult v).writeIndex = s.writeIndex := rfl
@[simp] theorem State.writeResult_udr (s : State) (v : Word) : (s.writeResult v).udr = s.udr := rfl
@[simp] theorem State.writeResult_udre (s : State) (v : Word) : (s.writeResult v).udre = s.udre := rfl
@[simp] theorem State.writeResult_txie (s : State) (v : Word) : (s.writeResult v).txie = s.txie := rfl
@[simp] theorem State.writeResult_ubrr (s : State) (v : Word) : (s.writeResult v).ubrr = s.ubrr := rfl
@[simp] theorem State.writeResult_u2x (s : State) (v : Word) : (s.writeResult v).u2x = s.u2x := rfl
@[simp] theorem State.writeResult_serCfgd (s : State) (v : Word) : (s.writeResult v).serCfgd = s.serCfgd := rfl
@[simp] theorem State.writeResult_line (s : State) (v : Word) : (s.writeResult v).line = s.line := rfl
@[simp] theorem State.writeResult_presc (s : State) (v : Word) : (s.writeResult v).presc = s.presc := rfl
@[simp] theorem State.writeResult_ocr (s : State) (v : Word) : (s.writeResult v).ocr = s.ocr := rfl
@[simp] theorem State.writeResult_tmrRun (s : State) (v : Word) : (s.writeResult v).tmrRun = s.tmrRun := rfl
@[simp] theorem State.writeResult_tick (s : State) (v : Word) : (s.writeResult v).tick = s.tick := rfl
@[simp] theorem State.writeResult_ocf (s : State) (v : Word) : (s.writeResult v).ocf = s.ocf := rfl
@[simp] theorem State.writeResult_ocie (s : State) (v : Word) : (s.writeResult v).ocie = s.ocie := rfl
@[simp] theorem State.writeResult_counter (s : State) (v : Word) : (s.writeResult v).counter = s.counter := rfl
@[simp] theorem State.writeResult_iflag (s : State) (v : Word) : (s.writeResult v).iflag = s.iflag := rfl
@[simp] theorem State.writeResult_saves (s : State) (v : Word) : (s.writeResult v).saves = s.saves := rfl
@[simp] theorem State.writeResult_res (s : State) (v : Word) : (s.writeResult v).res = ⟨v, true⟩ := rfl
@[simp] theorem State.writeResult_cp (s : State) (v : Word) : (s.writeResult v).cp = s.cp := rfl
@[simp] theorem State.writeResult_ph (s : State) (v : Word) : (s.writeResult v).ph = s.ph := rfl
@[simp] theorem State.writeResult_sent (s : State) (v : Word) : (s.writeResult v).sent = s.sent := rfl
@[simp] theorem State.writeResult_asleep (s : State) (v : Word) : (s.writeResult v).asleep = s.asleep := rfl
@[simp] theorem State.writeResult_fault (s : State) (v : Word) : (s.writeResult v).fault = s.fault := rfl
@[simp] theorem State.writeResult_pin (s : State) (v : Word) : (s.writeResult v).pin = s.pin := rfl
@[simp] theorem State.writeResult_wantInterWordSpace (s : State) (v : Word) : (s.writeResult v).wantInterWordSpace = s.wantInterWordSpace := rfl
@[simp] theorem State.writeResult_cfg (s : State) (v : Word) : (s.writeResult v).cfg = s.cfg := rfl
@[simp] theorem State.writeResult_cmd (s : State) (v : Word) : (s.writeResult v).cmd = s.cmd := rfl
@[simp] theorem State.writeResult_sched (s : State) (v : Word) : (s.writeResult v).sched = s.sched := rfl
@[simp] theorem State.writeResult_policy (s : State) (v : Word) : (s.writeResult v).policy = s.policy := rfl
@[simp] theorem State.writeResult_turns (s : State) (v : Word) : (s.writeResult v).turns = s.turns := rfl
@[simp] theorem State.writeResult_draws (s : State) (v : Word) : (s.writeResult v).draws = s.draws := rfl

/-! ## `sleepNow` -/

@[simp] theorem State.sleepNow_buf (s : State) : (s.sleepNow).buf = s.buf := rfl
@[simp] theorem State.sleepNow_readIndex (s : State) : (s.sleepNow).readIndex = s.readIndex := rfl
@[simp] theorem State.sleepNow_writeIndex (s : State) : (s.sleepNow).writeIndex = s.writeIndex := rfl
@[simp] theorem State.sleepNow_udr (s : State) : (s.sleepNow).udr = s.udr := rfl
@[simp] theorem State.sleepNow_udre (s : State) : (s.sleepNow).udre = s.udre := rfl
@[simp] theorem State.sleepNow_txie (s : State) : (s.sleepNow).txie = s.txie := rfl
@[simp] theorem State.sleepNow_ubrr (s : State) : (s.sleepNow).ubrr = s.ubrr := rfl
@[simp] theorem State.sleepNow_u2x (s : State) : (s.sleepNow).u2x = s.u2x := rfl
@[simp] theorem State.sleepNow_serCfgd (s : State) : (s.sleepNow).serCfgd = s.serCfgd := rfl
@[simp] theorem State.sleepNow_line (s : State) : (s.sleepNow).line = s.line := rfl
@[simp] theorem State.sleepNow_presc (s : State) : (s.sleepNow).presc = s.presc := rfl
@[simp] theorem State.sleepNow_ocr (s : State) : (s.sleepNow).ocr = s.ocr := rfl
@[simp] theorem State.sleepNow_tmrRun (s : State) : (s.sleepNow).tmrRun = s.tmrRun := rfl
@[simp] theorem State.sleepNow_tick (s : State) : (s.sleepNow).tick = s.tick := rfl
@[simp] theorem State.sleepNow_ocf (s : State) : (s.sleepNow).ocf = s.ocf := rfl
@[simp] theorem State.sleepNow_ocie (s : State) : (s.sleepNow).ocie = s.ocie := rfl
@[simp] theorem State.sleepNow_counter (s : State) : (s.sleepNow).counter = s.counter := rfl
@[simp] theorem State.sleepNow_iflag (s : State) : (s.sleepNow).iflag = s.iflag := rfl
@[simp] theorem State.sleepNow_saves (s : State) : (s.sleepNow).saves = s.saves := rfl
@[simp] theorem State.sleepNow_res (s : State) : (s.sleepNow).res = s.res := rfl
@[simp] theorem State.sleepNow_cp (s : State) : (s.sleepNow).cp = s.cp := rfl
@[simp] theorem State.sleepNow_ph (s : State) : (s.sleepNow).ph = s.ph := rfl
@[simp] theorem State.sleepNow_sent (s : State) : (s.sleepNow).sent = s.sent := rfl
@[simp] theorem State.sleepNow_asleep (s : State) : (s.sleepNow).asleep = true := rfl
@[simp] theorem State.sleepNow_fault (s : State) : (s.sleepNow).fault = s.fault := rfl
@[simp] theorem State.sleepNow_pin (s : State) : (s.sleepNow).pin = s.pin := rfl
@[simp] theorem State.sleepNow_wantInterWordSpace (s : State) : (s.sleepNow).wantInterWordSpace = s.wantInterWordSpace := rfl
@[simp] theorem State.sleepNow_cfg (s : State) : (s.sleepNow).cfg = s.cfg := rfl
@[simp] theorem State.sleepNow_cmd (s : State) : (s.sleepNow).cmd = s.cmd := rfl
@[simp] theorem State.sleepNow_sched (s : State) : (s.sleepNow).sched = s.sched := rfl
@[simp] theorem State.sleepNow_policy (s : State) : (s.sleepNow).policy = s.policy := rfl
@[simp] theorem State.sleepNow_turns (s : State) : (s.sleepNow).turns = s.turns := rfl
@[simp] theorem State.sleepNow_draws (s : State) : (s.sleepNow).draws = s.draws := rfl

/-! ## `raise` -/

@[simp] theorem State.raise_buf (s : State) (c : FaultCode) : (s.raise c).buf = s.buf := rfl
@[simp] theorem State.raise_readIndex (s : State) (c : FaultCode) : (s.raise c).readIndex = s.readIndex := rfl
@[simp] theorem State.raise_writeIndex (s : State) (c : FaultCode) : (s.raise c).writeIndex = s.writeIndex := rfl
@[simp] theorem State.raise_udr (s : State) (c : FaultCode) : (s.raise c).udr = s.udr := rfl
@[simp] theorem State.raise_udre (s : State) (c : FaultCode) : (s.raise c).udre = s.udre := rfl
@[simp] theorem State.raise_txie (s : State) (c : FaultCode) : (s.raise c).txie = s.txie := rfl
@[simp] theorem State.raise_ubrr (s : State) (c : FaultCode) : (s.raise c).ubrr = s.ubrr := rfl
@[simp] theorem State.raise_u2x (s : State) (c : FaultCode) : (s.raise c).u2x = s.u2x := rfl
@[simp] theorem State.raise_serCfgd (s : State) (c : FaultCode) : (s.raise c).serCfgd = s.serCfgd := rfl
@[simp] theorem State.raise_line (s : State) (c : FaultCode) : (s.raise c).line = s.line := rfl
@[simp] theorem State.raise_presc (s : State) (c : FaultCode) : (s.raise c).presc = s.presc := rfl
@[simp] theorem State.raise_ocr (s : State) (c : FaultCode) : (s.raise c).ocr = s.ocr := rfl
@[simp] theorem State.raise_tmrRun (s : State) (c : FaultCode) : (s.raise c).tmrRun = s.tmrRun := rfl
@[simp] theorem State.raise_tick (s : State) (c : FaultCode) : (s.raise c).tick = s.tick := rfl
@[simp] theorem State.raise_ocf (s : State) (c : FaultCode) : (s.raise c).ocf = s.ocf := rfl
@[simp] theorem State.raise_ocie (s : State) (c : FaultCode) : (s.raise c).ocie = s.ocie := rfl
@[simp] theorem State.raise_counter (s : State) (c : FaultCode) : (s.raise c).counter = s.counter := rfl
@[simp] theorem State.raise_iflag (s : State) (c : FaultCode) : (s.raise c).iflag = s.iflag := rfl
@[simp] theorem State.raise_saves (s : State) (c : FaultCode) : (s.raise c).saves = s.saves := rfl
@[simp] theorem State.raise_res (s : State) (c : FaultCode) : (s.raise c).res = s.res := rfl
@[simp] theorem State.raise_cp (s : State) (c : FaultCode) : (s.raise c).cp = s.cp := rfl
@[simp] theorem State.raise_ph (s : State) (c : FaultCode) : (s.raise c).ph = s.ph := rfl
@[simp] theorem State.raise_sent (s : State) (c : FaultCode) : (s.raise c).sent = s.sent := rfl
@[simp] theorem State.raise_asleep (s : State) (c : FaultCode) : (s.raise c).asleep = s.asleep := rfl
@[simp] theorem State.raise_fault (s : State) (c : FaultCode) : (s.raise c).fault = s.fault.or (some c) := rfl
@[simp] theorem State.raise_pin (s : State) (c : FaultCode) : (s.raise c).pin = s.pin := rfl
@[simp] theorem State.raise_wantInterWordSpace (s : State) (c : FaultCode) : (s.raise c).wantInterWordSpace = s.wantInterWordSpace := rfl
@[simp] theorem State.raise_cfg (s : State) (c : FaultCode) : (s.raise c).cfg = s.cfg := rfl
@[simp] theorem State.raise_cmd (s : State) (c : FaultCode) : (s.raise c).cmd = s.cmd := rfl
@[simp] theorem State.raise_sched (s : State) (c : FaultCode) : (s.raise c).sched = s.sched := rfl
@[simp] theorem State.raise_policy (s : State) (c : FaultCode) : (s.raise c).policy = s.policy := rfl
@[simp] theorem State.raise_turns (s : State) (c : FaultCode) : (s.raise c).turns = s.turns := rfl
@[simp] theorem State.raise_draws (s : State) (c : FaultCode) : (s.raise c).draws = s.draws := rfl

/-! ## `enterInterrupt` -/

@[simp] theorem State.enterInterrupt_buf (s : State) : (s.enterInterrupt).buf = s.buf := rfl
@[simp] theorem State.enterInterrupt_readIndex (s : State) : (s.enterInterrupt).readIndex = s.readIndex := rfl
@[simp] theorem State.enterInterrupt_writeIndex (s : State) : (s.enterInterrupt).writeIndex = s.writeIndex := rfl
@[simp] theorem State.enterInterrupt_udr (s : State) : (s.enterInterrupt).udr = s.udr := rfl
@[simp] theorem State.enterInterrupt_udre (s : State) : (s.enterInterrupt).udre = s.udre := rfl
@[simp] theorem State.enterInterrupt_txie (s : State) : (s.enterInterrupt).txie = s.txie := rfl
@[simp] theorem State.enterInterrupt_ubrr (s : State) : (s.enterInterrupt).ubrr = s.ubrr := rfl
@[simp] theorem State.enterInterrupt_u2x (s : State) : (s.enterInterrupt).u2x = s.u2x := rfl
@[simp] theorem State.enterInterrupt_serCfgd (s : State) : (s.enterInterrupt).serCfgd = s.serCfgd := rfl
@[simp] theorem State.enterInterrupt_line (s : State) : (s.enterInterrupt).line = s.line := rfl
@[simp] theorem State.enterInterrupt_presc (s : State) : (s.enterInterrupt).presc = s.presc := rfl
@[simp] theorem State.enterInterrupt_ocr (s : State) : (s.enterInterrupt).ocr = s.ocr := rfl
@[simp] theorem State.enterInterrupt_tmrRun (s : State) : (s.enterInterrupt).tmrRun = s.tmrRun := rfl
@[simp] theorem State.enterInterrupt_tick (s : State) : (s.enterInterrupt).tick = s.tick := rfl
@[simp] theorem State.enterInterrupt_ocf (s : State) : (s.enterInterrupt).ocf = s.ocf := rfl
@[simp] theorem State.enterInterrupt_ocie (s : State) : (s.enterInterrupt).ocie = s.ocie := rfl
@[simp] theorem State.enterInterrupt_counter (s : State) : (s.enterInterrupt).counter = s.counter := rfl
@[simp] theorem State.enterInterrupt_iflag (s : State) : (s.enterInterrupt).iflag = false := rfl
@[simp] theorem State.enterInterrupt_saves (s : State) : (s.enterInterrupt).saves = s.saves := rfl
@[simp] theorem State.enterInterrupt_res (s : State) : (s.enterInterrupt).res = s.res := rfl
@[simp] theorem State.enterInterrupt_cp (s : State) : (s.enterInterrupt).cp = s.cp := rfl
@[simp] theorem State.enterInterrupt_ph (s : State) : (s.enterInterrupt).ph = s.ph := rfl
@[simp] theorem State.enterInterrupt_sent (s : State) : (s.enterInterrupt).sent = s.sent := rfl
@[simp] theorem State.enterInterrupt_asleep (s : State) : (s.enterInterrupt).asleep = s.asleep := rfl
@[simp] theorem State.enterInterrupt_fault (s : State) : (s.enterInterrupt).fault = s.fault := rfl
@[simp] theorem State.enterInterrupt_pin (s : State) : (s.enterInterrupt).pin = s.pin := rfl
@[simp] theorem State.enterInterrupt_wantInterWordSpace (s : State) : (s.enterInterrupt).wantInterWordSpace = s.wantInterWordSpace := rfl
@[simp] theorem State.enterInterrupt_cfg (s : State) : (s.enterInterrupt).cfg = s.cfg := rfl
@[simp] theorem State.enterInterrupt_cmd (s : State) : (s.enterInterrupt).cmd = s.cmd := rfl
@[simp] theorem State.enterInterrupt_sched (s : State) : (s.enterInterrupt).sched = s.sched := rfl
@[simp] theorem State.enterInterrupt_policy (s : State) : (s.enterInterrupt).policy = s.policy := rfl
@[simp] theorem State.enterInterrupt_turns (s : State) : (s.enterInterrupt).turns = s.turns := rfl
@[simp] theorem State.enterInterrupt_draws (s : State) : (s.enterInterrupt).draws = s.draws := rfl

/-! ## `returnInterrupt` -/

@[simp] theorem State.returnInterrupt_buf (s : State) : (s.returnInterrupt).buf = s.buf := rfl
@[simp] theorem State.returnInterrupt_readIndex (s : State) : (s.returnInterrupt).readIndex = s.readIndex := rfl
@[simp] theorem State.returnInterrupt_writeIndex (s : State) : (s.returnInterrupt).writeIndex = s.writeIndex := rfl
@[simp] theorem State.returnInterrupt_udr (s : State) : (s.returnInterrupt).udr = s.udr := rfl
@[simp] theorem State.returnInterrupt_udre (s : State) : (s.returnInterrupt).udre = s.udre := rfl
@[simp] theorem State.returnInterrupt_txie (s : State) : (s.returnInterrupt).txie = s.txie := rfl
@[simp] theorem State.returnInterrupt_ubrr (s : State) : (s.returnInterrupt).ubrr = s.ubrr := rfl
@[simp] theorem State.returnInterrupt_u2x (s : State) : (s.returnInterrupt).u2x = s.u2x := rfl
@[simp] theorem State.returnInterrupt_serCfgd (s : State) : (s.returnInterrupt).serCfgd = s.serCfgd := rfl
@[simp] theorem State.returnInterrupt_line (s : State) : (s.returnInterrupt).line = s.line := rfl
@[simp] theorem State.returnInterrupt_presc (s : State) : (s.returnInterrupt).presc = s.presc := rfl
@[simp] theorem State.returnInterrupt_ocr (s : State) : (s.returnInterrupt).ocr = s.ocr := rfl
@[simp] theorem State.returnInterrupt_tmrRun (s : State) : (s.returnInterrupt).tmrRun = s.tmrRun := rfl
@[simp] theorem State.returnInterrupt_tick (s : State) : (s.returnInterrupt).tick = s.tick := rfl
@[simp] theorem State.returnInterrupt_ocf (s : State) : (s.returnInterrupt).ocf = s.ocf := rfl
@[simp] theorem State.returnInterrupt_ocie (s : State) : (s.returnInterrupt).ocie = s.ocie := rfl
@[simp] theorem State.returnInterrupt_counter (s : State) : (s.returnInterrupt).counter = s.counter := rfl
@[simp] theorem State.returnInterrupt_iflag (s : State) : (s.returnInterrupt).iflag = true := rfl
@[simp] theorem State.returnInterrupt_saves (s : State) : (s.returnInterrupt).saves = s.saves := rfl
@[simp] theorem State.returnInterrupt_res (s : State) : (s.returnInterrupt).res = s.res := rfl
@[simp] theorem State.returnInterrupt_cp (s : State) : (s.returnInterrupt).cp = s.cp := rfl
@[simp] theorem State.returnInterrupt_ph (s : State) : (s.returnInterrupt).ph = s.ph := rfl
@[simp] theorem State.returnInterrupt_sent (s : State) : (s.returnInterrupt).sent = s.sent := rfl
@[simp] theorem State.returnInterrupt_asleep (s : State) : (s.returnInterrupt).asleep = false := rfl
@[simp] theorem State.returnInterrupt_fault (s : State) : (s.returnInterrupt).fault = s.fault := rfl
@[simp] theorem State.returnInterrupt_pin (s : State) : (s.returnInterrupt).pin = s.pin := rfl
@[simp] theorem State.returnInterrupt_wantInterWordSpace (s : State) : (s.returnInterrupt).wantInterWordSpace = s.wantInterWordSpace := rfl
@[simp] theorem State.returnInterrupt_cfg (s : State) : (s.returnInterrupt).cfg = s.cfg := rfl
@[simp] theorem State.returnInterrupt_cmd (s : State) : (s.returnInterrupt).cmd = s.cmd := rfl
@[simp] theorem State.returnInterrupt_sched (s : State) : (s.returnInterrupt).sched = s.sched := rfl
@[simp] theorem State.returnInterrupt_policy (s : State) : (s.returnInterrupt).policy = s.policy := rfl
@[simp] theorem State.returnInterrupt_turns (s : State) : (s.returnInterrupt).turns = s.turns := rfl
@[simp] theorem State.returnInterrupt_draws (s : State) : (s.returnInterrupt).draws = s.draws := rfl

/-! ## `pushByte` -/

@[simp] theorem State.pushByte_buf (s : State) (b : Byte) : (s.pushByte b).buf = s.buf.write (s.slotOf s.writeIndex) b := rfl
@[simp] theorem State.pushByte_readIndex (s : State) (b : Byte) : (s.pushByte b).readIndex = s.readIndex := rfl
@[simp] theorem State.pushByte_writeIndex (s : State) (b : Byte) : (s.pushByte b).writeIndex = s.writeIndex + 1#16 := rfl
@[simp] theorem State.pushByte_udr (s : State) (b : Byte) : (s.pushByte b).udr = s.udr := rfl
@[simp] theorem State.pushByte_udre (s : State) (b : Byte) : (s.pushByte b).udre = s.udre := rfl
@[simp] theorem State.pushByte_txie (s : State) (b : Byte) : (s.pushByte b).txie = s.txie := rfl
@[simp] theorem State.pushByte_ubrr (s : State) (b : Byte) : (s.pushByte b).ubrr = s.ubrr := rfl
@[simp] theorem State.pushByte_u2x (s : State) (b : Byte) : (s.pushByte b).u2x = s.u2x := rfl
@[simp] theorem State.pushByte_serCfgd (s : State) (b : Byte) : (s.pushByte b).serCfgd = s.serCfgd := rfl
@[simp] theorem State.pushByte_line (s : State) (b : Byte) : (s.pushByte b).line = s.line := rfl
@[simp] theorem State.pushByte_presc (s : State) (b : Byte) : (s.pushByte b).presc = s.presc := rfl
@[simp] theorem State.pushByte_ocr (s : State) (b : Byte) : (s.pushByte b).ocr = s.ocr := rfl
@[simp] theorem State.pushByte_tmrRun (s : State) (b : Byte) : (s.pushByte b).tmrRun = s.tmrRun := rfl
@[simp] theorem State.pushByte_tick (s : State) (b : Byte) : (s.pushByte b).tick = s.tick := rfl
@[simp] theorem State.pushByte_ocf (s : State) (b : Byte) : (s.pushByte b).ocf = s.ocf := rfl
@[simp] theorem State.pushByte_ocie (s : State) (b : Byte) : (s.pushByte b).ocie = s.ocie := rfl
@[simp] theorem State.pushByte_counter (s : State) (b : Byte) : (s.pushByte b).counter = s.counter := rfl
@[simp] theorem State.pushByte_iflag (s : State) (b : Byte) : (s.pushByte b).iflag = s.iflag := rfl
@[simp] theorem State.pushByte_saves (s : State) (b : Byte) : (s.pushByte b).saves = s.saves := rfl
@[simp] theorem State.pushByte_res (s : State) (b : Byte) : (s.pushByte b).res = s.res := rfl
@[simp] theorem State.pushByte_cp (s : State) (b : Byte) : (s.pushByte b).cp = s.cp := rfl
@[simp] theorem State.pushByte_ph (s : State) (b : Byte) : (s.pushByte b).ph = s.ph := rfl
@[simp] theorem State.pushByte_sent (s : State) (b : Byte) : (s.pushByte b).sent = s.sent := rfl
@[simp] theorem State.pushByte_asleep (s : State) (b : Byte) : (s.pushByte b).asleep = s.asleep := rfl
@[simp] theorem State.pushByte_fault (s : State) (b : Byte) : (s.pushByte b).fault = s.fault := rfl
@[simp] theorem State.pushByte_pin (s : State) (b : Byte) : (s.pushByte b).pin = s.pin := rfl
@[simp] theorem State.pushByte_wantInterWordSpace (s : State) (b : Byte) : (s.pushByte b).wantInterWordSpace = s.wantInterWordSpace := rfl
@[simp] theorem State.pushByte_cfg (s : State) (b : Byte) : (s.pushByte b).cfg = s.cfg := rfl
@[simp] theorem State.pushByte_cmd (s : State) (b : Byte) : (s.pushByte b).cmd = s.cmd := rfl
@[simp] theorem State.pushByte_sched (s : State) (b : Byte) : (s.pushByte b).sched = s.sched := rfl
@[simp] theorem State.pushByte_policy (s : State) (b : Byte) : (s.pushByte b).policy = s.policy := rfl
@[simp] theorem State.pushByte_turns (s : State) (b : Byte) : (s.pushByte b).turns = s.turns := rfl
@[simp] theorem State.pushByte_draws (s : State) (b : Byte) : (s.pushByte b).draws = s.draws := rfl

/-! ## `popByte` -/

@[simp] theorem State.popByte_buf (s : State) : (s.popByte).buf = s.buf := rfl
@[simp] theorem State.popByte_readIndex (s : State) : (s.popByte).readIndex = s.readIndex + 1#16 := rfl
@[simp] theorem State.popByte_writeIndex (s : State) : (s.popByte).writeIndex = s.writeIndex := rfl
@[simp] theorem State.popByte_udr (s : State) : (s.popByte).udr = s.buf.read (s.slotOf s.readIndex) := rfl
@[simp] theorem State.popByte_udre (s : State) : (s.popByte).udre = false := rfl
@[simp] theorem State.popByte_txie (s : State) : (s.popByte).txie = s.txie := rfl
@[simp] theorem State.popByte_ubrr (s : State) : (s.popByte).ubrr = s.ubrr := rfl
@[simp] theorem State.popByte_u2x (s : State) : (s.popByte).u2x = s.u2x := rfl
@[simp] theorem State.popByte_serCfgd (s : State) : (s.popByte).serCfgd = s.serCfgd := rfl
@[simp] theorem State.popByte_line (s : State) : (s.popByte).line = s.line := rfl
@[simp] theorem State.popByte_presc (s : State) : (s.popByte).presc = s.presc := rfl
@[simp] theorem State.popByte_ocr (s : State) : (s.popByte).ocr = s.ocr := rfl
@[simp] theorem State.popByte_tmrRun (s : State) : (s.popByte).tmrRun = s.tmrRun := rfl
@[simp] theorem State.popByte_tick (s : State) : (s.popByte).tick = s.tick := rfl
@[simp] theorem State.popByte_ocf (s : State) : (s.popByte).ocf = s.ocf := rfl
@[simp] theorem State.popByte_ocie (s : State) : (s.popByte).ocie = s.ocie := rfl
@[simp] theorem State.popByte_counter (s : State) : (s.popByte).counter = s.counter := rfl
@[simp] theorem State.popByte_iflag (s : State) : (s.popByte).iflag = s.iflag := rfl
@[simp] theorem State.popByte_saves (s : State) : (s.popByte).saves = s.saves := rfl
@[simp] theorem State.popByte_res (s : State) : (s.popByte).res = s.res := rfl
@[simp] theorem State.popByte_cp (s : State) : (s.popByte).cp = s.cp := rfl
@[simp] theorem State.popByte_ph (s : State) : (s.popByte).ph = s.ph := rfl
@[simp] theorem State.popByte_sent (s : State) : (s.popByte).sent = s.sent := rfl
@[simp] theorem State.popByte_asleep (s : State) : (s.popByte).asleep = s.asleep := rfl
@[simp] theorem State.popByte_fault (s : State) : (s.popByte).fault = s.fault := rfl
@[simp] theorem State.popByte_pin (s : State) : (s.popByte).pin = s.pin := rfl
@[simp] theorem State.popByte_wantInterWordSpace (s : State) : (s.popByte).wantInterWordSpace = s.wantInterWordSpace := rfl
@[simp] theorem State.popByte_cfg (s : State) : (s.popByte).cfg = s.cfg := rfl
@[simp] theorem State.popByte_cmd (s : State) : (s.popByte).cmd = s.cmd := rfl
@[simp] theorem State.popByte_sched (s : State) : (s.popByte).sched = s.sched := rfl
@[simp] theorem State.popByte_policy (s : State) : (s.popByte).policy = s.policy := rfl
@[simp] theorem State.popByte_turns (s : State) : (s.popByte).turns = s.turns := rfl
@[simp] theorem State.popByte_draws (s : State) : (s.popByte).draws = s.draws := rfl

/-! ## `tickOnce` -/

@[simp] theorem State.tickOnce_buf (s : State) : (s.tickOnce).buf = s.buf := rfl
@[simp] theorem State.tickOnce_readIndex (s : State) : (s.tickOnce).readIndex = s.readIndex := rfl
@[simp] theorem State.tickOnce_writeIndex (s : State) : (s.tickOnce).writeIndex = s.writeIndex := rfl
@[simp] theorem State.tickOnce_udr (s : State) : (s.tickOnce).udr = s.udr := rfl
@[simp] theorem State.tickOnce_udre (s : State) : (s.tickOnce).udre = s.udre := rfl
@[simp] theorem State.tickOnce_txie (s : State) : (s.tickOnce).txie = s.txie := rfl
@[simp] theorem State.tickOnce_ubrr (s : State) : (s.tickOnce).ubrr = s.ubrr := rfl
@[simp] theorem State.tickOnce_u2x (s : State) : (s.tickOnce).u2x = s.u2x := rfl
@[simp] theorem State.tickOnce_serCfgd (s : State) : (s.tickOnce).serCfgd = s.serCfgd := rfl
@[simp] theorem State.tickOnce_line (s : State) : (s.tickOnce).line = s.line := rfl
@[simp] theorem State.tickOnce_presc (s : State) : (s.tickOnce).presc = s.presc := rfl
@[simp] theorem State.tickOnce_ocr (s : State) : (s.tickOnce).ocr = s.ocr := rfl
@[simp] theorem State.tickOnce_tmrRun (s : State) : (s.tickOnce).tmrRun = s.tmrRun := rfl
@[simp] theorem State.tickOnce_tick (s : State) : (s.tickOnce).tick = s.tick := rfl
@[simp] theorem State.tickOnce_ocf (s : State) : (s.tickOnce).ocf = false := rfl
@[simp] theorem State.tickOnce_ocie (s : State) : (s.tickOnce).ocie = s.ocie := rfl
@[simp] theorem State.tickOnce_counter (s : State) : (s.tickOnce).counter = s.counter + s.tick := rfl
@[simp] theorem State.tickOnce_iflag (s : State) : (s.tickOnce).iflag = s.iflag := rfl
@[simp] theorem State.tickOnce_saves (s : State) : (s.tickOnce).saves = s.saves := rfl
@[simp] theorem State.tickOnce_res (s : State) : (s.tickOnce).res = s.res := rfl
@[simp] theorem State.tickOnce_cp (s : State) : (s.tickOnce).cp = s.cp := rfl
@[simp] theorem State.tickOnce_ph (s : State) : (s.tickOnce).ph = s.ph := rfl
@[simp] theorem State.tickOnce_sent (s : State) : (s.tickOnce).sent = s.sent := rfl
@[simp] theorem State.tickOnce_asleep (s : State) : (s.tickOnce).asleep = s.asleep := rfl
@[simp] theorem State.tickOnce_fault (s : State) : (s.tickOnce).fault = s.fault := rfl
@[simp] theorem State.tickOnce_pin (s : State) : (s.tickOnce).pin = s.pin := rfl
@[simp] theorem State.tickOnce_wantInterWordSpace (s : State) : (s.tickOnce).wantInterWordSpace = s.wantInterWordSpace := rfl
@[simp] theorem State.tickOnce_cfg (s : State) : (s.tickOnce).cfg = s.cfg := rfl
@[simp] theorem State.tickOnce_cmd (s : State) : (s.tickOnce).cmd = s.cmd := rfl
@[simp] theorem State.tickOnce_sched (s : State) : (s.tickOnce).sched = s.sched := rfl
@[simp] theorem State.tickOnce_policy (s : State) : (s.tickOnce).policy = s.policy := rfl
@[simp] theorem State.tickOnce_turns (s : State) : (s.tickOnce).turns = s.turns := rfl
@[simp] theorem State.tickOnce_draws (s : State) : (s.tickOnce).draws = s.draws := rfl

/-! ## `takeTurn` -/

@[simp] theorem State.takeTurn_buf (s : State) : (s.takeTurn).buf = s.buf := rfl
@[simp] theorem State.takeTurn_readIndex (s : State) : (s.takeTurn).readIndex = s.readIndex := rfl
@[simp] theorem State.takeTurn_writeIndex (s : State) : (s.takeTurn).writeIndex = s.writeIndex := rfl
@[simp] theorem State.takeTurn_udr (s : State) : (s.takeTurn).udr = s.udr := rfl
@[simp] theorem State.takeTurn_udre (s : State) : (s.takeTurn).udre = s.udre := rfl
@[simp] theorem State.takeTurn_txie (s : State) : (s.takeTurn).txie = s.txie := rfl
@[simp] theorem State.takeTurn_ubrr (s : State) : (s.takeTurn).ubrr = s.ubrr := rfl
@[simp] theorem State.takeTurn_u2x (s : State) : (s.takeTurn).u2x = s.u2x := rfl
@[simp] theorem State.takeTurn_serCfgd (s : State) : (s.takeTurn).serCfgd = s.serCfgd := rfl
@[simp] theorem State.takeTurn_line (s : State) : (s.takeTurn).line = s.line := rfl
@[simp] theorem State.takeTurn_presc (s : State) : (s.takeTurn).presc = s.presc := rfl
@[simp] theorem State.takeTurn_ocr (s : State) : (s.takeTurn).ocr = s.ocr := rfl
@[simp] theorem State.takeTurn_tmrRun (s : State) : (s.takeTurn).tmrRun = s.tmrRun := rfl
@[simp] theorem State.takeTurn_tick (s : State) : (s.takeTurn).tick = s.tick := rfl
@[simp] theorem State.takeTurn_ocf (s : State) : (s.takeTurn).ocf = s.ocf := rfl
@[simp] theorem State.takeTurn_ocie (s : State) : (s.takeTurn).ocie = s.ocie := rfl
@[simp] theorem State.takeTurn_counter (s : State) : (s.takeTurn).counter = s.counter := rfl
@[simp] theorem State.takeTurn_iflag (s : State) : (s.takeTurn).iflag = s.iflag := rfl
@[simp] theorem State.takeTurn_saves (s : State) : (s.takeTurn).saves = s.saves := rfl
@[simp] theorem State.takeTurn_res (s : State) : (s.takeTurn).res = s.res := rfl
@[simp] theorem State.takeTurn_cp (s : State) : (s.takeTurn).cp = s.cp := rfl
@[simp] theorem State.takeTurn_ph (s : State) : (s.takeTurn).ph = s.ph := rfl
@[simp] theorem State.takeTurn_sent (s : State) : (s.takeTurn).sent = s.sent := rfl
@[simp] theorem State.takeTurn_asleep (s : State) : (s.takeTurn).asleep = s.asleep := rfl
@[simp] theorem State.takeTurn_fault (s : State) : (s.takeTurn).fault = s.fault := rfl
@[simp] theorem State.takeTurn_pin (s : State) : (s.takeTurn).pin = s.pin := rfl
@[simp] theorem State.takeTurn_wantInterWordSpace (s : State) : (s.takeTurn).wantInterWordSpace = s.wantInterWordSpace := rfl
@[simp] theorem State.takeTurn_cfg (s : State) : (s.takeTurn).cfg = s.cfg := rfl
@[simp] theorem State.takeTurn_cmd (s : State) : (s.takeTurn).cmd = s.cmd := rfl
@[simp] theorem State.takeTurn_sched (s : State) : (s.takeTurn).sched = s.sched.tail := rfl
@[simp] theorem State.takeTurn_policy (s : State) : (s.takeTurn).policy = s.policy := rfl
@[simp] theorem State.takeTurn_turns (s : State) : (s.takeTurn).turns = s.turns + 1 := rfl
@[simp] theorem State.takeTurn_draws (s : State) : (s.takeTurn).draws = s.draws := rfl

/-! ## `load` -/

@[simp] theorem State.load_buf (s : State) (bytes : List Byte) : (s.load bytes).buf = s.buf := rfl
@[simp] theorem State.load_readIndex (s : State) (bytes : List Byte) : (s.load bytes).readIndex = s.readIndex := rfl
@[simp] theorem State.load_writeIndex (s : State) (bytes : List Byte) : (s.load bytes).writeIndex = s.writeIndex := rfl
@[simp] theorem State.load_udr (s : State) (bytes : List Byte) : (s.load bytes).udr = s.udr := rfl
@[simp] theorem State.load_udre (s : State) (bytes : List Byte) : (s.load bytes).udre = s.udre := rfl
@[simp] theorem State.load_txie (s : State) (bytes : List Byte) : (s.load bytes).txie = s.txie := rfl
@[simp] theorem State.load_ubrr (s : State) (bytes : List Byte) : (s.load bytes).ubrr = s.ubrr := rfl
@[simp] theorem State.load_u2x (s : State) (bytes : List Byte) : (s.load bytes).u2x = s.u2x := rfl
@[simp] theorem State.load_serCfgd (s : State) (bytes : List Byte) : (s.load bytes).serCfgd = s.serCfgd := rfl
@[simp] theorem State.load_line (s : State) (bytes : List Byte) : (s.load bytes).line = s.line := rfl
@[simp] theorem State.load_presc (s : State) (bytes : List Byte) : (s.load bytes).presc = s.presc := rfl
@[simp] theorem State.load_ocr (s : State) (bytes : List Byte) : (s.load bytes).ocr = s.ocr := rfl
@[simp] theorem State.load_tmrRun (s : State) (bytes : List Byte) : (s.load bytes).tmrRun = s.tmrRun := rfl
@[simp] theorem State.load_tick (s : State) (bytes : List Byte) : (s.load bytes).tick = s.tick := rfl
@[simp] theorem State.load_ocf (s : State) (bytes : List Byte) : (s.load bytes).ocf = s.ocf := rfl
@[simp] theorem State.load_ocie (s : State) (bytes : List Byte) : (s.load bytes).ocie = s.ocie := rfl
@[simp] theorem State.load_counter (s : State) (bytes : List Byte) : (s.load bytes).counter = s.counter := rfl
@[simp] theorem State.load_iflag (s : State) (bytes : List Byte) : (s.load bytes).iflag = s.iflag := rfl
@[simp] theorem State.load_saves (s : State) (bytes : List Byte) : (s.load bytes).saves = s.saves := rfl
@[simp] theorem State.load_res (s : State) (bytes : List Byte) : (s.load bytes).res = s.res := rfl
@[simp] theorem State.load_cp (s : State) (bytes : List Byte) : (s.load bytes).cp = s.cp := rfl
@[simp] theorem State.load_ph (s : State) (bytes : List Byte) : (s.load bytes).ph = s.ph := rfl
@[simp] theorem State.load_sent (s : State) (bytes : List Byte) : (s.load bytes).sent = s.sent := rfl
@[simp] theorem State.load_asleep (s : State) (bytes : List Byte) : (s.load bytes).asleep = s.asleep := rfl
@[simp] theorem State.load_fault (s : State) (bytes : List Byte) : (s.load bytes).fault = s.fault := rfl
@[simp] theorem State.load_pin (s : State) (bytes : List Byte) : (s.load bytes).pin = s.pin := rfl
@[simp] theorem State.load_wantInterWordSpace (s : State) (bytes : List Byte) : (s.load bytes).wantInterWordSpace = s.wantInterWordSpace := rfl
@[simp] theorem State.load_cfg (s : State) (bytes : List Byte) : (s.load bytes).cfg = s.cfg := rfl
@[simp] theorem State.load_cmd (s : State) (bytes : List Byte) : (s.load bytes).cmd = bytes := rfl
@[simp] theorem State.load_sched (s : State) (bytes : List Byte) : (s.load bytes).sched = s.sched := rfl
@[simp] theorem State.load_policy (s : State) (bytes : List Byte) : (s.load bytes).policy = s.policy := rfl
@[simp] theorem State.load_turns (s : State) (bytes : List Byte) : (s.load bytes).turns = s.turns := rfl
@[simp] theorem State.load_draws (s : State) (bytes : List Byte) : (s.load bytes).draws = s.draws := rfl

/-! ## `serDev` -/

@[simp] theorem serDev_buf (s : State) : (Sys2Proof.Machine.serDev s).buf = s.buf := rfl
@[simp] theorem serDev_readIndex (s : State) : (Sys2Proof.Machine.serDev s).readIndex = s.readIndex := rfl
@[simp] theorem serDev_writeIndex (s : State) : (Sys2Proof.Machine.serDev s).writeIndex = s.writeIndex := rfl
@[simp] theorem serDev_udr (s : State) : (Sys2Proof.Machine.serDev s).udr = s.udr := rfl
@[simp] theorem serDev_udre (s : State) : (Sys2Proof.Machine.serDev s).udre = true := rfl
@[simp] theorem serDev_txie (s : State) : (Sys2Proof.Machine.serDev s).txie = s.txie := rfl
@[simp] theorem serDev_ubrr (s : State) : (Sys2Proof.Machine.serDev s).ubrr = s.ubrr := rfl
@[simp] theorem serDev_u2x (s : State) : (Sys2Proof.Machine.serDev s).u2x = s.u2x := rfl
@[simp] theorem serDev_serCfgd (s : State) : (Sys2Proof.Machine.serDev s).serCfgd = s.serCfgd := rfl
@[simp] theorem serDev_line (s : State) : (Sys2Proof.Machine.serDev s).line = s.line ++ [s.udr] := rfl
@[simp] theorem serDev_presc (s : State) : (Sys2Proof.Machine.serDev s).presc = s.presc := rfl
@[simp] theorem serDev_ocr (s : State) : (Sys2Proof.Machine.serDev s).ocr = s.ocr := rfl
@[simp] theorem serDev_tmrRun (s : State) : (Sys2Proof.Machine.serDev s).tmrRun = s.tmrRun := rfl
@[simp] theorem serDev_tick (s : State) : (Sys2Proof.Machine.serDev s).tick = s.tick := rfl
@[simp] theorem serDev_ocf (s : State) : (Sys2Proof.Machine.serDev s).ocf = s.ocf := rfl
@[simp] theorem serDev_ocie (s : State) : (Sys2Proof.Machine.serDev s).ocie = s.ocie := rfl
@[simp] theorem serDev_counter (s : State) : (Sys2Proof.Machine.serDev s).counter = s.counter := rfl
@[simp] theorem serDev_iflag (s : State) : (Sys2Proof.Machine.serDev s).iflag = s.iflag := rfl
@[simp] theorem serDev_saves (s : State) : (Sys2Proof.Machine.serDev s).saves = s.saves := rfl
@[simp] theorem serDev_res (s : State) : (Sys2Proof.Machine.serDev s).res = s.res := rfl
@[simp] theorem serDev_cp (s : State) : (Sys2Proof.Machine.serDev s).cp = s.cp := rfl
@[simp] theorem serDev_ph (s : State) : (Sys2Proof.Machine.serDev s).ph = s.ph := rfl
@[simp] theorem serDev_sent (s : State) : (Sys2Proof.Machine.serDev s).sent = s.sent := rfl
@[simp] theorem serDev_asleep (s : State) : (Sys2Proof.Machine.serDev s).asleep = s.asleep := rfl
@[simp] theorem serDev_fault (s : State) : (Sys2Proof.Machine.serDev s).fault = s.fault := rfl
@[simp] theorem serDev_pin (s : State) : (Sys2Proof.Machine.serDev s).pin = s.pin := rfl
@[simp] theorem serDev_wantInterWordSpace (s : State) : (Sys2Proof.Machine.serDev s).wantInterWordSpace = s.wantInterWordSpace := rfl
@[simp] theorem serDev_cfg (s : State) : (Sys2Proof.Machine.serDev s).cfg = s.cfg := rfl
@[simp] theorem serDev_cmd (s : State) : (Sys2Proof.Machine.serDev s).cmd = s.cmd := rfl
@[simp] theorem serDev_sched (s : State) : (Sys2Proof.Machine.serDev s).sched = s.sched := rfl
@[simp] theorem serDev_policy (s : State) : (Sys2Proof.Machine.serDev s).policy = s.policy := rfl
@[simp] theorem serDev_turns (s : State) : (Sys2Proof.Machine.serDev s).turns = s.turns := rfl
@[simp] theorem serDev_draws (s : State) : (Sys2Proof.Machine.serDev s).draws = s.draws := rfl

/-! ## `tmrDev` -/

@[simp] theorem tmrDev_buf (s : State) : (Sys2Proof.Machine.tmrDev s).buf = s.buf := rfl
@[simp] theorem tmrDev_readIndex (s : State) : (Sys2Proof.Machine.tmrDev s).readIndex = s.readIndex := rfl
@[simp] theorem tmrDev_writeIndex (s : State) : (Sys2Proof.Machine.tmrDev s).writeIndex = s.writeIndex := rfl
@[simp] theorem tmrDev_udr (s : State) : (Sys2Proof.Machine.tmrDev s).udr = s.udr := rfl
@[simp] theorem tmrDev_udre (s : State) : (Sys2Proof.Machine.tmrDev s).udre = s.udre := rfl
@[simp] theorem tmrDev_txie (s : State) : (Sys2Proof.Machine.tmrDev s).txie = s.txie := rfl
@[simp] theorem tmrDev_ubrr (s : State) : (Sys2Proof.Machine.tmrDev s).ubrr = s.ubrr := rfl
@[simp] theorem tmrDev_u2x (s : State) : (Sys2Proof.Machine.tmrDev s).u2x = s.u2x := rfl
@[simp] theorem tmrDev_serCfgd (s : State) : (Sys2Proof.Machine.tmrDev s).serCfgd = s.serCfgd := rfl
@[simp] theorem tmrDev_line (s : State) : (Sys2Proof.Machine.tmrDev s).line = s.line := rfl
@[simp] theorem tmrDev_presc (s : State) : (Sys2Proof.Machine.tmrDev s).presc = s.presc := rfl
@[simp] theorem tmrDev_ocr (s : State) : (Sys2Proof.Machine.tmrDev s).ocr = s.ocr := rfl
@[simp] theorem tmrDev_tmrRun (s : State) : (Sys2Proof.Machine.tmrDev s).tmrRun = s.tmrRun := rfl
@[simp] theorem tmrDev_tick (s : State) : (Sys2Proof.Machine.tmrDev s).tick = s.tick := rfl
@[simp] theorem tmrDev_ocf (s : State) : (Sys2Proof.Machine.tmrDev s).ocf = true := rfl
@[simp] theorem tmrDev_ocie (s : State) : (Sys2Proof.Machine.tmrDev s).ocie = s.ocie := rfl
@[simp] theorem tmrDev_counter (s : State) : (Sys2Proof.Machine.tmrDev s).counter = s.counter := rfl
@[simp] theorem tmrDev_iflag (s : State) : (Sys2Proof.Machine.tmrDev s).iflag = s.iflag := rfl
@[simp] theorem tmrDev_saves (s : State) : (Sys2Proof.Machine.tmrDev s).saves = s.saves := rfl
@[simp] theorem tmrDev_res (s : State) : (Sys2Proof.Machine.tmrDev s).res = s.res := rfl
@[simp] theorem tmrDev_cp (s : State) : (Sys2Proof.Machine.tmrDev s).cp = s.cp := rfl
@[simp] theorem tmrDev_ph (s : State) : (Sys2Proof.Machine.tmrDev s).ph = s.ph := rfl
@[simp] theorem tmrDev_sent (s : State) : (Sys2Proof.Machine.tmrDev s).sent = s.sent := rfl
@[simp] theorem tmrDev_asleep (s : State) : (Sys2Proof.Machine.tmrDev s).asleep = s.asleep := rfl
@[simp] theorem tmrDev_fault (s : State) : (Sys2Proof.Machine.tmrDev s).fault = s.fault := rfl
@[simp] theorem tmrDev_pin (s : State) : (Sys2Proof.Machine.tmrDev s).pin = s.pin := rfl
@[simp] theorem tmrDev_wantInterWordSpace (s : State) : (Sys2Proof.Machine.tmrDev s).wantInterWordSpace = s.wantInterWordSpace := rfl
@[simp] theorem tmrDev_cfg (s : State) : (Sys2Proof.Machine.tmrDev s).cfg = s.cfg := rfl
@[simp] theorem tmrDev_cmd (s : State) : (Sys2Proof.Machine.tmrDev s).cmd = s.cmd := rfl
@[simp] theorem tmrDev_sched (s : State) : (Sys2Proof.Machine.tmrDev s).sched = s.sched := rfl
@[simp] theorem tmrDev_policy (s : State) : (Sys2Proof.Machine.tmrDev s).policy = s.policy := rfl
@[simp] theorem tmrDev_turns (s : State) : (Sys2Proof.Machine.tmrDev s).turns = s.turns := rfl
@[simp] theorem tmrDev_draws (s : State) : (Sys2Proof.Machine.tmrDev s).draws = s.draws := rfl

/-! ## What depends on `cfg` and the indices only -/

@[simp] theorem State.writeSlot_slots (s : State) (k : BitVec 2) (v : Bool) : (s.writeSlot k v).slots = s.slots := rfl
@[simp] theorem State.writeSlot_mask (s : State) (k : BitVec 2) (v : Bool) : (s.writeSlot k v).mask = s.mask := rfl
@[simp] theorem State.writeSlot_slotOf (s : State) (k : BitVec 2) (v : Bool) (x : Half) : (s.writeSlot k v).slotOf x = s.slotOf x := rfl
@[simp] theorem State.writeSlot_empty (s : State) (k : BitVec 2) (v : Bool) : (s.writeSlot k v).empty = s.empty := rfl
@[simp] theorem State.writeSlot_full (s : State) (k : BitVec 2) (v : Bool) : (s.writeSlot k v).full = s.full := rfl
@[simp] theorem State.writeSlot_occupancy (s : State) (k : BitVec 2) (v : Bool) : (s.writeSlot k v).occupancy = s.occupancy := rfl
@[simp] theorem State.writeSlot_free (s : State) (k : BitVec 2) (v : Bool) : (s.writeSlot k v).free = s.free := rfl
@[simp] theorem State.advance_slots (s : State) (n : Nat) : (s.advance n).slots = s.slots := rfl
@[simp] theorem State.advance_mask (s : State) (n : Nat) : (s.advance n).mask = s.mask := rfl
@[simp] theorem State.advance_slotOf (s : State) (n : Nat) (x : Half) : (s.advance n).slotOf x = s.slotOf x := rfl
@[simp] theorem State.advance_empty (s : State) (n : Nat) : (s.advance n).empty = s.empty := rfl
@[simp] theorem State.advance_full (s : State) (n : Nat) : (s.advance n).full = s.full := rfl
@[simp] theorem State.advance_occupancy (s : State) (n : Nat) : (s.advance n).occupancy = s.occupancy := rfl
@[simp] theorem State.advance_free (s : State) (n : Nat) : (s.advance n).free = s.free := rfl
@[simp] theorem State.complete_slots (s : State) (n : Nat) : (s.complete n).slots = s.slots := rfl
@[simp] theorem State.complete_mask (s : State) (n : Nat) : (s.complete n).mask = s.mask := rfl
@[simp] theorem State.complete_slotOf (s : State) (n : Nat) (x : Half) : (s.complete n).slotOf x = s.slotOf x := rfl
@[simp] theorem State.complete_empty (s : State) (n : Nat) : (s.complete n).empty = s.empty := rfl
@[simp] theorem State.complete_full (s : State) (n : Nat) : (s.complete n).full = s.full := rfl
@[simp] theorem State.complete_occupancy (s : State) (n : Nat) : (s.complete n).occupancy = s.occupancy := rfl
@[simp] theorem State.complete_free (s : State) (n : Nat) : (s.complete n).free = s.free := rfl
@[simp] theorem State.writeResult_slots (s : State) (v : Word) : (s.writeResult v).slots = s.slots := rfl
@[simp] theorem State.writeResult_mask (s : State) (v : Word) : (s.writeResult v).mask = s.mask := rfl
@[simp] theorem State.writeResult_slotOf (s : State) (v : Word) (x : Half) : (s.writeResult v).slotOf x = s.slotOf x := rfl
@[simp] theorem State.writeResult_empty (s : State) (v : Word) : (s.writeResult v).empty = s.empty := rfl
@[simp] theorem State.writeResult_full (s : State) (v : Word) : (s.writeResult v).full = s.full := rfl
@[simp] theorem State.writeResult_occupancy (s : State) (v : Word) : (s.writeResult v).occupancy = s.occupancy := rfl
@[simp] theorem State.writeResult_free (s : State) (v : Word) : (s.writeResult v).free = s.free := rfl
@[simp] theorem State.sleepNow_slots (s : State) : (s.sleepNow).slots = s.slots := rfl
@[simp] theorem State.sleepNow_mask (s : State) : (s.sleepNow).mask = s.mask := rfl
@[simp] theorem State.sleepNow_slotOf (s : State) (x : Half) : (s.sleepNow).slotOf x = s.slotOf x := rfl
@[simp] theorem State.sleepNow_empty (s : State) : (s.sleepNow).empty = s.empty := rfl
@[simp] theorem State.sleepNow_full (s : State) : (s.sleepNow).full = s.full := rfl
@[simp] theorem State.sleepNow_occupancy (s : State) : (s.sleepNow).occupancy = s.occupancy := rfl
@[simp] theorem State.sleepNow_free (s : State) : (s.sleepNow).free = s.free := rfl
@[simp] theorem State.raise_slots (s : State) (c : FaultCode) : (s.raise c).slots = s.slots := rfl
@[simp] theorem State.raise_mask (s : State) (c : FaultCode) : (s.raise c).mask = s.mask := rfl
@[simp] theorem State.raise_slotOf (s : State) (c : FaultCode) (x : Half) : (s.raise c).slotOf x = s.slotOf x := rfl
@[simp] theorem State.raise_empty (s : State) (c : FaultCode) : (s.raise c).empty = s.empty := rfl
@[simp] theorem State.raise_full (s : State) (c : FaultCode) : (s.raise c).full = s.full := rfl
@[simp] theorem State.raise_occupancy (s : State) (c : FaultCode) : (s.raise c).occupancy = s.occupancy := rfl
@[simp] theorem State.raise_free (s : State) (c : FaultCode) : (s.raise c).free = s.free := rfl
@[simp] theorem State.enterInterrupt_slots (s : State) : (s.enterInterrupt).slots = s.slots := rfl
@[simp] theorem State.enterInterrupt_mask (s : State) : (s.enterInterrupt).mask = s.mask := rfl
@[simp] theorem State.enterInterrupt_slotOf (s : State) (x : Half) : (s.enterInterrupt).slotOf x = s.slotOf x := rfl
@[simp] theorem State.enterInterrupt_empty (s : State) : (s.enterInterrupt).empty = s.empty := rfl
@[simp] theorem State.enterInterrupt_full (s : State) : (s.enterInterrupt).full = s.full := rfl
@[simp] theorem State.enterInterrupt_occupancy (s : State) : (s.enterInterrupt).occupancy = s.occupancy := rfl
@[simp] theorem State.enterInterrupt_free (s : State) : (s.enterInterrupt).free = s.free := rfl
@[simp] theorem State.returnInterrupt_slots (s : State) : (s.returnInterrupt).slots = s.slots := rfl
@[simp] theorem State.returnInterrupt_mask (s : State) : (s.returnInterrupt).mask = s.mask := rfl
@[simp] theorem State.returnInterrupt_slotOf (s : State) (x : Half) : (s.returnInterrupt).slotOf x = s.slotOf x := rfl
@[simp] theorem State.returnInterrupt_empty (s : State) : (s.returnInterrupt).empty = s.empty := rfl
@[simp] theorem State.returnInterrupt_full (s : State) : (s.returnInterrupt).full = s.full := rfl
@[simp] theorem State.returnInterrupt_occupancy (s : State) : (s.returnInterrupt).occupancy = s.occupancy := rfl
@[simp] theorem State.returnInterrupt_free (s : State) : (s.returnInterrupt).free = s.free := rfl
@[simp] theorem State.pushByte_slots (s : State) (b : Byte) : (s.pushByte b).slots = s.slots := rfl
@[simp] theorem State.pushByte_mask (s : State) (b : Byte) : (s.pushByte b).mask = s.mask := rfl
@[simp] theorem State.pushByte_slotOf (s : State) (b : Byte) (x : Half) : (s.pushByte b).slotOf x = s.slotOf x := rfl
@[simp] theorem State.popByte_slots (s : State) : (s.popByte).slots = s.slots := rfl
@[simp] theorem State.popByte_mask (s : State) : (s.popByte).mask = s.mask := rfl
@[simp] theorem State.popByte_slotOf (s : State) (x : Half) : (s.popByte).slotOf x = s.slotOf x := rfl
@[simp] theorem State.tickOnce_slots (s : State) : (s.tickOnce).slots = s.slots := rfl
@[simp] theorem State.tickOnce_mask (s : State) : (s.tickOnce).mask = s.mask := rfl
@[simp] theorem State.tickOnce_slotOf (s : State) (x : Half) : (s.tickOnce).slotOf x = s.slotOf x := rfl
@[simp] theorem State.tickOnce_empty (s : State) : (s.tickOnce).empty = s.empty := rfl
@[simp] theorem State.tickOnce_full (s : State) : (s.tickOnce).full = s.full := rfl
@[simp] theorem State.tickOnce_occupancy (s : State) : (s.tickOnce).occupancy = s.occupancy := rfl
@[simp] theorem State.tickOnce_free (s : State) : (s.tickOnce).free = s.free := rfl
@[simp] theorem State.takeTurn_slots (s : State) : (s.takeTurn).slots = s.slots := rfl
@[simp] theorem State.takeTurn_mask (s : State) : (s.takeTurn).mask = s.mask := rfl
@[simp] theorem State.takeTurn_slotOf (s : State) (x : Half) : (s.takeTurn).slotOf x = s.slotOf x := rfl
@[simp] theorem State.takeTurn_empty (s : State) : (s.takeTurn).empty = s.empty := rfl
@[simp] theorem State.takeTurn_full (s : State) : (s.takeTurn).full = s.full := rfl
@[simp] theorem State.takeTurn_occupancy (s : State) : (s.takeTurn).occupancy = s.occupancy := rfl
@[simp] theorem State.takeTurn_free (s : State) : (s.takeTurn).free = s.free := rfl
@[simp] theorem State.load_slots (s : State) (bytes : List Byte) : (s.load bytes).slots = s.slots := rfl
@[simp] theorem State.load_mask (s : State) (bytes : List Byte) : (s.load bytes).mask = s.mask := rfl
@[simp] theorem State.load_slotOf (s : State) (bytes : List Byte) (x : Half) : (s.load bytes).slotOf x = s.slotOf x := rfl
@[simp] theorem State.load_empty (s : State) (bytes : List Byte) : (s.load bytes).empty = s.empty := rfl
@[simp] theorem State.load_full (s : State) (bytes : List Byte) : (s.load bytes).full = s.full := rfl
@[simp] theorem State.load_occupancy (s : State) (bytes : List Byte) : (s.load bytes).occupancy = s.occupancy := rfl
@[simp] theorem State.load_free (s : State) (bytes : List Byte) : (s.load bytes).free = s.free := rfl

end Sys2Proof.Machine
end

