-- ==== Sys2Proof/Laws/Ring.lean ====
section
/-! SUPPORT. The laws of the ring: index arithmetic under the mask (20_memory.md R64), the occupancy, the queue of bytes
held, and one spec lemma each for push, pop, the enqueue loop and push_bytes. -/

namespace Sys2Proof.Machine

/-! ## Index arithmetic -/

theorem State.two_le_slots (s : State) : 2 ≤ s.slots := by
  have h : 2 ^ 1 ≤ 2 ^ (s.cfg.ringExp.val + 1) := Nat.pow_le_pow_right (by decide) (by omega)
  simpa [State.slots] using h

theorem State.slots_dvd (s : State) : s.slots ∣ 65536 := by
  have h : s.cfg.ringExp.val + 1 ≤ 16 := by omega
  have := pow_dvd_pow 2 h
  simpa [State.slots] using this

theorem State.slots_le (s : State) : s.slots ≤ 65536 := Nat.le_of_dvd (by decide) s.slots_dvd

@[simp] theorem State.mask_toNat (s : State) : s.mask.toNat = s.slots - 1 := by
  have h1 := s.slots_le
  have h2 := s.two_le_slots
  simp only [State.mask, BitVec.toNat_ofNat]
  exact Nat.mod_eq_of_lt (by omega)

/-- The mask keeps the index modulo `N`. -/
theorem State.and_mask_toNat (s : State) (x : Half) : (x &&& s.mask).toNat = x.toNat % s.slots := by
  rw [BitVec.toNat_and, s.mask_toNat]
  simp only [State.slots]
  exact Nat.and_two_pow_sub_one_eq_mod _ _

theorem State.slotOf_eq (s : State) (x : Half) : s.slotOf x = x.toNat % s.slots := s.and_mask_toNat x

theorem State.slotOf_lt (s : State) (x : Half) : s.slotOf x < s.slots := by
  rw [s.slotOf_eq]; exact Nat.mod_lt _ (by have := s.two_le_slots; omega)

/-- Wrap-around of the storage width does not disturb the slot selected (20 R64). -/
theorem State.slotOf_add (s : State) (x : Half) (j : Nat) :
    s.slotOf (x + BitVec.ofNat 16 j) = (s.slotOf x + j) % s.slots := by
  rw [s.slotOf_eq, s.slotOf_eq, BitVec.toNat_add, BitVec.toNat_ofNat]
  show (x.toNat + j % 65536) % 65536 % s.slots = (x.toNat % s.slots + j) % s.slots
  rw [Nat.mod_mod_of_dvd _ s.slots_dvd, Nat.add_mod x.toNat, Nat.mod_mod_of_dvd _ s.slots_dvd, ← Nat.add_mod,
    Nat.mod_add_mod]

/-! ## Occupancy -/

theorem State.occupancy_lt (s : State) : s.occupancy < s.slots := by
  unfold State.occupancy
  rw [s.and_mask_toNat]; exact Nat.mod_lt _ (by have := s.two_le_slots; omega)

/-- The occupancy is the distance of the indices modulo `N`. -/
theorem State.occupancy_eq (s : State) :
    (s.slotOf s.readIndex + s.occupancy) % s.slots = s.slotOf s.writeIndex := by
  unfold State.occupancy
  rw [s.and_mask_toNat, s.slotOf_eq, s.slotOf_eq, ← Nat.add_mod, BitVec.toNat_sub]
  show (s.readIndex.toNat + (65536 - s.readIndex.toNat + s.writeIndex.toNat) % 65536) % s.slots = _
  rw [Nat.add_mod, Nat.mod_mod_of_dvd _ s.slots_dvd, ← Nat.add_mod]
  have hr := s.readIndex.isLt
  rw [show s.readIndex.toNat + (65536 - s.readIndex.toNat + s.writeIndex.toNat) = 65536 + s.writeIndex.toNat by omega]
  obtain ⟨q, hq⟩ := s.slots_dvd
  rw [hq, Nat.mul_add_mod]

/-- The occupancy is the only number below `N` at that distance. -/
theorem State.occupancy_unique (s : State) {k : Nat} (hk : k < s.slots)
    (h : (s.slotOf s.readIndex + k) % s.slots = s.slotOf s.writeIndex) : s.occupancy = k := by
  have h1 : (s.slotOf s.readIndex + s.occupancy) ≡ (s.slotOf s.readIndex + k) [MOD s.slots] := by
    unfold Nat.ModEq; rw [s.occupancy_eq, h]
  have h2 := Nat.ModEq.add_left_cancel' _ h1
  unfold Nat.ModEq at h2
  rwa [Nat.mod_eq_of_lt s.occupancy_lt, Nat.mod_eq_of_lt hk] at h2

theorem State.empty_iff (s : State) : s.empty = true ↔ s.slotOf s.readIndex = s.slotOf s.writeIndex := by
  unfold State.empty State.slotOf
  rw [beq_iff_eq]
  exact ⟨fun h => by rw [h], fun h => BitVec.eq_of_toNat_eq h⟩

theorem State.empty_iff_occupancy (s : State) : s.empty = true ↔ s.occupancy = 0 := by
  rw [s.empty_iff]
  have hlt := s.slotOf_lt s.readIndex
  constructor
  · intro h
    refine s.occupancy_unique (by omega) ?_
    rw [Nat.add_zero, Nat.mod_eq_of_lt hlt, h]
  · intro h
    have := s.occupancy_eq
    rwa [h, Nat.add_zero, Nat.mod_eq_of_lt hlt] at this

theorem State.full_iff_occupancy (s : State) : s.full = true ↔ s.occupancy + 1 = s.slots := by
  have hocc := s.occupancy_eq
  have hlt := s.occupancy_lt
  have hr := s.slotOf_lt s.readIndex
  have h2 := s.two_le_slots
  have key : s.full = true ↔ s.slotOf (s.writeIndex + BitVec.ofNat 16 1) = s.slotOf s.readIndex := by
    unfold State.full State.slotOf
    rw [beq_iff_eq]
    exact ⟨fun h => congrArg _ h, fun h => BitVec.eq_of_toNat_eq h⟩
  rw [key, s.slotOf_add, ← hocc, Nat.mod_add_mod]
  constructor
  · intro h
    by_contra hne
    have : s.occupancy + 1 < s.slots := by omega
    have h3 : s.slotOf s.readIndex + (s.occupancy + 1) ≡ s.slotOf s.readIndex + 0 [MOD s.slots] := by
      unfold Nat.ModEq; rw [← Nat.add_assoc, h, Nat.add_zero, Nat.mod_eq_of_lt hr]
    have h4 := Nat.ModEq.add_left_cancel' _ h3
    unfold Nat.ModEq at h4
    rw [Nat.mod_eq_of_lt this, Nat.zero_mod] at h4
    omega
  · intro h
    rw [Nat.add_assoc, h, Nat.add_mod_right, Nat.mod_eq_of_lt hr]

theorem State.full_iff_free (s : State) : s.full = true ↔ s.free = 0 := by
  rw [s.full_iff_occupancy]
  have := s.occupancy_lt
  unfold State.free; omega

theorem State.free_add_occupancy (s : State) : s.free + s.occupancy + 1 = s.slots := by
  have := s.occupancy_lt
  unfold State.free; omega

/-! ## Push and pop -/

theorem State.occupancy_pushByte {s : State} (h : s.full = false) (b : Byte) :
    (s.pushByte b).occupancy = s.occupancy + 1 := by
  have hf : ¬ s.occupancy + 1 = s.slots := by rw [← s.full_iff_occupancy, h]; decide
  have := s.occupancy_lt
  refine State.occupancy_unique _ (by simp; omega) ?_
  simp only [State.pushByte_slots, State.pushByte_slotOf, State.pushByte_readIndex, State.pushByte_writeIndex]
  rw [s.slotOf_add s.writeIndex 1, ← s.occupancy_eq, Nat.mod_add_mod, Nat.add_assoc]

theorem State.occupancy_popByte {s : State} (h : s.empty = false) :
    s.popByte.occupancy + 1 = s.occupancy := by
  have he : ¬ s.occupancy = 0 := by rw [← s.empty_iff_occupancy, h]; decide
  have := s.occupancy_lt
  have key : s.popByte.occupancy = s.occupancy - 1 := by
    refine State.occupancy_unique _ (by simp; omega) ?_
    simp only [State.popByte_slots, State.popByte_slotOf, State.popByte_readIndex, State.popByte_writeIndex]
    rw [s.slotOf_add s.readIndex 1, Nat.mod_add_mod, Nat.add_assoc, show 1 + (s.occupancy - 1) = s.occupancy by omega,
      s.occupancy_eq]
  omega

theorem State.queue_length (s : State) : s.queue.length = s.occupancy := by simp [State.queue]

/-- The queue depends on the storage, the indices and the configuration only. -/
theorem State.queue_congr {s t : State} (hb : t.buf = s.buf) (hr : t.readIndex = s.readIndex)
    (hw : t.writeIndex = s.writeIndex) (hc : t.cfg = s.cfg) : t.queue = s.queue := by
  unfold State.queue State.occupancy State.slotOf State.mask State.slots
  rw [hb, hr, hw, hc]

/-- A push appends its byte to the queue (20 R62, R73). -/
theorem State.queue_pushByte {s : State} (hwf : s.ringWf) (h : s.full = false) (b : Byte) :
    (s.pushByte b).queue = s.queue ++ [b] := by
  have hlt : s.occupancy + 1 < s.slots := by
    have h1 := s.occupancy_lt
    have h2 : ¬ s.occupancy + 1 = s.slots := by rw [← s.full_iff_occupancy, h]; decide
    omega
  unfold State.queue
  rw [State.occupancy_pushByte h, List.range_succ, List.map_append]
  simp only [State.pushByte_slotOf, State.pushByte_readIndex, State.pushByte_buf, List.map_cons, List.map_nil]
  congr 1
  · refine List.map_congr_left fun j hj => ?_
    rw [List.mem_range] at hj
    refine Memory.read_write_of_ne _ _ fun he => ?_
    rw [s.slotOf_add, ← s.occupancy_eq] at he
    have h3 := Nat.ModEq.add_left_cancel' _ (show s.slotOf s.readIndex + j ≡ s.slotOf s.readIndex + s.occupancy
      [MOD s.slots] from he)
    unfold Nat.ModEq at h3
    rw [Nat.mod_eq_of_lt (by omega), Nat.mod_eq_of_lt (by omega)] at h3
    omega
  · rw [s.slotOf_add, s.occupancy_eq, Memory.read_write_self hwf]

/-- A pop takes the head of the queue to `UDR` (20 R63, R73). -/
theorem State.queue_popByte {s : State} (h : s.empty = false) :
    s.queue = s.popByte.udr :: s.popByte.queue := by
  unfold State.queue
  rw [← State.occupancy_popByte h, List.range_succ_eq_map, List.map_cons, List.map_map]
  congr 1
  · simp
  · refine List.map_congr_left fun j _ => ?_
    simp only [Function.comp, State.popByte_slotOf, State.popByte_readIndex, State.popByte_buf]
    congr 2
    rw [Nat.succ_eq_add_one, Nat.add_comm j 1, BitVec.ofNat_add, ← BitVec.add_assoc]

theorem State.ringWf_pushByte {s : State} (hwf : s.ringWf) (b : Byte) : (s.pushByte b).ringWf :=
  Memory.wf_write hwf (s.slotOf_lt _) b

/-! ## The enqueue loop -/

@[simp] theorem State.enqueue_nil (s : State) : State.enqueue [] s = (0, s) := rfl

theorem State.enqueue_of_full {s : State} (h : s.full = true) (d : List Byte) : State.enqueue d s = (0, s) := by
  cases d with
  | nil => rfl
  | cons b d => simp [State.enqueue, h]

theorem State.enqueue_cons {s : State} (h : s.full = false) (b : Byte) (d : List Byte) :
    State.enqueue (b :: d) s = ((State.enqueue d (s.pushByte b)).1 + 1, (State.enqueue d (s.pushByte b)).2) := by
  simp [State.enqueue, h]

/-- All that the enqueue loop does: the count is `min(L, free)` (42 R140), the first so many bytes join the queue, and
nothing but the storage and `write_index` changes. -/
theorem State.enqueue_spec (d : List Byte) (s : State) :
    (State.enqueue d s).1 = min d.length s.free ∧
    (State.enqueue d s).2 =
      { s with
        buf := (State.enqueue d s).2.buf
        writeIndex := s.writeIndex + BitVec.ofNat 16 (min d.length s.free) } := by
  induction d generalizing s with
  | nil => simp
  | cons b d ih =>
    by_cases hf : s.full = true
    · have h0 := s.full_iff_free.1 hf
      simp [State.enqueue_of_full hf, h0]
    · have hf : s.full = false := by simpa using hf
      have hfree : s.free = (s.pushByte b).free + 1 := by
        have h1 := s.free_add_occupancy
        have h2 := (s.pushByte b).free_add_occupancy
        rw [State.occupancy_pushByte hf, State.pushByte_slots] at h2
        omega
      obtain ⟨h1, h2⟩ := ih (s.pushByte b)
      rw [State.enqueue_cons hf]
      have hk : min (b :: d).length s.free = min d.length (s.pushByte b).free + 1 := by
        rw [hfree]; simp
      refine ⟨by rw [h1, hk], ?_⟩
      rw [hk]
      rw [h2]
      simp only [State.pushByte]
      congr 1
      rw [BitVec.ofNat_add, BitVec.add_assoc, BitVec.add_comm (BitVec.ofNat 16 1)]

theorem State.enqueue_ringWf {s : State} (hwf : s.ringWf) (d : List Byte) : (State.enqueue d s).2.ringWf := by
  induction d generalizing s with
  | nil => exact hwf
  | cons b d ih =>
    by_cases hf : s.full = true
    · rw [State.enqueue_of_full hf]; exact hwf
    · rw [State.enqueue_cons (by simpa using hf)]; exact ih (State.ringWf_pushByte hwf b)

theorem State.enqueue_queue {s : State} (hwf : s.ringWf) (d : List Byte) :
    (State.enqueue d s).2.queue = s.queue ++ d.take s.free := by
  induction d generalizing s with
  | nil => simp
  | cons b d ih =>
    by_cases hf : s.full = true
    · rw [State.enqueue_of_full hf, s.full_iff_free.1 hf]; simp
    · have hf : s.full = false := by simpa using hf
      have hfree : s.free = (s.pushByte b).free + 1 := by
        have h1 := s.free_add_occupancy
        have h2 := (s.pushByte b).free_add_occupancy
        rw [State.occupancy_pushByte hf, State.pushByte_slots] at h2
        omega
      rw [State.enqueue_cons hf, ih (State.ringWf_pushByte hwf b), State.queue_pushByte hwf hf, hfree]
      simp

/-- The loop stores only where it pushes: byte `j` in slot `(write_index + j) & MASK`, and every other slot keeps its
byte. -/
theorem State.enqueue_read {s : State} (d : List Byte) (a : Nat)
    (h : ∀ j < min d.length s.free, a ≠ s.slotOf (s.writeIndex + BitVec.ofNat 16 j)) :
    (State.enqueue d s).2.buf.read a = s.buf.read a := by
  induction d generalizing s with
  | nil => rfl
  | cons b d ih =>
    by_cases hf : s.full = true
    · rw [State.enqueue_of_full hf]
    · have hf : s.full = false := by simpa using hf
      have hfree : s.free = (s.pushByte b).free + 1 := by
        have h1 := s.free_add_occupancy
        have h2 := (s.pushByte b).free_add_occupancy
        rw [State.occupancy_pushByte hf, State.pushByte_slots] at h2
        omega
      rw [hfree] at h
      rw [State.enqueue_cons hf, ih]
      · rw [State.pushByte_buf]
        refine Memory.read_write_of_ne _ _ ?_
        simpa using h 0 (by simp)
      · intro j hj
        have := h (j + 1) (by simp; omega)
        rwa [Nat.add_comm, BitVec.ofNat_add, ← BitVec.add_assoc] at this

/-! ## push_bytes -/

@[simp] theorem State.arm_eq (s : State) : s.arm = { s with txie := true } := by
  unfold State.arm
  split
  · next h => cases s; simp_all
  · rfl

theorem State.pushBytes_of_transition {d : List Byte} {s : State} (he : s.empty = true) (hd : d ≠ []) :
    State.pushBytes d s =
      (min d.length s.free, ({ (State.enqueue d s).2 with txie := true } : State).handOff) := by
  have hk : 0 < min d.length s.free := by
    have h0 := (s.empty_iff_occupancy).1 he
    have h1 := s.free_add_occupancy
    have h2 := s.two_le_slots
    have h3 : 0 < d.length := List.length_pos_of_ne_nil hd
    omega
  unfold State.pushBytes
  rw [if_pos ⟨he, by rw [(State.enqueue_spec d s).1]; exact hk⟩, State.arm_eq, (State.enqueue_spec d s).1]

theorem State.pushBytes_of_no_transition {d : List Byte} {s : State} (h : s.empty = false ∨ d = []) :
    State.pushBytes d s = State.enqueue d s := by
  unfold State.pushBytes
  rw [if_neg]
  rintro ⟨he, hk⟩
  rcases h with h | rfl
  · simp_all
  · simp at hk

/-- The count of push_bytes is `min(L, free)` (42 R140, R146). -/
theorem State.pushBytes_count (d : List Byte) (s : State) : (State.pushBytes d s).1 = min d.length s.free := by
  by_cases h : s.empty = false ∨ d = []
  · rw [State.pushBytes_of_no_transition h, (State.enqueue_spec d s).1]
  · push Not at h
    rw [State.pushBytes_of_transition (by simpa using h.1) h.2]

end Sys2Proof.Machine
end

