-- ==== Sys2Proof/Laws/Ops.lean ====
section
/-! SUPPORT. One spec lemma per shared operation, saying all that it does; proofs cite it and do not unfold the
operation. -/

namespace Sys2Proof.Machine

/-! ## Faults -/

/-- The first fault is the one that stays (10 R37, 60 R230). -/
theorem State.raise_of_fault {s : State} {c : FaultCode} (h : s.fault = some c) (c' : FaultCode) : s.raise c' = s := by
  cases s; simp_all [State.raise]

theorem State.raise_of_none {s : State} (h : s.fault = none) (c : FaultCode) :
    s.raise c = { s with fault := some c } := by
  simp [State.raise, h]

/-! ## Save slots -/

@[simp] theorem State.slot_writeSlot_self (s : State) (k : BitVec 2) (v : Bool) :
    (s.writeSlot k v).slot k = ⟨v, true⟩ := by
  simp [State.slot, State.writeSlot]

theorem State.slot_writeSlot_of_ne (s : State) {k k' : BitVec 2} (v : Bool) (h : k' ≠ k) :
    (s.writeSlot k v).slot k' = s.slot k' := by
  have h : k.toNat ≠ k'.toNat := fun he => h (BitVec.eq_of_toNat_eq he.symm)
  simp [State.slot, State.writeSlot, Vector.getElem_set_ne, h]

/-- A slot depends on the slots only. -/
theorem State.slot_congr {s t : State} (h : t.saves = s.saves) (k : BitVec 2) : t.slot k = s.slot k := by
  simp [State.slot, h]

/-! ## push_bytes -/

/-- The hand-off is a pop exactly when the register is empty (42 R143). -/
theorem State.handOff_spec (s : State) :
    s.handOff =
      { s with
        readIndex := if s.udre then s.readIndex + 1#16 else s.readIndex
        udr := if s.udre then s.buf.read (s.slotOf s.readIndex) else s.udr
        udre := false } := by
  unfold State.handOff
  split
  · simp_all [State.popByte]
  · next h => cases s; simp_all

/-- All that push_bytes does to the state (42 R140): `k = min(L, free)` bytes are stored and `write_index` advances by
`k`; on an empty to non-empty transition `TXIE` is set (R142), and if `UDRE` was 1 the byte at the head is handed off
(R143). -/
theorem State.pushBytes_spec (d : List Byte) (s : State) :
    (State.pushBytes d s).1 = min d.length s.free ∧
    (State.pushBytes d s).2 =
      { s with
        buf := (State.enqueue d s).2.buf
        writeIndex := s.writeIndex + BitVec.ofNat 16 (min d.length s.free)
        readIndex := if s.empty = true ∧ d ≠ [] ∧ s.udre = true then s.readIndex + 1#16 else s.readIndex
        udr := if s.empty = true ∧ d ≠ [] ∧ s.udre = true
          then (State.enqueue d s).2.buf.read (s.slotOf s.readIndex) else s.udr
        udre := if s.empty = true ∧ d ≠ [] then false else s.udre
        txie := if s.empty = true ∧ d ≠ [] then true else s.txie } := by
  refine ⟨State.pushBytes_count d s, ?_⟩
  have hq := (State.enqueue_spec d s).2
  by_cases h : s.empty = false ∨ d = []
  · rw [State.pushBytes_of_no_transition h]
    have hn : ¬ (s.empty = true ∧ d ≠ []) := by rintro ⟨h1, h2⟩; rcases h with h | h <;> simp_all
    have hn' : ¬ (s.empty = true ∧ d ≠ [] ∧ s.udre = true) := fun hc => hn ⟨hc.1, hc.2.1⟩
    rw [if_neg hn', if_neg hn', if_neg hn, if_neg hn]
    exact hq
  · push Not at h
    have he : s.empty = true := by simpa using h.1
    rw [State.pushBytes_of_transition he h.2, State.handOff_spec]
    have hslot : ({ (State.enqueue d s).2 with txie := true } : State).slotOf = s.slotOf := by
      rw [hq]; rfl
    simp only [hslot]
    rw [hq]
    simp only [he, h.2, ne_eq, not_false_eq_true, true_and, and_self, if_true]

theorem State.pushBytes_ringWf {s : State} (hwf : s.ringWf) (d : List Byte) : (State.pushBytes d s).2.ringWf := by
  have h := State.enqueue_ringWf hwf d
  rw [(State.pushBytes_spec d s).2]
  rw [(State.enqueue_spec d s).2] at h
  exact h

/-! ## The tick amount -/

/-- The accepted tick amounts are the whole numbers from 1 to `2^32 - 1` (43 R167). -/
theorem acceptedTick_eq_some {q : Rat} {t : Word} : acceptedTick q = some t ↔ q = (t.toNat : Rat) ∧ t ≠ 0#32 := by
  unfold acceptedTick
  constructor
  · intro h
    split at h
    · next hc =>
      obtain ⟨h1, h2, h3⟩ := hc
      rw [Option.some.injEq] at h
      have hn : q.num.toNat < 2 ^ 32 := by omega
      have ht : t.toNat = q.num.toNat := by
        rw [← h, BitVec.toNat_ofNat]; exact Nat.mod_eq_of_lt hn
      refine ⟨?_, ?_⟩
      · rw [ht]
        have hq : (q.num : Rat) = q := Rat.coe_int_num_of_den_eq_one h1
        have : ((q.num.toNat : Int) : Rat) = (q.num : Rat) := by rw [Int.toNat_of_nonneg (by omega)]
        exact hq.symm.trans (this.symm.trans (Int.cast_natCast _))
      · intro h0
        rw [h0] at ht
        have h0' : (0#32 : Word).toNat = 0 := rfl
        omega
    · exact absurd h (by simp)
  · rintro ⟨rfl, h0⟩
    have hlt := t.isLt
    have hne : t.toNat ≠ 0 := fun hc => h0 (BitVec.eq_of_toNat_eq (by simpa using hc))
    rw [if_pos ⟨Rat.den_natCast _, by rw [Rat.num_natCast]; omega, by rw [Rat.num_natCast]; omega⟩]
    simp

end Sys2Proof.Machine
end

