-- ==== Sys2Proof/Laws/Step.lean ====
section
/-! SUPPORT. What one step of the block can do, said once: the inversion lemmas of `step`, of FG's step and of the
composite commands. -/

namespace Sys2Proof.Machine

/-! ## Turns -/

theorem State.moves_iff {s : State} {a : Agent} : s.moves a = true ↔ s.nextAgent = a ∧ s.enabled a = true := by
  simp [State.moves]

theorem State.anyEnabled_iff {s : State} : s.anyEnabled = true ↔ ∃ a, s.enabled a = true := by
  constructor
  · intro h
    simp only [State.anyEnabled, Bool.or_eq_true] at h
    rcases h with (((h | h) | h) | h) | h <;> exact ⟨_, h⟩
  · rintro ⟨a, h⟩
    cases a <;> simp [State.anyEnabled, h]

theorem State.anyEnabled_of_moves {s : State} {a : Agent} (h : s.moves a = true) : s.anyEnabled = true :=
  State.anyEnabled_iff.2 ⟨a, (State.moves_iff.1 h).2⟩

/-- A step is the step of the agent whose turn it is, if that agent is enabled. -/
theorem step_of_moves {s : State} {a : Agent} (h : s.moves a = true) : step s = runAgent a s.takeTurn := by
  have h1 := State.anyEnabled_of_moves h
  obtain ⟨h2, h3⟩ := State.moves_iff.1 h
  simp [step, blockStep, h1, h2, h3]

/-- All that a step can do: the turn passes, or the one agent whose turn it is steps. -/
theorem step_cases {s t : State} (h : step s = .next t) :
    ((∀ a, s.moves a = false) ∧ t = s.takeTurn) ∨
    (s.moves .fg = true ∧ fgStep s.takeTurn = .next t) ∨
    (s.moves .txisr = true ∧ t = txIsr s.takeTurn) ∨
    (s.moves .tmrisr = true ∧ t = tmrIsr s.takeTurn) ∨
    (s.moves .serdev = true ∧ t = serDev s.takeTurn) ∨
    (s.moves .tmrdev = true ∧ t = tmrDev s.takeTurn) := by
  by_cases hm : ∃ a, s.moves a = true
  · obtain ⟨a, ha⟩ := hm
    rw [step_of_moves ha] at h
    cases a <;> simp only [runAgent, Host.Outcome.next.injEq] at h <;> simp [ha, h]
  · left
    have hall : ∀ a, s.moves a = false := fun a => by
      by_contra hc
      exact hm ⟨a, by simpa using hc⟩
    refine ⟨hall, ?_⟩
    have hne : s.enabled s.nextAgent = false := by
      have := hall s.nextAgent
      simpa [State.moves] using this
    unfold step blockStep at h
    split at h
    · rw [hne] at h
      simpa using h.symm
    · exact absurd h (by simp)

/-- At most one agent moves. -/
theorem State.moves_unique {s : State} {a b : Agent} (ha : s.moves a = true) (hb : s.moves b = true) : a = b := by
  rw [← (State.moves_iff.1 ha).1, ← (State.moves_iff.1 hb).1]

/-- FG's step on the command at `cp`. -/
theorem fgStep_of_decode {s : State} {i : Instr} (h : decode s.fetch = .ok i) : fgStep s = exec i s := by
  simp [fgStep, h]

/-- FG's step where no command can be decoded (30 R87, R88). -/
theorem fgStep_of_illegal {s : State} {e : Illegal} (h : decode s.fetch = .error e) :
    fgStep s = .next (s.raise .illegalCommand) := by
  simp [fgStep, h]

@[simp] theorem State.takeTurn_fetch (s : State) : s.takeTurn.fetch = s.fetch := rfl

/-- FG's step answers through `exec`, or raises `IllegalCommand`. -/
theorem fgStep_cases {s t : State} (h : fgStep s = .next t) :
    (∃ i, decode s.fetch = .ok i ∧ exec i s = .next t) ∨
    (∃ e, decode s.fetch = .error e ∧ t = s.raise .illegalCommand) := by
  cases hd : decode s.fetch with
  | ok i => left; exact ⟨i, rfl, by rw [← fgStep_of_decode hd]; exact h⟩
  | error e =>
    right
    rw [fgStep_of_illegal hd, Host.Outcome.next.injEq] at h
    exact ⟨e, rfl, h.symm⟩

/-! ## The handlers, field by field -/

/-- All that the drain handler does (60 R217). -/
theorem txIsr_spec (s : State) :
    txIsr s =
      if s.empty then { s with txie := false, iflag := true, asleep := false }
      else
        { s with
          udr := s.buf.read (s.slotOf s.readIndex), udre := false, readIndex := s.readIndex + 1#16
          iflag := true, asleep := false } := by
  unfold txIsr State.drain
  rw [State.enterInterrupt_empty]
  split <;> rfl

/-- All that the tick handler does (60 R218). -/
theorem tmrIsr_spec (s : State) :
    tmrIsr s = { s with counter := s.counter + s.tick, ocf := false, iflag := true, asleep := false } := rfl

/-! ## Runs -/

@[simp] theorem runSteps_zero (s : State) : runSteps 0 s = .next s := rfl

theorem runSteps_succ (n : Nat) (s : State) :
    runSteps (n + 1) s =
      match step s with
      | .next t => runSteps n t
      | .fault f => .fault f
      | .refused r => .refused r := rfl

/-- One step of the host's run, for any machine. -/
theorem core_run_succ (M : Host.Core) (n : Nat) (s : M.State) :
    (∀ t, M.step s = .next t → M.run (n + 1) s = M.run n t) ∧
    (∀ f, M.step s = .fault f → M.run (n + 1) s = .fault f) ∧
    (∀ r, M.step s = .refused r → M.run (n + 1) s = .refused r) := by
  refine ⟨fun t h => ?_, fun f h => ?_, fun r h => ?_⟩ <;> simp [Host.Core.run, h]

/-- A run is the host's run of the machine. -/
theorem runSteps_eq_core_run (n : Nat) (s : State) : runSteps n s = Host.Core.run Sys2Proof.core n s := by
  induction n generalizing s with
  | zero => rfl
  | succ n ih =>
    obtain ⟨h1, h2, h3⟩ := core_run_succ Sys2Proof.core n s
    rw [runSteps_succ]
    cases h : step s with
    | next t => exact (ih t).trans (h1 t h).symm
    | fault f => exact (h2 f h).symm
    | refused r => exact (h3 r h).symm

/-- A run of `n + 1` steps is a step and a run of `n`. -/
theorem runSteps_succ_eq_next {n : Nat} {s u : State} :
    runSteps (n + 1) s = .next u ↔ ∃ t, step s = .next t ∧ runSteps n t = .next u := by
  rw [runSteps_succ]
  cases step s <;> simp

/-- What every step keeps, every run keeps. -/
theorem runSteps_induction {P : State → Prop} (hstep : ∀ s t, P s → step s = .next t → P t) {n : Nat} {s t : State}
    (h : P s) (hr : runSteps n s = .next t) : P t := by
  induction n generalizing s with
  | zero => rw [runSteps_zero, Host.Outcome.next.injEq] at hr; exact hr ▸ h
  | succ n ih =>
    obtain ⟨u, hu, hr⟩ := runSteps_succ_eq_next.1 hr
    exact ih (hstep s u h hu) hr

end Sys2Proof.Machine
end

