-- ==== Sys2Proof/Laws/Commands.lean ====
section
/-! SUPPORT. What the shared parts of the commands do, said once: push_bytes and the attempt of SENDALL field by field,
the wait of WAITMS and WAITUS, the pin write, and that every command answers a next state. -/

namespace Sys2Proof.Machine

/-! ## push_bytes leaves all but the ring and the transmitter's bits (42 R140) -/

@[simp] theorem State.pushBytes_ubrr (d : List Byte) (s : State) : (State.pushBytes d s).2.ubrr = s.ubrr := by
  rw [(State.pushBytes_spec d s).2]
@[simp] theorem State.pushBytes_u2x (d : List Byte) (s : State) : (State.pushBytes d s).2.u2x = s.u2x := by
  rw [(State.pushBytes_spec d s).2]
@[simp] theorem State.pushBytes_serCfgd (d : List Byte) (s : State) : (State.pushBytes d s).2.serCfgd = s.serCfgd := by
  rw [(State.pushBytes_spec d s).2]
@[simp] theorem State.pushBytes_line (d : List Byte) (s : State) : (State.pushBytes d s).2.line = s.line := by
  rw [(State.pushBytes_spec d s).2]
@[simp] theorem State.pushBytes_presc (d : List Byte) (s : State) : (State.pushBytes d s).2.presc = s.presc := by
  rw [(State.pushBytes_spec d s).2]
@[simp] theorem State.pushBytes_ocr (d : List Byte) (s : State) : (State.pushBytes d s).2.ocr = s.ocr := by
  rw [(State.pushBytes_spec d s).2]
@[simp] theorem State.pushBytes_tmrRun (d : List Byte) (s : State) : (State.pushBytes d s).2.tmrRun = s.tmrRun := by
  rw [(State.pushBytes_spec d s).2]
@[simp] theorem State.pushBytes_tick (d : List Byte) (s : State) : (State.pushBytes d s).2.tick = s.tick := by
  rw [(State.pushBytes_spec d s).2]
@[simp] theorem State.pushBytes_ocf (d : List Byte) (s : State) : (State.pushBytes d s).2.ocf = s.ocf := by
  rw [(State.pushBytes_spec d s).2]
@[simp] theorem State.pushBytes_ocie (d : List Byte) (s : State) : (State.pushBytes d s).2.ocie = s.ocie := by
  rw [(State.pushBytes_spec d s).2]
@[simp] theorem State.pushBytes_counter (d : List Byte) (s : State) : (State.pushBytes d s).2.counter = s.counter := by
  rw [(State.pushBytes_spec d s).2]
@[simp] theorem State.pushBytes_iflag (d : List Byte) (s : State) : (State.pushBytes d s).2.iflag = s.iflag := by
  rw [(State.pushBytes_spec d s).2]
@[simp] theorem State.pushBytes_saves (d : List Byte) (s : State) : (State.pushBytes d s).2.saves = s.saves := by
  rw [(State.pushBytes_spec d s).2]
@[simp] theorem State.pushBytes_res (d : List Byte) (s : State) : (State.pushBytes d s).2.res = s.res := by
  rw [(State.pushBytes_spec d s).2]
@[simp] theorem State.pushBytes_cp (d : List Byte) (s : State) : (State.pushBytes d s).2.cp = s.cp := by
  rw [(State.pushBytes_spec d s).2]
@[simp] theorem State.pushBytes_ph (d : List Byte) (s : State) : (State.pushBytes d s).2.ph = s.ph := by
  rw [(State.pushBytes_spec d s).2]
@[simp] theorem State.pushBytes_sent (d : List Byte) (s : State) : (State.pushBytes d s).2.sent = s.sent := by
  rw [(State.pushBytes_spec d s).2]
@[simp] theorem State.pushBytes_asleep (d : List Byte) (s : State) : (State.pushBytes d s).2.asleep = s.asleep := by
  rw [(State.pushBytes_spec d s).2]
@[simp] theorem State.pushBytes_fault (d : List Byte) (s : State) : (State.pushBytes d s).2.fault = s.fault := by
  rw [(State.pushBytes_spec d s).2]
@[simp] theorem State.pushBytes_pin (d : List Byte) (s : State) : (State.pushBytes d s).2.pin = s.pin := by
  rw [(State.pushBytes_spec d s).2]
@[simp] theorem State.pushBytes_wantInterWordSpace (d : List Byte) (s : State) : (State.pushBytes d s).2.wantInterWordSpace = s.wantInterWordSpace := by
  rw [(State.pushBytes_spec d s).2]
@[simp] theorem State.pushBytes_cfg (d : List Byte) (s : State) : (State.pushBytes d s).2.cfg = s.cfg := by
  rw [(State.pushBytes_spec d s).2]
@[simp] theorem State.pushBytes_cmd (d : List Byte) (s : State) : (State.pushBytes d s).2.cmd = s.cmd := by
  rw [(State.pushBytes_spec d s).2]
@[simp] theorem State.pushBytes_sched (d : List Byte) (s : State) : (State.pushBytes d s).2.sched = s.sched := by
  rw [(State.pushBytes_spec d s).2]
@[simp] theorem State.pushBytes_policy (d : List Byte) (s : State) : (State.pushBytes d s).2.policy = s.policy := by
  rw [(State.pushBytes_spec d s).2]
@[simp] theorem State.pushBytes_turns (d : List Byte) (s : State) : (State.pushBytes d s).2.turns = s.turns := by
  rw [(State.pushBytes_spec d s).2]
@[simp] theorem State.pushBytes_draws (d : List Byte) (s : State) : (State.pushBytes d s).2.draws = s.draws := by
  rw [(State.pushBytes_spec d s).2]

/-- A push of nothing changes nothing (42 R141, corner case a). -/
theorem State.pushBytes_nil (s : State) : State.pushBytes [] s = (0, s) := by
  rw [State.pushBytes_of_no_transition (.inr rfl)]; rfl

/-! ## The attempt of SENDALL -/

/-- The attempt accepts `k = min(len - sent, free)` bytes, as push_bytes of the remainder does, and completes exactly
when that is the rest of the data (42 R144). -/
theorem sendAttempt_spec (d : List Byte) (s : State) (k : Nat) (hk : k = min (d.length - s.sent.toNat) s.free) :
    sendAttempt d s =
      if (s.sent + BitVec.ofNat 8 k).toNat = d.length then
        { (State.pushBytes (d.drop s.sent.toNat) s).2 with
          sent := s.sent + BitVec.ofNat 8 k, res := ⟨BitVec.ofNat 32 d.length, true⟩, ph := .zero
          cp := s.cp + (2 + d.length) }
      else
        { (State.pushBytes (d.drop s.sent.toNat) s).2 with sent := s.sent + BitVec.ofNat 8 k, ph := .two } := by
  have hc : (State.pushBytes (d.drop s.sent.toNat) s).1 = k := by
    rw [State.pushBytes_count, List.length_drop, hk]
  unfold sendAttempt
  simp only [hc, State.complete, State.writeResult, State.pushBytes_cp]

@[simp] theorem sendAttempt_ubrr (d : List Byte) (s : State) : (sendAttempt d s).ubrr = s.ubrr := by
  rw [sendAttempt_spec d s _ rfl]; split <;> simp
@[simp] theorem sendAttempt_u2x (d : List Byte) (s : State) : (sendAttempt d s).u2x = s.u2x := by
  rw [sendAttempt_spec d s _ rfl]; split <;> simp
@[simp] theorem sendAttempt_serCfgd (d : List Byte) (s : State) : (sendAttempt d s).serCfgd = s.serCfgd := by
  rw [sendAttempt_spec d s _ rfl]; split <;> simp
@[simp] theorem sendAttempt_line (d : List Byte) (s : State) : (sendAttempt d s).line = s.line := by
  rw [sendAttempt_spec d s _ rfl]; split <;> simp
@[simp] theorem sendAttempt_presc (d : List Byte) (s : State) : (sendAttempt d s).presc = s.presc := by
  rw [sendAttempt_spec d s _ rfl]; split <;> simp
@[simp] theorem sendAttempt_ocr (d : List Byte) (s : State) : (sendAttempt d s).ocr = s.ocr := by
  rw [sendAttempt_spec d s _ rfl]; split <;> simp
@[simp] theorem sendAttempt_tmrRun (d : List Byte) (s : State) : (sendAttempt d s).tmrRun = s.tmrRun := by
  rw [sendAttempt_spec d s _ rfl]; split <;> simp
@[simp] theorem sendAttempt_tick (d : List Byte) (s : State) : (sendAttempt d s).tick = s.tick := by
  rw [sendAttempt_spec d s _ rfl]; split <;> simp
@[simp] theorem sendAttempt_ocf (d : List Byte) (s : State) : (sendAttempt d s).ocf = s.ocf := by
  rw [sendAttempt_spec d s _ rfl]; split <;> simp
@[simp] theorem sendAttempt_ocie (d : List Byte) (s : State) : (sendAttempt d s).ocie = s.ocie := by
  rw [sendAttempt_spec d s _ rfl]; split <;> simp
@[simp] theorem sendAttempt_counter (d : List Byte) (s : State) : (sendAttempt d s).counter = s.counter := by
  rw [sendAttempt_spec d s _ rfl]; split <;> simp
@[simp] theorem sendAttempt_iflag (d : List Byte) (s : State) : (sendAttempt d s).iflag = s.iflag := by
  rw [sendAttempt_spec d s _ rfl]; split <;> simp
@[simp] theorem sendAttempt_saves (d : List Byte) (s : State) : (sendAttempt d s).saves = s.saves := by
  rw [sendAttempt_spec d s _ rfl]; split <;> simp
@[simp] theorem sendAttempt_asleep (d : List Byte) (s : State) : (sendAttempt d s).asleep = s.asleep := by
  rw [sendAttempt_spec d s _ rfl]; split <;> simp
@[simp] theorem sendAttempt_fault (d : List Byte) (s : State) : (sendAttempt d s).fault = s.fault := by
  rw [sendAttempt_spec d s _ rfl]; split <;> simp
@[simp] theorem sendAttempt_pin (d : List Byte) (s : State) : (sendAttempt d s).pin = s.pin := by
  rw [sendAttempt_spec d s _ rfl]; split <;> simp
@[simp] theorem sendAttempt_wantInterWordSpace (d : List Byte) (s : State) : (sendAttempt d s).wantInterWordSpace = s.wantInterWordSpace := by
  rw [sendAttempt_spec d s _ rfl]; split <;> simp
@[simp] theorem sendAttempt_cfg (d : List Byte) (s : State) : (sendAttempt d s).cfg = s.cfg := by
  rw [sendAttempt_spec d s _ rfl]; split <;> simp
@[simp] theorem sendAttempt_cmd (d : List Byte) (s : State) : (sendAttempt d s).cmd = s.cmd := by
  rw [sendAttempt_spec d s _ rfl]; split <;> simp
@[simp] theorem sendAttempt_sched (d : List Byte) (s : State) : (sendAttempt d s).sched = s.sched := by
  rw [sendAttempt_spec d s _ rfl]; split <;> simp
@[simp] theorem sendAttempt_policy (d : List Byte) (s : State) : (sendAttempt d s).policy = s.policy := by
  rw [sendAttempt_spec d s _ rfl]; split <;> simp
@[simp] theorem sendAttempt_turns (d : List Byte) (s : State) : (sendAttempt d s).turns = s.turns := by
  rw [sendAttempt_spec d s _ rfl]; split <;> simp
@[simp] theorem sendAttempt_draws (d : List Byte) (s : State) : (sendAttempt d s).draws = s.draws := by
  rw [sendAttempt_spec d s _ rfl]; split <;> simp
@[simp] theorem sendAttempt_buf (d : List Byte) (s : State) :
    (sendAttempt d s).buf = (State.pushBytes (d.drop s.sent.toNat) s).2.buf := by
  rw [sendAttempt_spec d s _ rfl]; split <;> rfl
@[simp] theorem sendAttempt_readIndex (d : List Byte) (s : State) :
    (sendAttempt d s).readIndex = (State.pushBytes (d.drop s.sent.toNat) s).2.readIndex := by
  rw [sendAttempt_spec d s _ rfl]; split <;> rfl
@[simp] theorem sendAttempt_writeIndex (d : List Byte) (s : State) :
    (sendAttempt d s).writeIndex = (State.pushBytes (d.drop s.sent.toNat) s).2.writeIndex := by
  rw [sendAttempt_spec d s _ rfl]; split <;> rfl
@[simp] theorem sendAttempt_udr (d : List Byte) (s : State) :
    (sendAttempt d s).udr = (State.pushBytes (d.drop s.sent.toNat) s).2.udr := by
  rw [sendAttempt_spec d s _ rfl]; split <;> rfl
@[simp] theorem sendAttempt_udre (d : List Byte) (s : State) :
    (sendAttempt d s).udre = (State.pushBytes (d.drop s.sent.toNat) s).2.udre := by
  rw [sendAttempt_spec d s _ rfl]; split <;> rfl
@[simp] theorem sendAttempt_txie (d : List Byte) (s : State) :
    (sendAttempt d s).txie = (State.pushBytes (d.drop s.sent.toNat) s).2.txie := by
  rw [sendAttempt_spec d s _ rfl]; split <;> rfl

/-! ## The wait in timer mode -/

/-- All that a micro-step of the wait does (41 R123). -/
theorem timerWait_spec (n : Word) (s : State) :
    timerWait n s =
      { s with
        counter := if s.ph = .zero then 0#32 else s.counter
        asleep := if s.ph = .two then true else s.asleep
        cp := if s.ph = .one ∧ n ≤ s.counter then s.cp + 5 else s.cp
        ph := if s.ph = .one then (if n ≤ s.counter then .zero else .two) else .one } := by
  unfold timerWait
  split
  · next h => simp [h]
  · next h =>
    split
    · next hn => simp [h, hn, State.complete]
    · next hn => simp [h, hn]
  · next h => simp [h, State.sleepNow]

/-! ## The pin -/

/-- All that a pin write does (44 R180 to R182): it fails only where `PIN_FALLIBLE` and the draw say so. -/
theorem drivePin_spec (level : Bool) (s : State) :
    drivePin level s =
      if s.cfg.pinFallible = true ∧ Config.pinFails s.draws = true then
        { s with draws := s.draws + 1, fault := s.fault.or (some .pinIo) }
      else
        { s with draws := if s.cfg.pinFallible then s.draws + 1 else s.draws, pin := level, cp := s.cp + 1 } := by
  unfold drivePin
  by_cases h : s.cfg.pinFallible = true
  · by_cases hf : Config.pinFails s.draws = true
    · simp [h, hf, State.raise]
    · simp [h, hf, State.advance]
  · simp [h, State.advance]

/-! ## Every command answers a next state -/

theorem exec_next (i : Instr) (s : State) : ∃ t, exec i s = .next t := by
  cases i <;> simp only [exec]
  case csexit k => unfold execCsexit; split <;> exact ⟨_, rfl⟩
  case sendall d => unfold execSendall; split <;> (try split) <;> exact ⟨_, rfl⟩
  case waitms n => unfold execWaitms; split <;> exact ⟨_, rfl⟩
  case waitus n => unfold execWaitus; split <;> exact ⟨_, rfl⟩
  case sercfg u x => unfold execSercfg; split <;> exact ⟨_, rfl⟩
  case tmrcfg p o => unfold execTmrcfg; split <;> (try split) <;> exact ⟨_, rfl⟩
  all_goals exact ⟨_, rfl⟩

/-! ## What it takes for an agent to step -/

theorem State.of_moves_fg {s : State} (h : s.moves .fg = true) :
    s.fault = none ∧ s.asleep = false ∧ s.fgFinished = false := by
  have he := (State.moves_iff.1 h).2
  simp only [State.enabled, State.fgEnabled, Bool.and_eq_true, Option.isNone_iff_eq_none, Bool.not_eq_true'] at he
  exact ⟨he.1.1, he.1.2, he.2⟩

theorem State.of_moves_txisr {s : State} (h : s.moves .txisr = true) :
    s.iflag = true ∧ s.txie = true ∧ s.udre = true := by
  simpa [State.enabled, State.txRequest] using (State.moves_iff.1 h).2

theorem State.of_moves_tmrisr {s : State} (h : s.moves .tmrisr = true) :
    s.iflag = true ∧ s.ocie = true ∧ s.ocf = true := by
  simpa [State.enabled, State.tmrRequest] using (State.moves_iff.1 h).2

theorem State.of_moves_serdev {s : State} (h : s.moves .serdev = true) : s.serCfgd = true ∧ s.udre = false := by
  simpa [State.enabled] using (State.moves_iff.1 h).2

theorem State.of_moves_tmrdev {s : State} (h : s.moves .tmrdev = true) : s.tmrRun = true := by
  simpa [State.enabled] using (State.moves_iff.1 h).2

end Sys2Proof.Machine
end

