-- ==== Sys2Proof/Laws/Decode.lean ====
section
/-! SUPPORT. The small laws of the encoding: operands are cut into bytes and put together again without loss
(30_encoding.md R81, R82), which opcode byte selects which row (R83), and how much of a stream an operand takes. -/

namespace Sys2Proof

/-! ## Bytes -/

theorem getLsbD_byteOf {w : Nat} (v : BitVec w) (j i : Nat) (h : i < 8) :
    (byteOf v j).getLsbD i = v.getLsbD (8 * j + i) := by
  simp [byteOf, h]

theorem getLsbD_half (b0 b1 : Byte) (i : Nat) :
    (half b0 b1).getLsbD i = if i < 8 then b0.getLsbD i else b1.getLsbD (i - 8) := by
  unfold half
  exact BitVec.getLsbD_append

theorem getLsbD_word (b0 b1 b2 b3 : Byte) (i : Nat) :
    (word b0 b1 b2 b3).getLsbD i =
      if i < 8 then b0.getLsbD i
      else if i < 16 then b1.getLsbD (i - 8)
      else if i < 24 then b2.getLsbD (i - 16)
      else b3.getLsbD (i - 24) := by
  simp only [word, BitVec.getLsbD_append]
  split_ifs <;> first | rfl | omega

theorem half_byteOf (h : Half) : half (byteOf h 0) (byteOf h 1) = h := by
  apply BitVec.eq_of_getLsbD_eq
  intro i hi
  rw [getLsbD_half]
  split
  · next h1 => rw [getLsbD_byteOf _ _ _ h1]; congr 1; omega
  · next h1 => rw [getLsbD_byteOf _ _ _ (by omega)]; congr 1; omega

theorem word_byteOf (n : Word) : word (byteOf n 0) (byteOf n 1) (byteOf n 2) (byteOf n 3) = n := by
  apply BitVec.eq_of_getLsbD_eq
  intro i hi
  rw [getLsbD_word]
  split_ifs <;> rw [getLsbD_byteOf _ _ _ (by omega)] <;> congr 1 <;> omega

theorem byteOf_half (b0 b1 : Byte) : byteOf (half b0 b1) 0 = b0 ∧ byteOf (half b0 b1) 1 = b1 := by
  constructor <;> apply BitVec.eq_of_getLsbD_eq <;> intro i hi <;>
    rw [getLsbD_byteOf _ _ _ hi, getLsbD_half] <;> split_ifs <;> first | omega | (congr 1; omega)

theorem byteOf_word (b0 b1 b2 b3 : Byte) :
    byteOf (word b0 b1 b2 b3) 0 = b0 ∧ byteOf (word b0 b1 b2 b3) 1 = b1 ∧
    byteOf (word b0 b1 b2 b3) 2 = b2 ∧ byteOf (word b0 b1 b2 b3) 3 = b3 := by
  refine ⟨?_, ?_, ?_, ?_⟩ <;> apply BitVec.eq_of_getLsbD_eq <;> intro i hi <;>
    rw [getLsbD_byteOf _ _ _ hi, getLsbD_word] <;> split_ifs <;> first | omega | (congr 1; omega)

/-- The operands of TMRCFG are the halves of its four operand bytes. -/
theorem word_halves (b0 b1 b2 b3 : Byte) :
    (word b0 b1 b2 b3).extractLsb' 0 16 = half b0 b1 ∧ (word b0 b1 b2 b3).extractLsb' 16 16 = half b2 b3 := by
  constructor <;> apply BitVec.eq_of_getLsbD_eq <;> intro i hi <;>
    simp only [BitVec.getLsbD_extractLsb', hi, decide_true, Bool.true_and] <;>
    rw [getLsbD_word, getLsbD_half] <;> split_ifs <;> first | omega | rfl | (congr 1; omega)

theorem getLsbD_serWord (ubrr : BitVec 12) (u2x : Bool) (i : Nat) :
    (serWord ubrr u2x).getLsbD i = if i < 12 then ubrr.getLsbD i else decide (i = 15) && u2x := by
  have h : (serWord ubrr u2x).getLsbD i =
      if i < 12 then ubrr.getLsbD i else (BitVec.ofBool u2x ++ 0#3).getLsbD (i - 12) := BitVec.getLsbD_append
  rw [h]
  split
  · rfl
  · rw [BitVec.getLsbD_append]
    split
    · rw [BitVec.getLsbD_zero, decide_eq_false (show ¬ i = 15 by omega), Bool.false_and]
    · rw [BitVec.getLsbD_ofBool]
      congr 1
      simp only [decide_eq_decide]
      omega

/-- The fields of the configuration halfword, cut out again (30 R82). -/
theorem serWord_fields (ubrr : BitVec 12) (u2x : Bool) :
    (serWord ubrr u2x).extractLsb' 0 12 = ubrr ∧ (serWord ubrr u2x).extractLsb' 12 3 = 0#3 ∧
    (serWord ubrr u2x).getLsbD 15 = u2x := by
  refine ⟨?_, ?_, ?_⟩
  · apply BitVec.eq_of_getLsbD_eq
    intro i hi
    rw [BitVec.getLsbD_extractLsb', getLsbD_serWord, if_pos (by omega)]
    simp [hi]
  · apply BitVec.eq_of_getLsbD_eq
    intro i hi
    rw [BitVec.getLsbD_extractLsb', getLsbD_serWord, if_neg (by omega), decide_eq_false (show ¬ 12 + i = 15 by omega)]
    simp
  · rw [getLsbD_serWord]; simp

/-- A halfword whose reserved bits are zero is put together from its fields. -/
theorem serWord_eta (h : Half) (hz : h.extractLsb' 12 3 = 0#3) :
    serWord (h.extractLsb' 0 12) (h.getLsbD 15) = h := by
  apply BitVec.eq_of_getLsbD_eq
  intro i hi
  rw [getLsbD_serWord, BitVec.getLsbD_extractLsb']
  split
  · next hlt => rw [decide_eq_true hlt, Nat.zero_add, Bool.true_and]
  · next hge =>
    by_cases h15 : i = 15
    · subst h15; simp
    · have h3 := congrArg (fun v => v.getLsbD (i - 12)) hz
      simp only [BitVec.getLsbD_extractLsb', BitVec.getLsbD_zero] at h3
      rw [decide_eq_true (show i - 12 < 3 by omega), Bool.true_and, show 12 + (i - 12) = i by omega] at h3
      rw [h3, decide_eq_false h15, Bool.false_and]

/-! ## The operands of the formats -/

theorem takeData_cons (len : Byte) (rest : List Byte) :
    takeData (len :: rest) =
      if rest.length < len.toNat then .error .truncatedData else .ok (rest.take len.toNat) := rfl

/-- Format FL takes its `len` byte and so many data bytes. -/
theorem takeData_eq_ok {rest d : List Byte} :
    takeData rest = .ok d ↔ ∃ len tail, rest = len :: (d ++ tail) ∧ len.toNat = d.length := by
  cases rest with
  | nil => simp [takeData]
  | cons len rest =>
    rw [takeData_cons]
    split
    · next h =>
      simp only [reduceCtorEq, List.cons.injEq, false_iff, not_exists, not_and, and_imp]
      rintro len' tail rfl rfl hl
      simp at h; omega
    · next h =>
      simp only [Except.ok.injEq, List.cons.injEq]
      constructor
      · rintro rfl
        refine ⟨len, rest.drop len.toNat, ⟨rfl, (List.take_append_drop _ _).symm⟩, ?_⟩
        simp; omega
      · rintro ⟨len', tail, ⟨rfl, rfl⟩, hl⟩
        rw [hl, List.take_left]

/-- Format FI takes four bytes. -/
theorem takeImm32_eq_ok {rest : List Byte} {n : Word} :
    takeImm32 rest = .ok n ↔ ∃ b0 b1 b2 b3 tail, rest = b0 :: b1 :: b2 :: b3 :: tail ∧ word b0 b1 b2 b3 = n := by
  constructor
  · intro h
    match rest, h with
    | b0 :: b1 :: b2 :: b3 :: tail, h => exact ⟨b0, b1, b2, b3, tail, rfl, by simpa [takeImm32] using h⟩
  · rintro ⟨b0, b1, b2, b3, tail, rfl, rfl⟩; rfl

/-! ## The opcode map -/

theorem decode_cons (op : Byte) (rest : List Byte) :
    decode (op :: rest) =
      match opcodeRow op with
      | none => .error .reservedOpcode
      | some r => decodeOperands r.name op rest := rfl

/-- The two families of format FK, bit by bit. -/
theorem opcodeRow_slot (k : BitVec 2) :
    opcodeRow (0b000100#6 ++ k) = some ⟨.CSENTER, .FK, 0x10#8, 0xFC#8⟩ ∧
    opcodeRow (0b000110#6 ++ k) = some ⟨.CSEXIT, .FK, 0x18#8, 0xFC#8⟩ ∧
    (0b000100#6 ++ k).extractLsb' 0 2 = k ∧ (0b000110#6 ++ k).extractLsb' 0 2 = k := by
  revert k; decide

/-- A row that an opcode byte selects is a row of the map whose pattern the byte has under its mask. -/
theorem opcodeRow_eq_some {op : Byte} {r : OpcodeRow} (h : opcodeRow op = some r) :
    r ∈ opcodeRows ∧ op &&& r.mask = r.pattern := by
  unfold opcodeRow at h
  exact ⟨List.mem_of_find?_eq_some h, by simpa using List.find?_some h⟩

/-- No byte has the patterns of two rows: the decoder does not depend on the order of the map. -/
theorem opcodeRows_disjoint :
    opcodeRows.Pairwise fun r q => ¬ ∃ op : Byte, op &&& r.mask = r.pattern ∧ op &&& q.mask = q.pattern := by
  decide +kernel

end Sys2Proof
end

