-- ==== Sys2Proof/Laws/PerInstr.lean ====
section
/-! SUPPORT. Statements made per instruction. `EncodeLength`: the encoder writes as many bytes as the length rule gives
(30_encoding.md R85). -/

namespace Sys2Proof.Laws.EncodeLength

/-- The encoding of `i` has the length of `i`. -/
def Statement (i : Instr) : Prop := (encode i).length = i.size

theorem sei : Statement .sei := rfl

theorem sleep : Statement .sleep := rfl

theorem csenter (k : BitVec 2) : Statement (.csenter k) := rfl

theorem csexit (k : BitVec 2) : Statement (.csexit k) := rfl

theorem push (d : List Byte) : Statement (.push d) := by simp [Statement, encode, Instr.size]; omega

theorem sendall (d : List Byte) : Statement (.sendall d) := by simp [Statement, encode, Instr.size]; omega

theorem clkrst : Statement .clkrst := rfl

theorem clkrd : Statement .clkrd := rfl

theorem waitms (n : Word) : Statement (.waitms n) := rfl

theorem waitus (n : Word) : Statement (.waitus n) := rfl

theorem sercfg (ubrr : BitVec 12) (u2x : Bool) : Statement (.sercfg ubrr u2x) := rfl

theorem tmrcfg (presc ocr : Half) : Statement (.tmrcfg presc ocr) := rfl

theorem pinlo : Statement .pinlo := rfl

theorem pinhi : Statement .pinhi := rfl

end Sys2Proof.Laws.EncodeLength
end

