-- ==== Sys2Proof/Tests/Slice0.lean ====
section
/-! SUPPORT. The model's own tests: ill-formed terms refused, words decoded, one step per vector of
95_test_vectors.md, and for every statement with hypotheses a witness that meets them all. -/

namespace Sys2Proof.Tests

open Sys2Proof.Machine

set_option Elab.async false

/-! ## Helpers -/

/-- The next state of an outcome. -/
def nextOf : Result → Option State
  | .next t => some t
  | .fault _ => none
  | .refused _ => none

/-- The state after one step, the same state where there is none. -/
def after (s : State) : State := (nextOf (step s)).getD s

/-- The state after a run. -/
def afterRun (n : Nat) (s : State) : State := (nextOf (runSteps n s)).getD s

theorem of_nextOf {r : Result} {s : State} (h : (nextOf r).isSome = true) : r = .next ((nextOf r).getD s) := by
  cases r <;> simp [nextOf] at h ⊢

theorem step_after {s : State} (h : (nextOf (step s)).isSome = true) : step s = .next (after s) := of_nextOf h

theorem run_after {n : Nat} {s : State} (h : (nextOf (runSteps n s)).isSome = true) :
    runSteps n s = .next (afterRun n s) := of_nextOf h

/-- Reset with a command stream and a script of agents. -/
def start (cmd : List Byte) (order : List Agent) : State := { State.reset with cmd := cmd, sched := order }

/-- Awake with `I = 1`, the transmitter armed and idle, and the bytes `B C` in the ring at indices 1 and 3 (V-ISR-1). -/
def armed (order : List Agent) : State :=
  { start [] order with
    buf := [(1, 0x42#8), (2, 0x43#8)], readIndex := 1#16, writeIndex := 3#16, iflag := true, txie := true }

/-- With the timer started at `TICK = 8`, a match pending and `I = 1` (V-ISR-6). -/
def ticking (order : List Agent) : State :=
  { start [] order with tick := 8#32, ocie := true, tmrRun := true, ocf := true, iflag := true, counter := 41#32 }

/-- `WAITMS 3` in progress at its read, with `TICK = 1` and `I = 1`. -/
def waiting (order : List Agent) (counter : Word) : State :=
  { start [0x32#8, 0x03#8, 0x00#8, 0x00#8, 0x00#8] order with
    ph := .one, counter := counter, tick := 1#32, ocie := true, tmrRun := true, iflag := true }

/-- The client parameters of the vectors. -/
def client : ClientParams :=
  { baud := 57600, baudArith := .exactRound, wpm := 10, stageCap := 64 }

/-- The codes of a text. -/
def bytes (t : String) : List Byte := t.toList.map fun c => BitVec.ofNat 8 c.toNat

/-! ## Well-formedness: an ill-formed term for each check -/

theorem test_push_too_long_is_ill_formed : (Instr.push (List.replicate 256 0x41#8)).wf = false := by decide +kernel

theorem test_sendall_too_long_is_ill_formed : (Instr.sendall (List.replicate 256 0x41#8)).wf = false := by
  decide +kernel

theorem test_longest_push_is_well_formed : (Instr.push (List.replicate 255 0x41#8)).wf = true := by decide +kernel

/-! ## Decoding: words from 30_encoding.md R82, R83 and the examples of the rules -/

theorem test_decode_system :
    decode [0x01#8] = .ok .sei ∧ decode [0x02#8, 0xFF#8] = .ok .sleep ∧ decode [0x12#8] = .ok (.csenter 2#2) ∧
    decode [0x1B#8] = .ok (.csexit 3#2) := by decide +kernel

/-- 42 R141: the bytes of `PUSH "ABCDEFGH"`; 95 P3: those of `SENDALL "0123456789"`. -/
theorem test_decode_transmit :
    decode ([0x20#8, 0x08#8] ++ bytes "ABCDEFGH" ++ [0x01#8]) = .ok (.push (bytes "ABCDEFGH")) ∧
    decode ([0x21#8, 0x0A#8] ++ bytes "0123456789") = .ok (.sendall (bytes "0123456789")) ∧
    decode [0x20#8, 0x00#8] = .ok (.push []) := by decide +kernel

/-- 95 section 2.7: `WAITMS 840` is `32 48 03 00 00`. -/
theorem test_decode_clock :
    decode [0x30#8] = .ok .clkrst ∧ decode [0x31#8] = .ok .clkrd ∧
    decode [0x32#8, 0x48#8, 0x03#8, 0x00#8, 0x00#8] = .ok (.waitms 840#32) ∧
    decode [0x33#8, 0x00#8, 0x00#8, 0x00#8, 0x80#8] = .ok (.waitus 0x80000000#32) := by decide +kernel

/-- 43 R160, 95 sections 2.5 and 2.6: `40 05 8D` is SERCFG 3333, 1 and `41 00 01 70 02` is TMRCFG 256, 624. -/
theorem test_decode_config :
    decode [0x40#8, 0x05#8, 0x8D#8] = .ok (.sercfg 3333#12 true) ∧
    decode [0x40#8, 0x05#8, 0x0D#8] = .ok (.sercfg 3333#12 false) ∧
    decode [0x41#8, 0x00#8, 0x01#8, 0x70#8, 0x02#8] = .ok (.tmrcfg 256#16 624#16) := by decide +kernel

theorem test_decode_pin : decode [0x50#8] = .ok .pinlo ∧ decode [0x51#8] = .ok .pinhi := by decide +kernel

/-- 30 R87, R88: each of the four decode checks. -/
theorem test_decode_illegal :
    decode [0x00#8] = .error .reservedOpcode ∧ decode [0x14#8] = .error .reservedOpcode ∧
    decode [0xFF#8] = .error .reservedOpcode ∧ decode [0x32#8, 0x01#8] = .error .truncatedFixed ∧
    decode [0x20#8, 0x03#8, 0x41#8, 0x42#8] = .error .truncatedData ∧
    decode [0x40#8, 0x22#8, 0x90#8] = .error .reservedField := by decide +kernel

/-- spec/opcode_table.json numbers `w` as 30 R81 does. -/
theorem test_table_words :
    decodeTableWord 40 0x0000034832 = some (.waitms 840#32) ∧ decodeTableWord 24 0x802240 = some (.sercfg 34#12 true) ∧
    decodeTableWord 16 0x0320 = some (.push [0#8, 0#8, 0#8]) ∧ decodeTableWord 8 0x1C = none := by decide +kernel

/-! ## System commands (95 section 2.1) -/

theorem test_sei : (after (start [0x01#8] [.fg])).iflag = true ∧ (after (start [0x01#8] [.fg])).cp = 1 := by decide +kernel

theorem test_sleep : (after (start [0x02#8] [.fg])).asleep = true ∧ (after (start [0x02#8] [.fg])).cp = 1 := by
  decide +kernel

/-- V-CS-12: a request pending when SLEEP has executed wakes FG. -/
theorem test_sleep_pending_request :
    (after { ticking [.tmrisr] with asleep := true, cp := 1 }).asleep = false := by decide +kernel

/-- V-CS-3 and V-CS-4. -/
theorem test_csenter :
    let s := after { start [0x10#8] [.fg] with iflag := true }
    (s.slot 0#2 = ⟨true, true⟩ ∧ s.iflag = false ∧ s.cp = 1) ∧
    (after (start [0x11#8] [.fg])).slot 1#2 = ⟨false, true⟩ := by decide +kernel

/-- V-CS-5 and V-CS-6: the exit restores, it does not enable. -/
theorem test_csexit :
    (after { start [0x19#8] [.fg] with saves := #v[⟨true, true⟩, ⟨false, true⟩, ⟨false, false⟩, ⟨false, false⟩] }).iflag
      = false ∧
    (after { start [0x18#8] [.fg] with saves := #v[⟨true, true⟩, ⟨false, true⟩, ⟨false, false⟩, ⟨false, false⟩] }).iflag
      = true := by decide +kernel

/-- V-CS-8: fault 2 at `cp = 0`. -/
theorem test_csexit_unwritten :
    (after (start [0x1B#8] [.fg])).faultNumber = 2 ∧ (after (start [0x1B#8] [.fg])).cp = 0 := by decide +kernel

/-! ## Clock (95 section 2.2) -/

/-- V-CLK-1. -/
theorem test_clkrst :
    let s := after { ticking [.fg] with cmd := [0x30#8] }
    s.counter = 0#32 ∧ s.ocf = true := by decide +kernel

/-- V-CLK-3. -/
theorem test_clkrd :
    (after { start [0x31#8] [.fg] with counter := 0xFFFFFFFF#32 }).res = ⟨0xFFFFFFFF#32, true⟩ := by decide +kernel

/-- V-WAIT-0: the read of 0 completes. -/
theorem test_waitms_zero :
    let s := after { start [0x32#8, 0x00#8, 0x00#8, 0x00#8, 0x00#8] [.fg] with ph := .one }
    s.cp = 5 ∧ s.ph = .zero ∧ s.asleep = false := by decide +kernel

/-- V-WAIT-1H: the sleep, after which nothing is enabled. -/
theorem test_waitms_hang :
    let s := after { start [0x32#8, 0x01#8, 0x00#8, 0x00#8, 0x00#8] [.fg] with ph := .two }
    s.asleep = true ∧ s.cp = 0 ∧ s.ph = .one ∧ s.anyEnabled = false ∧ s.fault = none := by decide +kernel

/-- 41 R124: `WAITUS 1500` behaves as `WAITMS 2`: a counter of 1 is not enough, 2 is. -/
theorem test_waitus :
    let s := fun c : Word => after { start [0x33#8, 0xDC#8, 0x05#8, 0x00#8, 0x00#8] [.fg] with ph := .one, counter := c }
    (s 1#32).ph = .two ∧ (s 2#32).ph = .zero ∧ (s 2#32).cp = 5 := by decide +kernel

/-! ## Ring-buffer transmitter (95 section 2.3, 42 R141) -/

/-- 42 R141's example (V-PUSH-1), `N = 8`. -/
theorem test_push_example :
    let s := after (start ([0x20#8, 0x08#8] ++ bytes "ABCDEFGH") [.fg])
    s.res = ⟨7#32, true⟩ ∧ s.txie = true ∧ s.udr = 0x41#8 ∧ s.udre = false ∧ s.readIndex = 1#16 ∧
    s.writeIndex = 7#16 ∧ s.queue = bytes "BCDEFG" ∧ s.cp = 10 := by decide +kernel

/-- 42 R141, corner case (b): a full ring takes nothing. -/
theorem test_push_full :
    let s := { start [0x20#8, 0x01#8, 0x41#8] [.fg] with readIndex := 0xFFFF#16, writeIndex := 6#16, txie := true }
    s.full = true ∧ (after s).res = ⟨0#32, true⟩ ∧ (after s).writeIndex = 6#16 ∧ (after s).buf = s.buf := by
  decide +kernel

/-- 95 P3, `N = 4`: the first attempt accepts 3 bytes, hands one off and sleeps next. -/
theorem test_sendall_first_attempt :
    let s := after { start ([0x21#8, 0x0A#8] ++ bytes "0123456789") [.fg] with
      cfg := { Config.atReset with ringExp := 1 } }
    s.sent = 3#8 ∧ s.ph = .two ∧ s.cp = 0 ∧ s.res.written = false ∧ s.queue = bytes "12" := by decide +kernel

/-- 42 R144: the attempt that accepts the last byte completes. -/
theorem test_sendall_last_attempt :
    let s := after { start ([0x21#8, 0x0A#8] ++ bytes "0123456789") [.fg] with ph := .one, sent := 9#8 }
    s.res = ⟨10#32, true⟩ ∧ s.ph = .zero ∧ s.cp = 12 ∧ s.udr = 0x39#8 := by decide +kernel

/-! ## Device configuration (95 sections 2.4 to 2.6) -/

theorem test_sercfg :
    let s := after (start [0x40#8, 0x22#8, 0x80#8] [.fg])
    s.ubrr = 34#12 ∧ s.u2x = true ∧ s.serCfgd = true ∧ s.cp = 3 := by decide +kernel

/-- `TMRCFG 256, 624` gives `TICK = 10`. -/
theorem test_tmrcfg :
    let s := after (start [0x41#8, 0x00#8, 0x01#8, 0x70#8, 0x02#8] [.fg])
    s.tick = 10#32 ∧ s.presc = 256#16 ∧ s.ocr = 624#16 ∧ s.ocie = true ∧ s.tmrRun = true := by decide +kernel

/-- `TMRCFG 64, 250`: the tick amount 1.004 is no integer, fault 4; `TMRCFG 0, 5`: it is 0, fault 4. -/
theorem test_tmrcfg_range :
    (after (start [0x41#8, 0x40#8, 0x00#8, 0xFA#8, 0x00#8] [.fg])).faultNumber = 4 ∧
    (after (start [0x41#8, 0x00#8, 0x00#8, 0x05#8, 0x00#8] [.fg])).faultNumber = 4 := by decide +kernel

/-- 43 R169: fault 3 at a second SERCFG. -/
theorem test_boot_conflict :
    let s := after { start [0x40#8, 0x00#8, 0x00#8] [.fg] with ubrr := 34#12, serCfgd := true }
    s.faultNumber = 3 ∧ s.cp = 0 ∧ s.ubrr = 34#12 := by decide +kernel

/-- 95 section 2.5: rows of the baud table, both readings. -/
theorem test_baud :
    baudCfg .exactRound 16000000 57600 = some (34#12, true) ∧ baudCfg .trunc 16000000 57600 = some (34#12, true) ∧
    baudCfg .exactRound 16000000 460800 = some (4#12, true) ∧ baudCfg .trunc 16000000 460800 = some (3#12, true) ∧
    baudCfg .exactRound 16000000 300 = some (3333#12, false) ∧ baudCfg .trunc 16000000 300 = some (3332#12, false) ∧
    baudCfg .exactRound 16000000 2000000 = some (1#12, true) ∧ baudCfg .trunc 16000000 2000000 = some (0#12, true) ∧
    baudCfg .exactRound 16000000 8000000 = none ∧ baudCfg .trunc 16000000 110 = none := by decide +kernel

/-! ## Pin (95 section 2.7) -/

theorem test_pinhi : (after (start [0x51#8] [.fg])).pin = true := by decide +kernel

theorem test_pinlo : (after { start [0x50#8] [.fg] with pin := true }).pin = false := by decide +kernel

/-! ## Handlers and devices (95 section 2.8) -/

/-- V-ISR-1. -/
theorem test_txisr_pops :
    let s := after { armed [.txisr] with asleep := true }
    s.udr = 0x42#8 ∧ s.udre = false ∧ s.readIndex = 2#16 ∧ s.iflag = true ∧ s.asleep = false ∧ s.txie = true := by
  decide +kernel

/-- V-ISR-2. -/
theorem test_txisr_disarms : (after { armed [.txisr] with readIndex := 3#16 }).txie = false := by decide +kernel

/-- V-ISR-6. -/
theorem test_tmrisr :
    (after (ticking [.tmrisr])).counter = 49#32 ∧ (after (ticking [.tmrisr])).ocf = false := by decide +kernel

/-- V-DEV-1. -/
theorem test_serdev :
    let s := after { start [] [.serdev] with serCfgd := true, udre := false, udr := 0x41#8 }
    s.line = [0x41#8] ∧ s.udre = true ∧ s.udr = 0x41#8 := by decide +kernel

/-- V-DEV-4. -/
theorem test_tmrdev : (after { start [] [.tmrdev] with tmrRun := true }).ocf = true := by decide +kernel

/-! ## Reset and the placing of a word (70 R250, R259; log 9) -/

theorem test_reset_is_final : State.reset.final = true ∧ State.reset.anyEnabled = false := by decide +kernel

theorem test_placed_word_runs :
    (after (State.reset.withFetchWord 40 0x0000034832)).ph = .one ∧
    (after (State.reset.withFetchWord 8 0x01)).iflag = true := by decide +kernel

/-! ## The client (95 sections 1 and 2.7) -/

theorem test_morse_lookup :
    signals (lookup standardTable 0x53#8) = [.dot, .dot, .dot] ∧
    signals (lookup standardTable 0x6F#8) = [.dash, .dash, .dash] ∧
    signals (lookup standardTable 0x30#8) = [.dash, .dash, .dash, .dash, .dash] ∧
    isWordSpace (lookup standardTable 0x21#8) = true ∧ isWordSpace (lookup standardTable 0x80#8) = true := by
  decide +kernel

/-- V-MORSE-2: one gap of 840 ms for two spaces. -/
theorem test_emit_spaces :
    emitString client false (bytes "e  e") =
      ([.waitms 360#32, .pinhi, .waitms 120#32, .pinlo, .waitms 840#32, .pinhi, .waitms 120#32, .pinlo], false) := by
  decide +kernel

/-- 95 P5: "SOS" is 36 commands of 108 bytes that end in PINLO. -/
theorem test_emit_sos :
    (emitString client false (bytes "SOS")).1.length = 36 ∧
    (streamOf (emitString client false (bytes "SOS")).1).length = 108 ∧
    (emitString client false (bytes "SOS")).1.getLast? = some .pinlo := by decide +kernel

/-- V-MORSE-7: patterns that a build rejects; log 15: a second pattern for a character, and U+0161. -/
theorem test_pattern_rejected :
    ofPattern ['.', '-', 'x'] = none ∧ ofPattern (List.replicate 9 '.') = none ∧
    buildTable [('e', ['.']), ('e', ['-'])] = none ∧ buildTable [(Char.ofNat 0x161, ['.'])] = none := by decide +kernel

/-- A client that writes on a space, before a gap, in each high and after each signal; the last marker is too long. -/
def narrating : ClientParams :=
  { client with
    diagMode := .pushDrop
    narration := fun _ j place =>
      match place with
      | .space => [[0x5F#8]]
      | .gap word => if word then [[0x57#8]] else []
      | .signal _ => []
      | .high i => [[BitVec.ofNat 8 j, BitVec.ofNat 8 i]]
      | .held _ => []
      | .low _ => [List.replicate 65 0x41#8] }

/-- 44 R193, R195, R196, by hand: the markers stand at their places, as PUSH where `DIAG_MODE = push_drop`. -/
theorem test_narration :
    emitString narrating false (bytes " i") =
      ([.push [0x5F#8], .push [0x57#8], .waitms 840#32,
        .pinhi, .push [1#8, 0#8], .waitms 120#32, .pinlo,
        .waitms 120#32, .pinhi, .push [1#8, 1#8], .waitms 120#32, .pinlo], false) := by
  decide +kernel

/-- 44 R195: the default composition blocks. -/
theorem test_diag_default : client.diagMode = .sendall ∧ client.legal = true := by decide +kernel

/-- 92, Open parameters: `B` is positive; log 16: a `B` that `baud_cfg` refuses is accepted with no BAUD line for it. -/
theorem test_baud_parameter :
    ({ client with baud := 0 } : ClientParams).legal = false ∧
    baudCfg .exactRound 16000000 4000001 = none ∧ ({ client with baud := 4000001 } : ClientParams).legal = true := by
  decide +kernel

/-- 44 R194: a message above the staging capacity issues nothing. -/
theorem test_staging_overflow :
    diagCommands client (List.replicate 65 0x41#8) = none ∧
    diagCommands client [0x41#8] = some [.sendall [0x41#8]] := by decide +kernel

/-- 30 R89, 95 P1: text to bytes. -/
theorem test_assembler :
    (parseProgram "SEI ; 01\nSERCFG 34, 1\n\nPUSH \"1;4\"\nPUSH 0x31, 50".toList).bind
      (fun ls => (State.reset.loadProgram client ls).map fun s => s.cmd) =
    some [0x01#8, 0x40#8, 0x22#8, 0x80#8, 0x20#8, 0x03#8, 0x31#8, 0x3B#8, 0x34#8, 0x20#8, 0x02#8, 0x31#8, 0x32#8] := by
  decide +kernel


/-! ## Witnesses: for every statement with hypotheses, a state and operands that meet them all, one for each clause -/

theorem witness_DecodeOfEncode :
    (Instr.push []).wf = true ∧ (Instr.sendall (List.replicate 255 0xFF#8)).wf = true ∧ (Instr.csenter 3#2).wf = true ∧
    (Instr.waitms 0xFFFFFFFF#32).wf = true ∧ (Instr.sercfg 0xFFF#12 true).wf = true := by decide +kernel

theorem witness_EncodeOfDecode :
    decode [0x20#8, 0x01#8, 0x41#8, 0x99#8] = .ok (.push [0x41#8]) ∧ decode [0x1B#8] = .ok (.csexit 3#2) := by
  decide +kernel

theorem witness_StreamDecodesInOrder :
    ∀ j ∈ [Instr.sei, .push [0x41#8]] ++ Instr.waitms 3#32 :: [.pinhi], j.wf = true := by decide +kernel

theorem witness_IllegalCommandsFault :
    ((start [0x00#8] [.fg]).moves .fg = true ∧ decode (start [0x00#8] [.fg]).fetch = .error .reservedOpcode) ∧
    ((start [0x32#8] [.fg]).moves .fg = true ∧ decode (start [0x32#8] [.fg]).fetch = .error .truncatedFixed) ∧
    ((start [0x20#8, 0x01#8] [.fg]).moves .fg = true ∧
      decode (start [0x20#8, 0x01#8] [.fg]).fetch = .error .truncatedData) ∧
    ((start [0x40#8, 0x00#8, 0x70#8] [.fg]).moves .fg = true ∧
      decode (start [0x40#8, 0x00#8, 0x70#8] [.fg]).fetch = .error .reservedField) := by decide +kernel

/-- The shortest and the longest proper prefix of a command. -/
theorem witness_TruncatedCommandsFault :
    ((Instr.waitms 1#32).wf = true ∧ 0 < 1 ∧ 1 < (Instr.waitms 1#32).size ∧
      (start [0x32#8] [.fg]).fetch = (encode (.waitms 1#32)).take 1 ∧ (start [0x32#8] [.fg]).moves .fg = true) ∧
    ((Instr.push [0x41#8, 0x42#8]).wf = true ∧ 0 < 3 ∧ 3 < (Instr.push [0x41#8, 0x42#8]).size ∧
      (start [0x20#8, 0x02#8, 0x41#8] [.fg]).fetch = (encode (.push [0x41#8, 0x42#8])).take 3 ∧
      (start [0x20#8, 0x02#8, 0x41#8] [.fg]).moves .fg = true) := by decide +kernel

theorem witness_StepRunsDecodedCommand :
    (start [0x01#8] [.fg]).moves .fg = true ∧ decode (start [0x01#8] [.fg]).fetch = .ok .sei := by decide +kernel

theorem witness_PlacedWordRunsNext :
    decodeTableWord 8 0x51 = some .pinhi ∧ decodeTableWord 40 0x0000000332 = some (.waitms 3#32) := by decide +kernel

/-- The run is over, and the run hangs. -/
theorem witness_StepStopsOnlyWithoutEnabledAgent :
    step State.reset = .fault .finished ∧ step { State.reset with asleep := true } = .fault .stuck := by
  constructor <;> rfl

theorem witness_ResetLeaves :
    start [0x01#8] [] = { State.reset with cfg := Config.atReset, cmd := [0x01#8] } := by decide +kernel

theorem witness_SleepHaltsForeground : (start [0x02#8] [.fg]).iflag = false := by decide +kernel

theorem witness_CsenterCapturesAndMasks : 0x14 ≤ 0x14 ∧ 0x14 ≤ 0x17 ∧ 0x14 ≤ 0x17 ∧ 0x17 ≤ 0x17 := by decide

theorem witness_CsexitRestores :
    (0x1C ≤ 0x1C ∧ 0x1C ≤ 0x1F ∧ 0x1C ≤ 0x1F ∧ 0x1F ≤ 0x1F) ∧
    ((start [] []).writeSlot 3#2 true).slot 3#2 = ⟨true, true⟩ ∧
    (start [] []).slot 0#2 = ⟨false, false⟩ ∧ (start [] []).fault = none := by decide +kernel

/-- `SEI` stands between the entry and the exit. -/
def section3 : State := start [0x10#8, 0x01#8, 0x18#8] [.fg, .fg, .fg]

theorem witness_CriticalSectionRestoresInterrupts :
    section3.executes (.csenter 0#2) ∧ step section3 = .next (after section3) ∧
    neverExecutes (.csenter 0#2) 1 (after section3) ∧
    runSteps 1 (after section3) = .next (afterRun 1 (after section3)) ∧
    (afterRun 1 (after section3)).executes (.csexit 0#2) ∧
    step (afterRun 1 (after section3)) = .next (after (afterRun 1 (after section3))) := by
  refine ⟨⟨by decide +kernel, by decide +kernel⟩, step_after (by decide +kernel), ⟨?_, ?_⟩,
    run_after (by decide +kernel), ⟨by decide +kernel, by decide +kernel⟩, step_after (by decide +kernel)⟩
  · rintro ⟨-, h⟩
    exact absurd h (by decide +kernel)
  · rw [step_after (s := after section3) (by decide +kernel)]
    trivial

theorem witness_SaveSlotWriters :
    step section3 = .next (after section3) ∧ (after section3).slot 0#2 ≠ section3.slot 0#2 :=
  ⟨step_after (by decide +kernel), by decide +kernel⟩

/-- SEI, CSENTER and CSEXIT, each where it changes `I`. -/
theorem witness_EnableFlagWriters :
    (step (start [0x01#8] [.fg]) = .next (after (start [0x01#8] [.fg])) ∧
      (after (start [0x01#8] [.fg])).iflag ≠ (start [0x01#8] [.fg]).iflag) ∧
    (step { start [0x10#8] [.fg] with iflag := true } = .next (after { start [0x10#8] [.fg] with iflag := true }) ∧
      (after { start [0x10#8] [.fg] with iflag := true }).iflag ≠ true) ∧
    (step ((start [0x18#8] [.fg]).writeSlot 0#2 true) = .next (after ((start [0x18#8] [.fg]).writeSlot 0#2 true)) ∧
      (after ((start [0x18#8] [.fg]).writeSlot 0#2 true)).iflag ≠ ((start [0x18#8] [.fg]).writeSlot 0#2 true).iflag) :=
  ⟨⟨step_after (by decide +kernel), by decide +kernel⟩, ⟨step_after (by decide +kernel), by decide +kernel⟩,
    step_after (by decide +kernel), by decide +kernel⟩

/-- The counter just at and just below the operand, and at both ends of its range. -/
theorem witness_WaitmsMicroSteps :
    (waiting [] 3#32).cfg.clockMode = .timer ∧ (start [] []).ph = .zero ∧
    ((waiting [] 3#32).ph = .one ∧ (3#32).toNat ≤ (waiting [] 3#32).counter.toNat) ∧
    ((waiting [] 2#32).ph = .one ∧ (waiting [] 2#32).counter.toNat < (3#32).toNat) ∧
    ((0#32).toNat ≤ (waiting [] 0#32).counter.toNat ∧
      (waiting [] 0xFFFFFFFE#32).counter.toNat < (0xFFFFFFFF#32).toNat) ∧
    ({ waiting [] 2#32 with ph := .two }).ph = .two := by decide +kernel

theorem witness_WaitusRoundsUp :
    (waiting [] 0#32).cfg.clockMode = .timer ∧ (start [] []).ph = .zero ∧ (waiting [] 0#32).ph = .one ∧
    ({ waiting [] 2#32 with ph := .two }).ph = .two ∧
    (2#32).toNat ≤ (waiting [] 2#32).counter.toNat ∧ (waiting [] 1#32).counter.toNat < (2#32).toNat := by decide +kernel

/-- The reset state of the busy build. -/
def busy (cmd : List Byte) : State :=
  { start cmd [.fg] with cfg := { Config.atReset with clockMode := .busy } }

theorem witness_BusyWaitOneStep : (busy []).cfg.clockMode = .busy := by decide +kernel

/-- TMRISR, CLKRST and the reset micro-step, each where it changes the counter. -/
theorem witness_CounterWriters :
    (step (ticking [.tmrisr]) = .next (after (ticking [.tmrisr])) ∧
      (after (ticking [.tmrisr])).counter ≠ (ticking [.tmrisr]).counter) ∧
    (step { ticking [.fg] with cmd := [0x30#8] } = .next (after { ticking [.fg] with cmd := [0x30#8] }) ∧
      (after { ticking [.fg] with cmd := [0x30#8] }).counter ≠ 41#32) ∧
    (step { waiting [.fg] 2#32 with ph := .zero } = .next (after { waiting [.fg] 2#32 with ph := .zero }) ∧
      (after { waiting [.fg] 2#32 with ph := .zero }).counter ≠ 2#32) :=
  ⟨⟨step_after (by decide +kernel), by decide +kernel⟩, ⟨step_after (by decide +kernel), by decide +kernel⟩,
    step_after (by decide +kernel), by decide +kernel⟩

/-- A read that completes WAITMS, and one that completes WAITUS. -/
theorem witness_WaitEndsOnlyAtRead :
    ((waiting [.fg] 3#32).cfg.clockMode = .timer ∧
      (decode (waiting [.fg] 3#32).fetch = .ok (.waitms 3#32) ∧ 3 = (3#32).toNat) ∧
      step (waiting [.fg] 3#32) = .next (after (waiting [.fg] 3#32)) ∧ (after (waiting [.fg] 3#32)).cp ≠ 0) ∧
    (decode { waiting [.fg] 3#32 with cmd := [0x33#8, 0xB8#8, 0x0B#8, 0x00#8, 0x00#8] }.fetch = .ok (.waitus 3000#32) ∧
      3 = ((3000#32).toNat + 999) / 1000) := by
  refine ⟨⟨?_, ⟨?_, ?_⟩, step_after ?_, ?_⟩, ?_, ?_⟩ <;> decide +kernel

/-- `WAITMS 3` from its first read: read, sleep, tick, three times, and the completing read. -/
def ticked : State :=
  waiting [.fg, .fg, .tmrdev, .tmrisr, .fg, .fg, .tmrdev, .tmrisr, .fg, .fg, .tmrdev, .tmrisr, .fg] 0#32

theorem witness_WaitSeesEnoughTicks :
    ticked.cfg.clockMode = .timer ∧ decode ticked.fetch = .ok (.waitms 3#32) ∧ ticked.ph = .one ∧
    ticked.counter = 0#32 ∧ runSteps 12 ticked = .next (afterRun 12 ticked) ∧ (afterRun 12 ticked).cp = ticked.cp ∧
    step (afterRun 12 ticked) = .next (after (afterRun 12 ticked)) ∧
    (after (afterRun 12 ticked)).cp ≠ (afterRun 12 ticked).cp := by
  refine ⟨?_, ?_, ?_, ?_, run_after ?_, ?_, step_after ?_, ?_⟩ <;> decide +kernel

/-- An empty ring ready for a hand-off, a ring that is not empty, a full ring, and data of no byte. -/
theorem witness_PushStoresWhatFits :
    ((start [] []).ringWf ∧ 2 = min [0x41#8, 0x42#8].length (start [] []).free ∧ (start [] []).empty = true ∧
      (start [] []).udre = true) ∧
    ((armed []).ringWf ∧ 1 = min [0x41#8].length (armed []).free ∧ (armed []).empty = false) ∧
    ({ armed [] with readIndex := 4#16 }.ringWf ∧ 0 = min [0x41#8].length { armed [] with readIndex := 4#16 }.free) ∧
    (0 = min ([] : List Byte).length (start [] []).free) := by decide +kernel

theorem witness_PushCountLaws :
    (start [] []).empty = true ∧ (start [] []).slots - 1 ≤ (bytes "ABCDEFG").length := by decide +kernel

/-- The start without and with data, the attempt at both ends of `sent`, and the sleep. -/
theorem witness_SendallMicroSteps :
    ([] : List Byte).length ≤ 255 ∧ (List.replicate 255 0x41#8).length ≤ 255 ∧
    ((start [] []).ph = .zero ∧ [0x41#8] ≠ [] ∧ 0 ≤ [0x41#8].length ∧ 1 = min ([0x41#8].length - 0) (start [] []).free) ∧
    ({ start [] [] with ph := .one, sent := 1#8 }.ph = .one ∧ (1#8).toNat ≤ [0x41#8].length ∧
      0 = min ([0x41#8].length - (1#8).toNat) (start [] []).free) ∧
    { start [] [] with ph := .two }.ph = .two := by decide +kernel

/-- A step that arms, and one that disarms. -/
theorem witness_ArmingAndDisarming :
    (step (start [0x20#8, 0x01#8, 0x41#8] [.fg]) = .next (after (start [0x20#8, 0x01#8, 0x41#8] [.fg])) ∧
      (start [0x20#8, 0x01#8, 0x41#8] [.fg]).txie = false ∧
      (after (start [0x20#8, 0x01#8, 0x41#8] [.fg])).txie = true) ∧
    (step { armed [.txisr] with readIndex := 3#16 } = .next (after { armed [.txisr] with readIndex := 3#16 }) ∧
      (armed [.txisr]).txie = true ∧ (after { armed [.txisr] with readIndex := 3#16 }).txie = false) := by
  refine ⟨⟨step_after ?_, ?_, ?_⟩, step_after ?_, ?_, ?_⟩ <;> decide +kernel

/-- A pop by TXISR and a hand-off. -/
theorem witness_IndicesOnlyAdvance :
    (step (armed [.txisr]) = .next (after (armed [.txisr])) ∧ (after (armed [.txisr])).readIndex = 2#16) ∧
    (step (start [0x20#8, 0x01#8, 0x41#8] [.fg]) = .next (after (start [0x20#8, 0x01#8, 0x41#8] [.fg])) ∧
      (after (start [0x20#8, 0x01#8, 0x41#8] [.fg])).readIndex = 1#16) := by
  refine ⟨⟨step_after ?_, ?_⟩, step_after ?_, ?_⟩ <;> decide +kernel

/-- `armed`, once around the ring in each index. -/
theorem witness_IndexWidthUnobservable :
    { armed [] with readIndex := 9#16, writeIndex := 11#16 } = { armed [] with
      readIndex := (armed []).readIndex + BitVec.ofNat 16 (1 * (armed []).slots)
      writeIndex := (armed []).writeIndex + BitVec.ofNat 16 (1 * (armed []).slots) } := by decide +kernel

theorem witness_FifoEveryStep :
    (armed [.txisr]).ringWf ∧ step (armed [.txisr]) = .next (after (armed [.txisr])) ∧
    (armed [.txisr]).stream = [0x42#8, 0x43#8] :=
  ⟨by decide +kernel, step_after (by decide +kernel), by decide +kernel⟩

theorem witness_FifoFromReset :
    start [0x20#8, 0x01#8, 0x41#8] [.fg] =
      { State.reset with
        cfg := Config.atReset, cmd := [0x20#8, 0x01#8, 0x41#8], sched := [.fg], policy := .free } ∧
    runSteps 1 (start [0x20#8, 0x01#8, 0x41#8] [.fg]) = .next (afterRun 1 (start [0x20#8, 0x01#8, 0x41#8] [.fg])) :=
  ⟨by decide +kernel, run_after (by decide +kernel)⟩

theorem witness_RegisterNeverOverwritten :
    (step { start [] [.serdev] with serCfgd := true, udre := false } =
      .next (after { start [] [.serdev] with serCfgd := true, udre := false })) ∧
    (step (armed [.txisr]) = .next (after (armed [.txisr])) ∧ (after (armed [.txisr])).udr ≠ (armed [.txisr]).udr) :=
  ⟨step_after (by decide +kernel), step_after (by decide +kernel), by decide +kernel⟩

theorem witness_SercfgStoresOperands :
    36863 = (0xFFF#12).toNat + (if true then 32768 else 0) ∧ (0x70#8 : Byte).toNat / 16 % 8 ≠ 0 ∧
    (start [] []).serCfgd = false ∧ { start [] [] with serCfgd := true }.serCfgd = true ∧
    { start [] [] with serCfgd := true }.fault = none := by decide +kernel

/-- The least accepted tick amount, a second TMRCFG, and an amount that is no integer. -/
theorem witness_TmrcfgStartsTimer :
    ((ticking []).tmrRun = true ∧ (ticking []).fault = none) ∧
    ((start [] []).tmrRun = false ∧ Config.tickAmount (start [] []).cfg 64#16 249#16 = ((1 : Nat) : Rat) ∧
      1 ≤ 1 ∧ 1 < 2 ^ 32) ∧
    ((start [] []).fault = none ∧ ∀ t : Nat, Config.tickAmount (start [] []).cfg 64#16 250#16 = (t : Rat) →
      ¬ (1 ≤ t ∧ t < 2 ^ 32)) := by
  refine ⟨by decide +kernel, by decide +kernel, by decide +kernel, fun t h => ?_⟩
  have hd := congrArg Rat.den h
  rw [Rat.den_natCast] at hd
  exact absurd hd (by decide +kernel)

theorem witness_DefaultTickFormula : 0 < 16000000 := by decide

theorem witness_ConfigurationOnlyOnce :
    runSteps 1 { ticking [.tmrisr] with serCfgd := true } =
      .next (afterRun 1 { ticking [.tmrisr] with serCfgd := true }) ∧
    { ticking [.tmrisr] with serCfgd := true }.serCfgd = true ∧ (ticking [.tmrisr]).tmrRun = true :=
  ⟨run_after (by decide +kernel), by decide +kernel, by decide +kernel⟩

/-- The value before rounding just not negative, and just negative. -/
theorem witness_BaudRoundingReadings :
    (0 < 4 ∧ 0 < 4000000 ∧ 4 * 4000000 ≤ 16000000) ∧ 16000000 < 4 * 4000001 := by decide

/-- The largest rate that is not refused, the least that is, and a rate of the second branch. -/
theorem witness_BaudBranches :
    baudCfg .exactRound 16000000 4000000 = some (0#12, true) ∧ baudCfg .exactRound 16000000 4000001 = none ∧
    baudCfg .exactRound 16000000 300 = some (3333#12, false) ∧ client.baudArith = .exactRound := by decide +kernel

/-- The build whose pin can fail; its draw is free and no hypothesis names its value. -/
theorem witness_PinCommands :
    (start [] []).cfg.pinFallible = false ∧
    { start [] [] with cfg := { Config.atReset with pinFallible := true } }.cfg.pinFallible = true ∧
    (start [] []).fault = none := by decide +kernel

theorem witness_DrainHandlerStep :
    ({ armed [.txisr] with readIndex := 3#16 }.moves .txisr = true ∧
      { armed [.txisr] with readIndex := 3#16 }.empty = true) ∧
    ((armed [.txisr]).moves .txisr = true ∧ (armed [.txisr]).empty = false) := by decide +kernel

theorem witness_TickHandlerStep :
    (ticking [.tmrisr]).moves .tmrisr = true ∧
    { ticking [.tmrisr] with counter := 0xFFFFFFFF#32 }.moves .tmrisr = true := by decide +kernel

theorem witness_SerialDeviceStep :
    { start [] [.serdev] with serCfgd := true, udre := false }.moves .serdev = true := by decide +kernel

theorem witness_TimerDeviceStep :
    { ticking [.tmrdev] with ocf := false }.moves .tmrdev = true ∧
    ((ticking [.tmrdev]).moves .tmrdev = true ∧ (ticking [.tmrdev]).ocf = true) := by decide +kernel

theorem witness_HandlerOrderIrrelevant :
    { armed [] with tick := 1#32, ocie := true, ocf := true, tmrRun := true }.enabled .txisr = true ∧
    { armed [] with tick := 1#32, ocie := true, ocf := true, tmrRun := true }.enabled .tmrisr = true := by decide +kernel

/-- Each agent in turn, FG in a hand-off. -/
theorem witness_OwnershipOfState :
    (step (armed [.txisr]) = .next (after (armed [.txisr])) ∧ (armed [.txisr]).moves .txisr = true) ∧
    (step (ticking [.tmrisr]) = .next (after (ticking [.tmrisr])) ∧ (ticking [.tmrisr]).moves .tmrisr = true) ∧
    (step { start [] [.serdev] with serCfgd := true, udre := false } =
        .next (after { start [] [.serdev] with serCfgd := true, udre := false }) ∧
      { start [] [.serdev] with serCfgd := true, udre := false }.moves .serdev = true) ∧
    (step (ticking [.tmrdev]) = .next (after (ticking [.tmrdev])) ∧ (ticking [.tmrdev]).moves .tmrdev = true) ∧
    (step (start [0x20#8, 0x01#8, 0x41#8] [.fg]) = .next (after (start [0x20#8, 0x01#8, 0x41#8] [.fg])) ∧
      (start [0x20#8, 0x01#8, 0x41#8] [.fg]).moves .fg = true ∧
      (after (start [0x20#8, 0x01#8, 0x41#8] [.fg])).readIndex ≠ 0#16) := by
  refine ⟨⟨step_after ?_, ?_⟩, ⟨step_after ?_, ?_⟩, ⟨step_after ?_, ?_⟩, ⟨step_after ?_, ?_⟩, step_after ?_, ?_, ?_⟩ <;>
    decide +kernel

theorem witness_CommandStreamImmutable : step section3 = .next (after section3) := step_after (by decide +kernel)

/-- PUSH, SENDALL and CLKRD, each where it changes `RES`. -/
theorem witness_ResultRegisterWriters :
    (step (start [0x20#8, 0x00#8] [.fg]) = .next (after (start [0x20#8, 0x00#8] [.fg])) ∧
      (after (start [0x20#8, 0x00#8] [.fg])).res ≠ (start [] []).res) ∧
    (step (start [0x21#8, 0x00#8] [.fg]) = .next (after (start [0x21#8, 0x00#8] [.fg])) ∧
      (after (start [0x21#8, 0x00#8] [.fg])).res ≠ (start [] []).res) ∧
    (step (start [0x31#8] [.fg]) = .next (after (start [0x31#8] [.fg])) ∧
      (after (start [0x31#8] [.fg])).res ≠ (start [] []).res) := by
  refine ⟨⟨step_after ?_, ?_⟩, ⟨step_after ?_, ?_⟩, step_after ?_, ?_⟩ <;> decide +kernel

/-- Woken by each handler, and not by a device. -/
theorem witness_OnlyHandlersWake :
    ({ armed [.txisr] with asleep := true }.asleep = true ∧
      step { armed [.txisr] with asleep := true } = .next (after { armed [.txisr] with asleep := true })) ∧
    (step { ticking [.tmrisr] with asleep := true } = .next (after { ticking [.tmrisr] with asleep := true })) ∧
    (step { ticking [.tmrdev] with asleep := true } = .next (after { ticking [.tmrdev] with asleep := true }) ∧
      (after { ticking [.tmrdev] with asleep := true }).asleep = true) := by
  refine ⟨⟨?_, step_after ?_⟩, step_after ?_, step_after ?_, ?_⟩ <;> decide +kernel

/-- Asleep with `I = 0`, bytes queued, the timer running. -/
theorem witness_MaskedSleepHangs :
    { ticking [.tmrdev] with asleep := true, iflag := false }.asleep = true ∧
    { ticking [.tmrdev] with asleep := true, iflag := false }.iflag = false ∧
    runSteps 1 { ticking [.tmrdev] with asleep := true, iflag := false } =
      .next (afterRun 1 { ticking [.tmrdev] with asleep := true, iflag := false }) := by
  refine ⟨?_, ?_, run_after ?_⟩ <;> decide +kernel

theorem witness_FaultsArePrecise :
    step (start [0x1B#8] [.fg]) = .next (after (start [0x1B#8] [.fg])) ∧
    (after (start [0x1B#8] [.fg])).fault ≠ (start [0x1B#8] [.fg]).fault :=
  ⟨step_after (by decide +kernel), by decide +kernel⟩

theorem witness_FaultedForegroundStops :
    { ticking [.tmrisr] with fault := some .pinIo }.fault = some .pinIo ∧
    runSteps 1 { ticking [.tmrisr] with fault := some .pinIo } =
      .next (afterRun 1 { ticking [.tmrisr] with fault := some .pinIo }) :=
  ⟨by decide +kernel, run_after (by decide +kernel)⟩

/-- A state of the invariant inside a wait. -/
theorem waiting_inv (order : List Agent) (c : Word) : (waiting order c).Inv where
  ring := ⟨List.Pairwise.nil, fun _ h => absurd h List.not_mem_nil⟩
  armed := fun h => by
    have he : (waiting order c).empty = true := beq_self_eq_true _
    rw [he] at h
    cases h
  timer := ⟨rfl, fun _ => rfl, fun _ => show (1#32 : Word) ≠ 0#32 by decide⟩
  sequencer := ⟨Nat.zero_le _, fun _ => ⟨.waitms 3#32, by rfl, rfl⟩, fun _ => rfl, fun _ => rfl⟩

theorem witness_NoFaultInsideCommand :
    (waiting [.fg] 3#32).Inv ∧ (waiting [.fg] 3#32).ph ≠ .zero ∧
    step (waiting [.fg] 3#32) = .next (after (waiting [.fg] 3#32)) :=
  ⟨waiting_inv _ _, by decide +kernel, step_after (by decide +kernel)⟩

theorem witness_StepKeepsInvariant :
    (waiting [.tmrdev] 0#32).Inv ∧ step (waiting [.tmrdev] 0#32) = .next (after (waiting [.tmrdev] 0#32)) :=
  ⟨waiting_inv _ _, step_after (by decide +kernel)⟩

/-- A final state in which the timer still steps. -/
theorem witness_FinalStateIsDrained :
    (ticking [.tmrisr]).final = true ∧ step (ticking [.tmrisr]) = .next (after (ticking [.tmrisr])) ∧
    (ticking [.tmrisr]).enabled .tmrdev = true :=
  ⟨by decide +kernel, step_after (by decide +kernel), by decide +kernel⟩

theorem witness_MorsePatternRoundTrip :
    ([] : List Signal).length ≤ 8 ∧ (List.replicate 8 Signal.dash).length ≤ 8 ∧
    8 < (List.replicate 9 Signal.dash).length := by decide

theorem witness_EmitHasNoTrailingGap : isWordSpace (lookup client.table (foldCase 0x53#8)) = false := by decide +kernel

/-- For each clause: a word space, characters of one and of eight signals, a text after a space, two spaces. -/
theorem witness_EmitSpacesCollapse :
    isWordSpace MorseChar.space = true ∧ isWordSpace ⟨1, 0#8⟩ = false ∧ isWordSpace ⟨8, 0xA5#8⟩ = false ∧
    emitCode client (fun _ => []) false (lookup client.table (foldCase 0x20#8)) = ([], true) ∧
    emitString client.silenced true [] = ([], true) ∧
    [0x20#8, 0x21#8] ≠ [] ∧
    (∀ x ∈ [0x20#8, 0x21#8], isWordSpace (lookup client.table (foldCase x)) = true) ∧
    isWordSpace (lookup client.table (foldCase 0x65#8)) = false := by decide +kernel

end Sys2Proof.Tests
end

section
/-! PROOFS. When a step has a next state (00_scope.md R12, R14): every agent's step answers one, so `step` stops
exactly where no agent is enabled. -/

namespace Sys2Proof.Machine

/-! ## An agent's step always answers a next state -/

/-- A decode that fails is a fault of the spec, which is a next state (60 R230); a command answers one by
`exec_next`. -/
theorem fgStep_next (s : State) : ∃ t, fgStep s = .next t := by
  cases hd : decode s.fetch with
  | ok i => rw [fgStep_of_decode hd]; exact exec_next i s
  | error e => exact ⟨_, fgStep_of_illegal hd⟩

theorem runAgent_next (a : Agent) (s : State) : ∃ t, runAgent a s = .next t := by
  cases a with
  | fg => exact fgStep_next s
  | txisr => exact ⟨_, rfl⟩
  | tmrisr => exact ⟨_, rfl⟩
  | serdev => exact ⟨_, rfl⟩
  | tmrdev => exact ⟨_, rfl⟩

/-! ## The answer of a step, by whether any agent is enabled -/

theorem State.anyEnabled_eq_false_iff {s : State} : s.anyEnabled = false ↔ ∀ a, s.enabled a = false := by
  simp only [← Bool.not_eq_true, State.anyEnabled_iff, not_exists]

/-- Where some agent is enabled, its turn or a turn that passes gives a next state. -/
theorem step_next_of_anyEnabled {s : State} (h : s.anyEnabled = true) : ∃ t, step s = .next t := by
  rw [step, blockStep, if_pos h]
  by_cases hturn : s.enabled s.nextAgent = true
  · rw [if_pos hturn]; exact runAgent_next _ _
  · rw [if_neg hturn]; exact ⟨_, rfl⟩

theorem step_of_not_anyEnabled {s : State} (h : s.anyEnabled = false) :
    step s = .fault (if s.final then .finished else .stuck) := by
  simp [step, blockStep, h]

theorem step_ne_refused (s : State) (r : Refusal) : step s ≠ .refused r := by
  cases h : s.anyEnabled with
  | true => obtain ⟨t, ht⟩ := step_next_of_anyEnabled h; simp [ht]
  | false => simp [step_of_not_anyEnabled h]

/-- A step stops exactly where no agent is enabled, and `final` alone chooses the name (log 3). -/
theorem step_eq_fault_iff {s : State} {f : Fault} :
    step s = .fault f ↔ s.anyEnabled = false ∧ f = if s.final then .finished else .stuck := by
  cases h : s.anyEnabled with
  | true => obtain ⟨t, ht⟩ := step_next_of_anyEnabled h; simp [ht]
  | false =>
    rw [step_of_not_anyEnabled h, Host.Outcome.fault.injEq]
    exact ⟨fun hname => ⟨rfl, hname.symm⟩, fun hname => hname.2.symm⟩

/-- Settles O9, from `step_ne_refused` and the exact answer of a step that stops, `step_eq_fault_iff`. -/
theorem stepStopsOnlyWithoutEnabledAgent : Obligations.StepStopsOnlyWithoutEnabledAgent := by
  unfold Obligations.StepStopsOnlyWithoutEnabledAgent
  intro s
  refine ⟨step_ne_refused s, ?_, fun h => ?_, fun h => ?_⟩
  · simp only [step_eq_fault_iff, State.anyEnabled_eq_false_iff, exists_and_left, exists_eq, and_true]
  · simpa using (step_eq_fault_iff.1 h).2
  · simpa using (step_eq_fault_iff.1 h).2

end Sys2Proof.Machine
end

section
/-! PROOFS. What a command can do to the state, said once: one constructor per outcome of a command, with its guard
(40_system_critical_section.md to 44_pin_and_morse_client.md). The writer rules of 10_state.md follow by cases on it. -/

namespace Sys2Proof.Machine

/-! ## The outcomes of a command -/

/-- The command waits until the counter reaches `n` milliseconds (41 R123, R124). -/
def waitsFor (i : Instr) (n : Word) : Prop := i = .waitms n ∨ ∃ u, i = .waitus u ∧ millisOfMicros u = n

/-- The command that drives the pin to `level` (44 R180, R181). -/
def pinCommand (level : Bool) : Instr := if level then .pinhi else .pinlo

/-- `CommandStep s i t`: the command `i` can take the state `s` to `t` in one micro-step. -/
inductive CommandStep (s : State) : Instr → State → Prop where
  | sei : CommandStep s .sei ({ s with iflag := true }.advance 1)
  | sleep : CommandStep s .sleep (s.sleepNow.advance 1)
  | csenter (k : BitVec 2) : CommandStep s (.csenter k) ({ s.writeSlot k s.iflag with iflag := false }.advance 1)
  | csexit (k : BitVec 2) (written : (s.slot k).written = true) :
      CommandStep s (.csexit k) ({ s with iflag := (s.slot k).value }.advance 1)
  | slotUnwritten (k : BitVec 2) (unwritten : (s.slot k).written = false) :
      CommandStep s (.csexit k) (s.raise .saveSlotUnwritten)
  | push (d : List Byte) :
      CommandStep s (.push d)
        (((State.pushBytes d s).2.writeResult (BitVec.ofNat 32 (State.pushBytes d s).1)).advance (2 + d.length))
  | sendallNothing (start : s.ph = .zero) :
      CommandStep s (.sendall []) (({ s with sent := 0#8 }.writeResult 0#32).advance 2)
  | sendallFirst (d : List Byte) (start : s.ph = .zero) (nonempty : d ≠ []) :
      CommandStep s (.sendall d) (sendAttempt d { s with sent := 0#8 })
  | sendallRetry (d : List Byte) (attempt : s.ph = .one) : CommandStep s (.sendall d) (sendAttempt d s)
  | sendallSleep (d : List Byte) (asleep : s.ph = .two) :
      CommandStep s (.sendall d) { s.sleepNow with ph := .one }
  | clkrst : CommandStep s .clkrst ({ s with counter := 0#32 }.advance 1)
  | clkrd : CommandStep s .clkrd ((s.writeResult s.counter).advance 1)
  | waitBusy {i : Instr} (n : Word) (wait : waitsFor i n) (busy : s.cfg.clockMode = .busy) :
      CommandStep s i (s.advance 5)
  | waitReset {i : Instr} (n : Word) (wait : waitsFor i n) (timer : s.cfg.clockMode = .timer) (start : s.ph = .zero) :
      CommandStep s i { s with counter := 0#32, ph := .one }
  | waitDone {i : Instr} (n : Word) (wait : waitsFor i n) (timer : s.cfg.clockMode = .timer) (read : s.ph = .one)
      (reached : n ≤ s.counter) : CommandStep s i (s.complete 5)
  | waitMore {i : Instr} (n : Word) (wait : waitsFor i n) (timer : s.cfg.clockMode = .timer) (read : s.ph = .one)
      (short : ¬ n ≤ s.counter) : CommandStep s i { s with ph := .two }
  | waitSleep {i : Instr} (n : Word) (wait : waitsFor i n) (timer : s.cfg.clockMode = .timer) (asleep : s.ph = .two) :
      CommandStep s i { s.sleepNow with ph := .one }
  | sercfg (ubrr : BitVec 12) (u2x : Bool) (first : s.serCfgd = false) :
      CommandStep s (.sercfg ubrr u2x) ({ s with ubrr := ubrr, u2x := u2x, serCfgd := true }.advance 3)
  | sercfgAgain (ubrr : BitVec 12) (u2x : Bool) (again : s.serCfgd = true) :
      CommandStep s (.sercfg ubrr u2x) (s.raise .bootConflict)
  | tmrcfg (presc ocr : Half) (tick : Word) (first : s.tmrRun = false)
      (accepted : acceptedTick (Config.tickAmount s.cfg presc ocr) = some tick) :
      CommandStep s (.tmrcfg presc ocr)
        ({ s with presc := presc, ocr := ocr, tick := tick, ocie := true, tmrRun := true }.advance 5)
  | tmrcfgRange (presc ocr : Half) (first : s.tmrRun = false)
      (refused : acceptedTick (Config.tickAmount s.cfg presc ocr) = none) :
      CommandStep s (.tmrcfg presc ocr) (s.raise .configRange)
  | tmrcfgAgain (presc ocr : Half) (again : s.tmrRun = true) :
      CommandStep s (.tmrcfg presc ocr) (s.raise .bootConflict)
  | pin {i : Instr} (level : Bool) (drives : i = pinCommand level) (infallible : s.cfg.pinFallible = false) :
      CommandStep s i ({ s with pin := level }.advance 1)
  | pinDrawn {i : Instr} (level : Bool) (drives : i = pinCommand level) (fallible : s.cfg.pinFallible = true)
      (succeeds : Config.pinFails s.draws = false) :
      CommandStep s i ({ s with draws := s.draws + 1, pin := level }.advance 1)
  | pinFailed {i : Instr} (level : Bool) (drives : i = pinCommand level) (fallible : s.cfg.pinFallible = true)
      (fails : Config.pinFails s.draws = true) :
      CommandStep s i ({ s with draws := s.draws + 1 }.raise .pinIo)

/-- A micro-step of a wait in timer mode (41 R123). -/
theorem commandStep_timerWait {s : State} {i : Instr} {n : Word} (hwait : waitsFor i n)
    (htimer : s.cfg.clockMode = .timer) : CommandStep s i (timerWait n s) := by
  unfold timerWait
  split
  · next hph => exact .waitReset n hwait htimer hph
  · next hph =>
    split
    · next hn => exact .waitDone n hwait htimer hph hn
    · next hn => exact .waitMore n hwait htimer hph hn
  · next hph => exact .waitSleep n hwait htimer hph

theorem commandStep_drivePin (s : State) (level : Bool) : CommandStep s (pinCommand level) (drivePin level s) := by
  unfold drivePin
  split
  · next hfallible =>
    split
    · next hfails => exact .pinFailed level rfl hfallible hfails
    · next hfails => exact .pinDrawn level rfl hfallible (by simpa using hfails)
  · next hinfallible => exact .pin level rfl (by simpa using hinfallible)

theorem commandStep_sendall {s t : State} {d : List Byte} (h : execSendall d s = .next t) :
    CommandStep s (.sendall d) t := by
  unfold execSendall at h
  split at h
  · next hph =>
    split at h <;> cases h
    · next hlen => cases List.length_eq_zero_iff.1 hlen; exact .sendallNothing hph
    · next hlen => exact .sendallFirst d hph (by simpa using hlen)
  · next hph => cases h; exact .sendallRetry d hph
  · next hph => cases h; exact .sendallSleep d hph

theorem commandStep_tmrcfg {s t : State} {presc ocr : Half} (h : execTmrcfg presc ocr s = .next t) :
    CommandStep s (.tmrcfg presc ocr) t := by
  unfold execTmrcfg at h
  split at h
  · next hrun => cases h; exact .tmrcfgAgain presc ocr hrun
  · next hrun =>
    have hrun : s.tmrRun = false := by simpa using hrun
    split at h <;> cases h
    · next htick => exact .tmrcfgRange presc ocr hrun htick
    · next tick htick => exact .tmrcfg presc ocr tick hrun htick

/-- All that a command can do: every answer of `exec` is one of the outcomes. -/
theorem commandStep_of_exec {s t : State} {i : Instr} (h : exec i s = .next t) : CommandStep s i t := by
  cases i with
  | sei => cases h; exact .sei
  | sleep => cases h; exact .sleep
  | csenter k => cases h; exact .csenter k
  | csexit k =>
    simp only [exec, execCsexit] at h
    split at h <;> cases h
    · next hw => exact .csexit k hw
    · next hw => exact .slotUnwritten k (by simpa using hw)
  | push d => cases h; exact .push d
  | sendall d => exact commandStep_sendall h
  | clkrst => cases h; exact .clkrst
  | clkrd => cases h; exact .clkrd
  | waitms n =>
    simp only [exec, execWaitms] at h
    split at h <;> cases h
    · next htimer => exact commandStep_timerWait (.inl rfl) htimer
    · next hbusy => exact .waitBusy n (.inl rfl) hbusy
  | waitus n =>
    simp only [exec, execWaitus] at h
    split at h <;> cases h
    · next htimer => exact commandStep_timerWait (.inr ⟨n, rfl, rfl⟩) htimer
    · next hbusy => exact .waitBusy (millisOfMicros n) (.inr ⟨n, rfl, rfl⟩) hbusy
  | sercfg ubrr u2x =>
    simp only [exec, execSercfg] at h
    split at h <;> cases h
    · next hcfgd => exact .sercfgAgain ubrr u2x hcfgd
    · next hcfgd => exact .sercfg ubrr u2x (by simpa using hcfgd)
  | tmrcfg presc ocr => exact commandStep_tmrcfg h
  | pinlo => cases h; exact commandStep_drivePin s false
  | pinhi => cases h; exact commandStep_drivePin s true

/-! ## The steps of the block, with FG's told apart by what stands at `cp` -/

/-- `BlockStep s t`: a turn that passes, an illegal command, a command, a handler's run or a device's takes `s` to `t`. -/
inductive BlockStep (s : State) : State → Prop where
  | pass (idle : ∀ a, s.moves a = false) : BlockStep s s.takeTurn
  | illegal (turn : s.moves .fg = true) (e : Illegal) (undecoded : decode s.fetch = .error e) :
      BlockStep s (s.takeTurn.raise .illegalCommand)
  | command {t : State} (i : Instr) (run : s.executes i) (effect : CommandStep s.takeTurn i t) : BlockStep s t
  | txisr (turn : s.moves .txisr = true) : BlockStep s (txIsr s.takeTurn)
  | tmrisr (turn : s.moves .tmrisr = true) : BlockStep s (tmrIsr s.takeTurn)
  | serdev (turn : s.moves .serdev = true) : BlockStep s (serDev s.takeTurn)
  | tmrdev (turn : s.moves .tmrdev = true) : BlockStep s (tmrDev s.takeTurn)

/-- All that a step can do (`step_cases`), down to the outcomes of the commands. -/
theorem blockStep_of_step {s t : State} (h : step s = .next t) : BlockStep s t := by
  obtain ⟨hidle, rfl⟩ | ⟨hm, hfg⟩ | ⟨hm, rfl⟩ | ⟨hm, rfl⟩ | ⟨hm, rfl⟩ | ⟨hm, rfl⟩ := step_cases h
  · exact .pass hidle
  · obtain ⟨i, hd, hi⟩ | ⟨e, he, rfl⟩ := fgStep_cases hfg
    · exact .command i ⟨hm, hd⟩ (commandStep_of_exec hi)
    · exact .illegal hm e he
  · exact .txisr hm
  · exact .tmrisr hm
  · exact .serdev hm
  · exact .tmrdev hm

/-- Where it is FG's turn, the step is a command's or an illegal command's. -/
theorem BlockStep.of_fg {s t : State} (h : BlockStep s t) (hm : s.moves .fg = true) :
    (∃ i, s.executes i ∧ CommandStep s.takeTurn i t) ∨
      (∃ e, decode s.fetch = .error e ∧ t = s.takeTurn.raise .illegalCommand) := by
  cases h with
  | command i run effect => exact .inl ⟨i, run, effect⟩
  | illegal _ e undecoded => exact .inr ⟨e, undecoded, rfl⟩
  | pass idle => exact absurd hm (by simp [idle])
  | txisr turn => cases State.moves_unique turn hm
  | tmrisr turn => cases State.moves_unique turn hm
  | serdev turn => cases State.moves_unique turn hm
  | tmrdev turn => cases State.moves_unique turn hm

end Sys2Proof.Machine
end

section
/-! PROOFS. The writer rules of 10_state.md for the registers outside the ring: which outcome of which command writes
the save slots (R32), `I` (R31), the counter (R30) and `RES` (R33), what the handlers leave, and what moves while the
core sleeps (R36). -/

namespace Sys2Proof.Machine

/-! ## What the handlers leave (60 R217, R218) -/

@[simp] theorem txIsr_buf (s : State) : (txIsr s).buf = s.buf := by rw [txIsr_spec]; split <;> rfl
@[simp] theorem txIsr_writeIndex (s : State) : (txIsr s).writeIndex = s.writeIndex := by rw [txIsr_spec]; split <;> rfl
@[simp] theorem txIsr_counter (s : State) : (txIsr s).counter = s.counter := by rw [txIsr_spec]; split <;> rfl
@[simp] theorem txIsr_iflag (s : State) : (txIsr s).iflag = true := by rw [txIsr_spec]; split <;> rfl
@[simp] theorem txIsr_saves (s : State) : (txIsr s).saves = s.saves := by rw [txIsr_spec]; split <;> rfl
@[simp] theorem txIsr_res (s : State) : (txIsr s).res = s.res := by rw [txIsr_spec]; split <;> rfl
@[simp] theorem txIsr_cp (s : State) : (txIsr s).cp = s.cp := by rw [txIsr_spec]; split <;> rfl
@[simp] theorem txIsr_ph (s : State) : (txIsr s).ph = s.ph := by rw [txIsr_spec]; split <;> rfl
@[simp] theorem txIsr_sent (s : State) : (txIsr s).sent = s.sent := by rw [txIsr_spec]; split <;> rfl
@[simp] theorem txIsr_asleep (s : State) : (txIsr s).asleep = false := by rw [txIsr_spec]; split <;> rfl
@[simp] theorem txIsr_fault (s : State) : (txIsr s).fault = s.fault := by rw [txIsr_spec]; split <;> rfl
@[simp] theorem txIsr_pin (s : State) : (txIsr s).pin = s.pin := by rw [txIsr_spec]; split <;> rfl
@[simp] theorem txIsr_cfg (s : State) : (txIsr s).cfg = s.cfg := by rw [txIsr_spec]; split <;> rfl
@[simp] theorem txIsr_cmd (s : State) : (txIsr s).cmd = s.cmd := by rw [txIsr_spec]; split <;> rfl

/-- The drain handler disarms an empty ring, and pops from any other. -/
theorem txIsr_of_empty {s : State} (h : s.empty = true) :
    txIsr s = { s with txie := false, iflag := true, asleep := false } := by rw [txIsr_spec, if_pos h]

theorem txIsr_of_not_empty {s : State} (h : s.empty = false) :
    txIsr s = { s.popByte with iflag := true, asleep := false } := by rw [txIsr_spec, h]; rfl

/-! ## The writers among the commands -/

section
variable {s t : State} {i : Instr}

/-- Only CSENTER writes a save slot, and it writes its own. -/
theorem CommandStep.saves (h : CommandStep s i t) :
    t.saves = s.saves ∨ ∃ k, i = .csenter k ∧ t.saves = (s.writeSlot k s.iflag).saves := by
  cases h with
  | csenter k => exact .inr ⟨k, rfl, rfl⟩
  | _ => left; simp

/-- `I` is written by SEI, CSENTER and CSEXIT. -/
theorem CommandStep.iflag (h : CommandStep s i t) :
    t.iflag = s.iflag ∨ (i = .sei ∧ t.iflag = true) ∨ (∃ k, i = .csenter k ∧ t.iflag = false) ∨
      ∃ k, i = .csexit k ∧ t.iflag = (s.slot k).value := by
  cases h with
  | sei => exact .inr (.inl ⟨rfl, rfl⟩)
  | csenter k => exact .inr (.inr (.inl ⟨k, rfl, rfl⟩))
  | csexit k _ => exact .inr (.inr (.inr ⟨k, rfl, rfl⟩))
  | _ => left; simp

/-- The counter is cleared by CLKRST and by the reset micro-step of a wait, and no command writes anything else to it. -/
theorem CommandStep.counter (h : CommandStep s i t) :
    t.counter = s.counter ∨
      t.counter = 0#32 ∧
        (i = .clkrst ∨ s.cfg.clockMode = .timer ∧ s.ph = .zero ∧ ∃ n, i = .waitms n ∨ i = .waitus n) := by
  cases h with
  | clkrst => exact .inr ⟨rfl, .inl rfl⟩
  | waitReset n wait timer start =>
    have hwait : ∃ m, i = .waitms m ∨ i = .waitus m := by
      obtain hms | ⟨u, hus, -⟩ := wait
      · exact ⟨n, .inl hms⟩
      · exact ⟨u, .inr hus⟩
    exact .inr ⟨rfl, .inr ⟨timer, start, hwait⟩⟩
  | _ => left; simp

/-- The attempt of SENDALL leaves `RES` until it completes, and then marks it. -/
theorem sendAttempt_res (d : List Byte) (s : State) :
    (sendAttempt d s).res = s.res ∨ (sendAttempt d s).res.written = true := by
  rw [sendAttempt_spec d s _ rfl]
  split
  · exact .inr rfl
  · exact .inl (by simp)

/-- `RES` is written, and then marked, by PUSH, by SENDALL and by CLKRD, which gives it the counter. -/
theorem CommandStep.res (h : CommandStep s i t) :
    t.res = s.res ∨ t.res.written = true ∧
      ((∃ d, i = .push d) ∨ (∃ d, i = .sendall d) ∨ (i = .clkrd ∧ t.res.value = s.counter)) := by
  cases h with
  | push d => exact .inr ⟨rfl, .inl ⟨d, rfl⟩⟩
  | sendallNothing => exact .inr ⟨rfl, .inr (.inl ⟨[], rfl⟩)⟩
  | sendallFirst d _ _ => exact (sendAttempt_res d _).imp_right fun hw => ⟨hw, .inr (.inl ⟨d, rfl⟩)⟩
  | sendallRetry d _ => exact (sendAttempt_res d s).imp_right fun hw => ⟨hw, .inr (.inl ⟨d, rfl⟩)⟩
  | clkrd => exact .inr ⟨rfl, .inr (.inr ⟨rfl, rfl⟩)⟩
  | _ => left; simp

/-! ## The obligations on the writers -/

/-- In a step that changes a part of the state which the handlers, the devices, a turn and a fault leave alone, FG runs
the command at `cp`. -/
theorem BlockStep.command_of_ne {α : Type} (part : State → α) (h : BlockStep s t) (hne : part t ≠ part s)
    (hturn : part s.takeTurn = part s) (hfault : part (s.takeTurn.raise .illegalCommand) = part s)
    (htx : part (txIsr s.takeTurn) = part s) (htmr : part (tmrIsr s.takeTurn) = part s)
    (hser : part (serDev s.takeTurn) = part s) (hdev : part (tmrDev s.takeTurn) = part s) :
    ∃ i, s.executes i ∧ CommandStep s.takeTurn i t := by
  cases h with
  | command i run effect => exact ⟨i, run, effect⟩
  | pass => exact absurd hturn hne
  | illegal => exact absurd hfault hne
  | txisr => exact absurd htx hne
  | tmrisr => exact absurd htmr hne
  | serdev => exact absurd hser hne
  | tmrdev => exact absurd hdev hne

end

/-- Settles O17: FG's step changed the slot, so its command is a CSENTER, and one of another slot would have left it. -/
theorem saveSlotWriters : Obligations.SaveSlotWriters := by
  unfold Obligations.SaveSlotWriters
  intro s t k h hne
  obtain ⟨i, run, effect⟩ := (blockStep_of_step h).command_of_ne (fun s => s.slot k) hne rfl rfl
    (State.slot_congr (txIsr_saves _) k) rfl rfl rfl
  obtain hsame | ⟨k', rfl, hsaves⟩ := effect.saves
  · exact absurd (State.slot_congr hsame k) hne
  · have hslot : t.slot k = (s.writeSlot k' s.iflag).slot k := State.slot_congr hsaves k
    by_cases hk : k = k'
    · subst hk
      exact ⟨run, by rw [hslot, State.slot_writeSlot_self]⟩
    · rw [hslot, State.slot_writeSlot_of_ne s _ hk] at hne
      exact absurd rfl hne

/-- Settles O18: a handler starts and ends with `I = 1`, and among the commands only SEI, CSENTER and CSEXIT write it. -/
theorem enableFlagWriters : Obligations.EnableFlagWriters := by
  unfold Obligations.EnableFlagWriters
  intro s t h hne
  cases blockStep_of_step h with
  | txisr turn => simp [(State.of_moves_txisr turn).1] at hne
  | tmrisr turn => simp [tmrIsr_spec, (State.of_moves_tmrisr turn).1] at hne
  | command i run effect =>
    obtain hsame | ⟨rfl, hi⟩ | ⟨k, rfl, hi⟩ | ⟨k, rfl, hi⟩ := effect.iflag
    · exact absurd hsame hne
    · exact .inl ⟨run, hi⟩
    · exact .inr (.inl ⟨k, run, hi⟩)
    · exact .inr (.inr ⟨k, run, hi⟩)
  | pass | illegal | serdev | tmrdev => exact absurd rfl hne

/-- Settles O23: TMRISR adds `TICK`, no other handler or device touches the counter, and a command only clears it. -/
theorem counterWriters : Obligations.CounterWriters := by
  unfold Obligations.CounterWriters
  intro s t h hne
  cases blockStep_of_step h with
  | tmrisr turn => exact .inl ⟨turn, rfl⟩
  | command i run effect =>
    obtain hsame | ⟨hzero, rfl | ⟨hmode, hph, n, rfl | rfl⟩⟩ := effect.counter
    · exact absurd hsame hne
    · exact .inr ⟨run.1, hzero, .inl run⟩
    · exact .inr ⟨run.1, hzero, .inr ⟨hmode, hph, n, .inl run⟩⟩
    · exact .inr ⟨run.1, hzero, .inr ⟨hmode, hph, n, .inr run⟩⟩
  | txisr => exact absurd (txIsr_counter _) hne
  | pass | illegal | serdev | tmrdev => exact absurd rfl hne

/-- Settles O50: FG's step changed `RES`, so its command is one of the three writers. -/
theorem resultRegisterWriters : Obligations.ResultRegisterWriters := by
  unfold Obligations.ResultRegisterWriters
  intro s t h hne
  obtain ⟨i, run, effect⟩ := (blockStep_of_step h).command_of_ne State.res hne rfl rfl (txIsr_res _) rfl rfl rfl
  obtain hsame | ⟨hmark, ⟨d, rfl⟩ | ⟨d, rfl⟩ | ⟨rfl, hvalue⟩⟩ := effect.res
  · exact absurd hsame hne
  · exact ⟨hmark, .inl ⟨d, run⟩⟩
  · exact ⟨hmark, .inr (.inl ⟨d, run⟩)⟩
  · exact ⟨hmark, .inr (.inr ⟨run, hvalue⟩)⟩

/-! ## Sleep -/

theorem State.moves_fg_of_asleep {s : State} (h : s.asleep = true) : s.moves .fg = false := by
  by_contra hm
  have hawake := (State.of_moves_fg (by simpa using hm)).2.1
  rw [h] at hawake
  cases hawake

theorem State.moves_eq_false_of_ne {s : State} {a b : Agent} (h : s.moves a = true) (hne : a ≠ b) :
    s.moves b = false := by
  by_contra hb
  exact hne (State.moves_unique h (by simpa using hb))

/-- Settles O51: FG does not move while the core sleeps, a device leaves the core asleep, and a handler wakes it. -/
theorem onlyHandlersWake : Obligations.OnlyHandlersWake := by
  unfold Obligations.OnlyHandlersWake
  intro s t hasleep h
  have hfg := State.moves_fg_of_asleep hasleep
  cases blockStep_of_step h with
  | command i run _ => exact absurd run.1 (by simp [hfg])
  | illegal turn => exact absurd turn (by simp [hfg])
  | txisr turn => simp [turn]
  | tmrisr turn => simp [tmrIsr_spec, turn]
  | pass idle => simp [idle, hasleep]
  | serdev turn =>
    simp [State.moves_eq_false_of_ne turn (b := .txisr) (by decide),
      State.moves_eq_false_of_ne turn (b := .tmrisr) (by decide), hasleep]
  | tmrdev turn =>
    simp [State.moves_eq_false_of_ne turn (b := .txisr) (by decide),
      State.moves_eq_false_of_ne turn (b := .tmrisr) (by decide), hasleep]

end Sys2Proof.Machine
end

section
/-! PROOFS. The ring and the transmitter's bits under a step: FG changes them only as push_bytes of the bytes its command
offers (42_ringbuffer_tx.md R140, R144), so the rules of 10_state.md for the indices (R22), `UDR` (R41) and the ownership
of the state (R42) follow from what push_bytes does. -/

namespace Sys2Proof.Machine

/-! ## The part of the state that push_bytes reads and writes -/

/-- `t` has the ring, the register and the transmitter's bits of `s`, and the same `N`. -/
structure SameTransmitter (s t : State) : Prop where
  buf : t.buf = s.buf
  readIndex : t.readIndex = s.readIndex
  writeIndex : t.writeIndex = s.writeIndex
  udr : t.udr = s.udr
  udre : t.udre = s.udre
  txie : t.txie = s.txie
  cfg : t.cfg = s.cfg

section
variable {s t : State}

theorem SameTransmitter.trans {u : State} (h : SameTransmitter s t) (h' : SameTransmitter t u) : SameTransmitter s u where
  buf := h'.buf.trans h.buf
  readIndex := h'.readIndex.trans h.readIndex
  writeIndex := h'.writeIndex.trans h.writeIndex
  udr := h'.udr.trans h.udr
  udre := h'.udre.trans h.udre
  txie := h'.txie.trans h.txie
  cfg := h'.cfg.trans h.cfg

theorem SameTransmitter.slotOf (h : SameTransmitter s t) (x : Half) : t.slotOf x = s.slotOf x := by
  simp only [State.slotOf, State.mask, State.slots, h.cfg]

theorem SameTransmitter.empty (h : SameTransmitter s t) : t.empty = s.empty := by
  simp only [State.empty, State.mask, State.slots, h.cfg, h.readIndex, h.writeIndex]

theorem SameTransmitter.full (h : SameTransmitter s t) : t.full = s.full := by
  simp only [State.full, State.mask, State.slots, h.cfg, h.readIndex, h.writeIndex]

theorem SameTransmitter.ringWf (h : SameTransmitter s t) (hwf : s.ringWf) : t.ringWf := by
  unfold State.ringWf State.slots
  rw [h.buf, h.cfg]
  exact hwf

theorem SameTransmitter.armedWf (h : SameTransmitter s t) (hwf : s.armedWf) : t.armedWf := by
  intro hne
  rw [h.empty] at hne
  rw [h.txie]
  exact hwf hne

theorem SameTransmitter.pushByte (h : SameTransmitter s t) (b : Byte) :
    SameTransmitter (s.pushByte b) (t.pushByte b) where
  buf := by simp [h.buf, h.writeIndex, h.slotOf]
  readIndex := h.readIndex
  writeIndex := by simp [h.writeIndex]
  udr := h.udr
  udre := h.udre
  txie := h.txie
  cfg := h.cfg

theorem SameTransmitter.popByte (h : SameTransmitter s t) : SameTransmitter s.popByte t.popByte where
  buf := h.buf
  readIndex := by simp [h.readIndex]
  writeIndex := h.writeIndex
  udr := by simp [h.buf, h.readIndex, h.slotOf]
  udre := rfl
  txie := h.txie
  cfg := h.cfg

theorem SameTransmitter.enqueue (h : SameTransmitter s t) (d : List Byte) :
    (State.enqueue d t).1 = (State.enqueue d s).1 ∧
      SameTransmitter (State.enqueue d s).2 (State.enqueue d t).2 := by
  induction d generalizing s t with
  | nil => exact ⟨rfl, h⟩
  | cons b d ih =>
    cases hf : s.full with
    | true =>
      rw [State.enqueue_of_full hf, State.enqueue_of_full (h.full.trans hf)]
      exact ⟨rfl, h⟩
    | false =>
      obtain ⟨hcount, hsame⟩ := ih (h.pushByte b)
      rw [State.enqueue_cons hf, State.enqueue_cons (h.full.trans hf)]
      exact ⟨by rw [hcount], hsame⟩

theorem SameTransmitter.arm (h : SameTransmitter s t) : SameTransmitter s.arm t.arm := by
  rw [State.arm_eq, State.arm_eq]
  exact { h with txie := rfl }

theorem SameTransmitter.handOff (h : SameTransmitter s t) : SameTransmitter s.handOff t.handOff := by
  unfold State.handOff
  rw [h.udre]
  split
  · exact h.popByte
  · exact h

/-- push_bytes depends on nothing else, and does the same from two states that agree there. -/
theorem SameTransmitter.pushBytes (h : SameTransmitter s t) (d : List Byte) :
    SameTransmitter (State.pushBytes d s).2 (State.pushBytes d t).2 := by
  obtain ⟨hcount, hsame⟩ := h.enqueue d
  unfold State.pushBytes
  rw [h.empty, hcount]
  split
  · exact hsame.arm.handOff
  · exact hsame

end

/-! ## push_bytes, field by field (42 R140 to R143) -/

theorem State.pushBytes_writeIndex (d : List Byte) (s : State) :
    (State.pushBytes d s).2.writeIndex = s.writeIndex + BitVec.ofNat 16 (min d.length s.free) := by
  rw [(State.pushBytes_spec d s).2]

theorem State.pushBytes_txie (d : List Byte) (s : State) :
    (State.pushBytes d s).2.txie = if s.empty = true ∧ d ≠ [] then true else s.txie := by
  rw [(State.pushBytes_spec d s).2]

theorem State.pushBytes_udre (d : List Byte) (s : State) :
    (State.pushBytes d s).2.udre = if s.empty = true ∧ d ≠ [] then false else s.udre := by
  rw [(State.pushBytes_spec d s).2]

/-- `read_index` and `UDR` are written together, in the hand-off of a byte from an empty ring (42 R143). -/
theorem State.pushBytes_handOff (d : List Byte) (s : State) :
    ((State.pushBytes d s).2.readIndex = s.readIndex ∧ (State.pushBytes d s).2.udr = s.udr) ∨
      ((State.pushBytes d s).2.readIndex = s.readIndex + 1#16 ∧ (State.pushBytes d s).2.udre = false ∧
        s.empty = true ∧ d ≠ [] ∧ s.udre = true) := by
  rw [(State.pushBytes_spec d s).2]
  by_cases h : s.empty = true ∧ d ≠ [] ∧ s.udre = true
  · exact .inr ⟨if_pos h, if_pos ⟨h.1, h.2.1⟩, h⟩
  · exact .inl ⟨if_neg h, if_neg h⟩

/-- An empty ring takes at least one of the bytes offered. -/
theorem State.take_free_ne_nil {s : State} {d : List Byte} (he : s.empty = true) (hd : d ≠ []) :
    d.take s.free ≠ [] := by
  have hfree := s.free_add_occupancy
  have hslots := s.two_le_slots
  rw [s.empty_iff_occupancy.1 he] at hfree
  rw [Ne, List.take_eq_nil_iff, not_or]
  exact ⟨by omega, hd⟩

/-! ## What FG does to the transmitter -/

@[simp] theorem State.takeTurn_offered (s : State) (i : Instr) : s.takeTurn.offered i = s.offered i := by
  cases i <;> rfl

theorem SameTransmitter.takeTurn (s : State) : SameTransmitter s s.takeTurn := ⟨rfl, rfl, rfl, rfl, rfl, rfl, rfl⟩

theorem SameTransmitter.sendAttempt (d : List Byte) (s : State) :
    SameTransmitter (State.pushBytes (d.drop s.sent.toNat) s).2 (Machine.sendAttempt d s) := by
  constructor <;> simp

/-- A wait and a pin command offer nothing to the ring. -/
theorem State.offered_of_waitsFor (s : State) {i : Instr} {n : Word} (h : waitsFor i n) : s.offered i = [] := by
  obtain rfl | ⟨u, rfl, -⟩ := h <;> rfl

theorem State.offered_pinCommand (s : State) (level : Bool) : s.offered (pinCommand level) = [] := by
  cases level <;> rfl

/-- A micro-step of a command changes the transmitter as push_bytes of the bytes it offers does. -/
theorem CommandStep.transmitter {s t : State} {i : Instr} (h : CommandStep s i t) :
    SameTransmitter (State.pushBytes (s.offered i) s).2 t := by
  have hnone {u : State} (hoffer : s.offered i = []) (hsame : SameTransmitter s u) :
      SameTransmitter (State.pushBytes (s.offered i) s).2 u := by
    rw [hoffer, State.pushBytes_nil]
    exact hsame
  cases h with
  | push d => exact ⟨rfl, rfl, rfl, rfl, rfl, rfl, rfl⟩
  | sendallFirst d start =>
    have hsent : SameTransmitter s { s with sent := 0#8 } := ⟨rfl, rfl, rfl, rfl, rfl, rfl, rfl⟩
    have hoffer : s.offered (.sendall d) = d := by simp [State.offered, start]
    rw [hoffer]
    exact (hsent.pushBytes d).trans (.sendAttempt d { s with sent := 0#8 })
  | sendallRetry d attempt =>
    have hoffer : s.offered (.sendall d) = d.drop s.sent.toNat := by simp [State.offered, attempt]
    rw [hoffer]
    exact .sendAttempt d s
  | sendallNothing start => exact hnone (by simp [State.offered, start]) ⟨rfl, rfl, rfl, rfl, rfl, rfl, rfl⟩
  | sendallSleep d asleep => exact hnone (by simp [State.offered, asleep]) ⟨rfl, rfl, rfl, rfl, rfl, rfl, rfl⟩
  | waitBusy n wait | waitReset n wait | waitDone n wait | waitMore n wait | waitSleep n wait =>
    exact hnone (s.offered_of_waitsFor wait) ⟨rfl, rfl, rfl, rfl, rfl, rfl, rfl⟩
  | pin level drives | pinDrawn level drives | pinFailed level drives =>
    exact hnone (by rw [drives, s.offered_pinCommand]) ⟨rfl, rfl, rfl, rfl, rfl, rfl, rfl⟩
  | _ => exact hnone rfl ⟨rfl, rfl, rfl, rfl, rfl, rfl, rfl⟩

/-- FG's step changes the transmitter as push_bytes of some data does, and accepts of that data what fits. -/
theorem BlockStep.transmitter {s t : State} (h : BlockStep s t) (hm : s.moves .fg = true) :
    ∃ d : List Byte, s.accepts = d.take s.free ∧ SameTransmitter (State.pushBytes d s).2 t := by
  obtain ⟨i, run, effect⟩ | ⟨e, undecoded, rfl⟩ := h.of_fg hm
  · refine ⟨s.offered i, by simp [State.accepts, run.1, run.2], ?_⟩
    have hsame := effect.transmitter
    rw [State.takeTurn_offered] at hsame
    exact ((SameTransmitter.takeTurn s).pushBytes _).trans hsame
  · refine ⟨[], by simp [State.accepts, hm, undecoded], ?_⟩
    rw [State.pushBytes_nil]
    exact ⟨rfl, rfl, rfl, rfl, rfl, rfl, rfl⟩

/-- Without FG nothing is accepted. -/
theorem State.accepts_of_not_fg {s : State} (h : s.moves .fg = false) : s.accepts = [] := by
  simp [State.accepts, h]

/-- The indices and `UDR` in a step that is not FG's: only TXISR's pop from a ring that is not empty moves them. -/
theorem BlockStep.pop_of_not_fg {s t : State} (h : BlockStep s t) (hm : s.moves .fg = false) :
    t.writeIndex = s.writeIndex ∧
      ((t.readIndex = s.readIndex ∧ t.udr = s.udr) ∨
        (t.readIndex = s.readIndex + 1#16 ∧ t.udre = false ∧ s.moves .txisr = true ∧ s.empty = false)) := by
  cases h with
  | txisr turn =>
    refine ⟨txIsr_writeIndex _, ?_⟩
    cases he : s.empty with
    | true => rw [txIsr_of_empty (s := s.takeTurn) he]; exact .inl ⟨rfl, rfl⟩
    | false => rw [txIsr_of_not_empty (s := s.takeTurn) he]; exact .inr ⟨rfl, rfl, turn, rfl⟩
  | command i run _ => exact absurd run.1 (by simp [hm])
  | illegal turn => exact absurd turn (by simp [hm])
  | pass | tmrisr | serdev | tmrdev => exact ⟨rfl, .inl ⟨rfl, rfl⟩⟩

/-! ## The obligations on the transmitter -/

/-- Settles O30: FG's step moves the indices as push_bytes does, and the only other pop is TXISR's. -/
theorem indicesOnlyAdvance : Obligations.IndicesOnlyAdvance := by
  unfold Obligations.IndicesOnlyAdvance
  intro s t h
  cases hm : s.moves .fg with
  | true =>
    obtain ⟨d, hacc, hsame⟩ := (blockStep_of_step h).transmitter hm
    refine ⟨by rw [hsame.writeIndex, State.pushBytes_writeIndex, hacc, List.length_take, Nat.min_comm], ?_⟩
    rw [hsame.readIndex, hsame.udre, hacc]
    obtain ⟨hread, -⟩ | ⟨hread, hafter, he, hd, hbefore⟩ := State.pushBytes_handOff d s
    · exact .inl hread
    · exact .inr ⟨hread, hbefore, hafter, .inr ⟨rfl, he, State.take_free_ne_nil he hd⟩⟩
  | false =>
    obtain ⟨hwrite, hpop⟩ := (blockStep_of_step h).pop_of_not_fg hm
    refine ⟨by rw [hwrite, State.accepts_of_not_fg hm]; simp, ?_⟩
    obtain ⟨hread, -⟩ | ⟨hread, hafter, turn, hne⟩ := hpop
    · exact .inl hread
    · exact .inr ⟨hread, (State.of_moves_txisr turn).2.2, hafter, .inl ⟨turn, hne⟩⟩

/-- Settles O34: FG writes `UDR` only in a hand-off, TXISR only in a pop, and both start with `UDRE = 1`. -/
theorem registerNeverOverwritten : Obligations.RegisterNeverOverwritten := by
  unfold Obligations.RegisterNeverOverwritten
  intro s t h
  have hwrite : t.udr = s.udr ∨ (s.udre = true ∧ t.udre = false) := by
    cases hm : s.moves .fg with
    | true =>
      obtain ⟨d, -, hsame⟩ := (blockStep_of_step h).transmitter hm
      rw [hsame.udr, hsame.udre]
      obtain ⟨-, hudr⟩ | ⟨-, hafter, -, -, hbefore⟩ := State.pushBytes_handOff d s
      · exact .inl hudr
      · exact .inr ⟨hbefore, hafter⟩
    | false =>
      obtain ⟨-, ⟨-, hudr⟩ | ⟨-, hafter, turn, -⟩⟩ := (blockStep_of_step h).pop_of_not_fg hm
      · exact .inl hudr
      · exact .inr ⟨(State.of_moves_txisr turn).2.2, hafter⟩
  obtain hudr | ⟨hbefore, hafter⟩ := hwrite
  · exact ⟨fun _ => hudr, fun hne => absurd hudr hne⟩
  · exact ⟨fun hbusy => (by simp [hbefore] at hbusy), fun _ => ⟨hbefore, hafter⟩⟩

/-- No command writes `line` or `OCF`. -/
theorem CommandStep.line_ocf {s t : State} {i : Instr} (h : CommandStep s i t) : t.line = s.line ∧ t.ocf = s.ocf := by
  cases h <;> simp

/-- FG's row of the ownership table (10 R42) outside the transmitter: `line` and `OCF` are not its own, and it only
clears the counter. -/
theorem BlockStep.owns_of_fg {s t : State} (h : BlockStep s t) (hm : s.moves .fg = true) :
    t.line = s.line ∧ t.ocf = s.ocf ∧ (t.counter = s.counter ∨ t.counter = 0#32) := by
  obtain ⟨i, -, effect⟩ | ⟨e, -, rfl⟩ := h.of_fg hm
  · obtain ⟨hline, hocf⟩ := effect.line_ocf
    exact ⟨hline, hocf, effect.counter.imp_right And.left⟩
  · exact ⟨rfl, rfl, .inl rfl⟩

/-- Settles O48: each handler and device is a record update of its own fields, and FG changes the transmitter as
push_bytes does. -/
theorem ownershipOfState : Obligations.OwnershipOfState := by
  unfold Obligations.OwnershipOfState
  intro s t h
  refine ⟨fun hm => ?_, fun hm => ?_, fun hm => ?_, fun hm => ?_, fun hm => ?_⟩
  · rw [step_of_moves hm] at h
    cases h
    rw [txIsr_spec]
    split <;> rfl
  · rw [step_of_moves hm] at h; cases h; rfl
  · rw [step_of_moves hm] at h; cases h; rfl
  · rw [step_of_moves hm] at h; cases h; rfl
  · obtain ⟨hline, hocf, hcounter⟩ := (blockStep_of_step h).owns_of_fg hm
    obtain ⟨d, hacc, hsame⟩ := (blockStep_of_step h).transmitter hm
    refine ⟨hline, hocf, fun hbusy => ?_, fun harmed => ?_, hcounter, fun hchange => ?_⟩
    · rw [hsame.udre, State.pushBytes_udre, hbusy, ite_self]
    · rw [hsame.txie, State.pushBytes_txie, harmed, ite_self]
    · obtain ⟨hread, hudr⟩ | ⟨-, -, he, hd, hbefore⟩ := State.pushBytes_handOff d s
      · rw [hsame.readIndex, hsame.udr, hread, hudr] at hchange
        exact absurd hchange (by simp)
      · exact ⟨he, hbefore, by rw [hacc]; exact State.take_free_ne_nil he hd⟩

end Sys2Proof.Machine
end

section
/-! PROOFS. The invariant of the block (10_state.md R28, R29, R34, R35, R40; 20_memory.md R60): it holds at reset, and
every step of every agent keeps each of its four parts. -/

namespace Sys2Proof.Machine

/-! ## A command stands within the stream (30 R85) -/

/-- A command that decodes is well-formed and as long as the bytes it was decoded from, or shorter. -/
theorem decodeOperands_bounds {m : Mnemonic} {op : Byte} {rest : List Byte} {i : Instr}
    (h : decodeOperands m op rest = .ok i) : i.wf = true ∧ i.size ≤ rest.length + 1 := by
  have hdata {f : List Byte → Instr} (hf : (takeData rest).map f = .ok i) :
      ∃ d, i = f d ∧ d.length ≤ 255 ∧ 2 + d.length ≤ rest.length + 1 := by
    cases hd : takeData rest with
    | error e => rw [hd] at hf; cases hf
    | ok d =>
      rw [hd] at hf
      cases hf
      obtain ⟨len, tail, rfl, hlen⟩ := takeData_eq_ok.1 hd
      have := len.isLt
      exact ⟨d, rfl, by omega, by simp; omega⟩
  have himm {f : Word → Instr} (hf : (takeImm32 rest).map f = .ok i) : ∃ n, i = f n ∧ 5 ≤ rest.length + 1 := by
    cases hn : takeImm32 rest with
    | error e => rw [hn] at hf; cases hf
    | ok n =>
      rw [hn] at hf
      cases hf
      obtain ⟨b0, b1, b2, b3, tail, rfl, -⟩ := takeImm32_eq_ok.1 hn
      exact ⟨n, rfl, by simp⟩
  cases m with
  | PUSH => obtain ⟨d, rfl, hd, hsize⟩ := hdata h; exact ⟨decide_eq_true hd, hsize⟩
  | SENDALL => obtain ⟨d, rfl, hd, hsize⟩ := hdata h; exact ⟨decide_eq_true hd, hsize⟩
  | WAITMS => obtain ⟨n, rfl, hsize⟩ := himm h; exact ⟨rfl, hsize⟩
  | WAITUS => obtain ⟨n, rfl, hsize⟩ := himm h; exact ⟨rfl, hsize⟩
  | TMRCFG => obtain ⟨n, rfl, hsize⟩ := himm h; exact ⟨rfl, hsize⟩
  | SERCFG =>
    simp only [decodeOperands] at h
    split at h
    · split at h <;> cases h
      exact ⟨rfl, by simp [Instr.size]⟩
    · cases h
  | _ => cases h; exact ⟨rfl, by simp [Instr.size]⟩

theorem decode_bounds {bs : List Byte} {i : Instr} (h : decode bs = .ok i) : i.wf = true ∧ i.size ≤ bs.length := by
  cases bs with
  | nil => cases h
  | cons op rest =>
    rw [decode_cons] at h
    split at h
    · cases h
    · exact decodeOperands_bounds h

/-! ## The ring (20 R60) and its arming (10 R40) -/

theorem State.pushBytes_armedWf {s : State} (h : s.armedWf) (d : List Byte) : (State.pushBytes d s).2.armedWf := by
  intro hne
  rw [State.pushBytes_txie]
  by_cases hrise : s.empty = true ∧ d ≠ []
  · rw [if_pos hrise]
  · rw [if_neg hrise]
    by_cases hd : d = []
    · subst hd; rw [State.pushBytes_nil] at hne; exact h hne
    · exact h (by simpa using fun he => hrise ⟨he, hd⟩)

theorem CommandStep.ringWf {s t : State} {i : Instr} (h : CommandStep s i t) (hwf : s.ringWf) : t.ringWf :=
  h.transmitter.ringWf (State.pushBytes_ringWf hwf _)

theorem CommandStep.armedWf {s t : State} {i : Instr} (h : CommandStep s i t) (hwf : s.armedWf) : t.armedWf :=
  h.transmitter.armedWf (State.pushBytes_armedWf hwf _)

/-! ## The timer (10 R28, R29) -/

/-- TMRCFG starts the timer with a tick that is accepted, and so not 0 (43 R167); no other command touches it. -/
theorem CommandStep.timerWf {s t : State} {i : Instr} (h : CommandStep s i t) (hwf : s.timerWf) : t.timerWf := by
  cases h with
  | tmrcfg presc ocr tick first accepted => exact ⟨rfl, fun _ => rfl, fun _ => (acceptedTick_eq_some.1 accepted).2⟩
  | _ => simpa [State.timerWf] using hwf

/-! ## The sequencer (10 R34 to R37) -/

theorem CommandStep.cmd {s t : State} {i : Instr} (h : CommandStep s i t) : t.cmd = s.cmd := by
  cases h <;> simp

theorem State.composite_of_inProgress {s : State} {i : Instr} (h : s.inProgress i) : i.composite = true := by
  cases i with
  | sendall | waitms | waitus => rfl
  | _ => exact h.elim

theorem State.inProgress_waitsFor (s : State) {i : Instr} {n : Word} (h : waitsFor i n) :
    s.inProgress i ↔ s.cfg.clockMode = .timer := by
  obtain rfl | ⟨u, rfl, -⟩ := h <;> rfl

theorem size_waitsFor {i : Instr} {n : Word} (h : waitsFor i n) : i.size = 5 := by
  obtain rfl | ⟨u, rfl, -⟩ := h <;> rfl

theorem size_pinCommand (level : Bool) : (pinCommand level).size = 1 := by cases level <;> rfl

theorem composite_pinCommand (level : Bool) : (pinCommand level).composite = false := by cases level <;> rfl

/-- What a micro-step of the command `i` does to FG's place in the stream (30 R86): the command completes, or goes on
from the same place, or faults there without having started (60 R234). -/
inductive Sequencing (s : State) (i : Instr) (t : State) : Prop where
  | completes (ph : t.ph = .zero) (cp : t.cp = s.cp + i.size) (fault : t.fault = s.fault)
  | continues (cp : t.cp = s.cp) (progress : t.inProgress i) (fault : t.fault = s.fault)
  | faults (ph : t.ph = .zero) (cp : t.cp = s.cp) (asleep : t.asleep = s.asleep)

/-- Only `cp`, `fault` and `asleep` of the state before matter. -/
theorem Sequencing.of_start {s u t : State} {i : Instr} (h : Sequencing u i t) (hcp : u.cp = s.cp)
    (hfault : u.fault = s.fault) (hasleep : u.asleep = s.asleep) : Sequencing s i t := by
  cases h with
  | completes ph cp fault => exact .completes ph (hcp ▸ cp) (fault.trans hfault)
  | continues cp progress fault => exact .continues (cp.trans hcp) progress (fault.trans hfault)
  | faults ph cp asleep => exact .faults ph (cp.trans hcp) (asleep.trans hasleep)

/-- The attempt of SENDALL completes, or leaves bytes unsent: `sent` does not wrap, for at most 255 bytes of data. -/
theorem sequencing_sendAttempt {s : State} {d : List Byte} (hfits : d.length ≤ 255) (hsent : s.sent.toNat < d.length) :
    Sequencing s (.sendall d) (sendAttempt d s) := by
  have hcount : (s.sent + BitVec.ofNat 8 (min (d.length - s.sent.toNat) s.free)).toNat ≤ d.length := by
    rw [BitVec.toNat_add, BitVec.toNat_ofNat]
    omega
  have hfault := sendAttempt_fault d s
  rw [sendAttempt_spec d s _ rfl] at hfault ⊢
  split at hfault
  · next hall => rw [if_pos hall]; exact .completes rfl rfl hfault
  · next hrest => rw [if_neg hrest]; exact .continues (by simp) (Nat.lt_of_le_of_ne hcount hrest) hfault

/-- Every command moves on in one of the three ways, if it is one that can be in progress wherever one is. -/
theorem CommandStep.sequencing {s t : State} {i : Instr} (h : CommandStep s i t) (hwf : i.wf = true)
    (hprogress : s.ph ≠ .zero → s.inProgress i) : Sequencing s i t := by
  have hsimple (hi : i.composite = false) : s.ph = .zero := by
    by_contra hph
    rw [State.composite_of_inProgress (hprogress hph)] at hi
    cases hi
  cases h with
  | sendallNothing start => exact .completes start rfl rfl
  | sendallFirst d start nonempty =>
    have hseq := sequencing_sendAttempt (s := { s with sent := 0#8 }) (of_decide_eq_true hwf)
      (List.length_pos_of_ne_nil nonempty)
    exact hseq.of_start rfl rfl rfl
  | sendallRetry d attempt =>
    exact sequencing_sendAttempt (of_decide_eq_true hwf) (hprogress (by simp [attempt]))
  | sendallSleep d asleep => exact .continues rfl (hprogress (by simp [asleep])) rfl
  | waitBusy n wait busy =>
    have hph : s.ph = .zero := by
      by_contra hph
      have htimer := (s.inProgress_waitsFor wait).1 (hprogress hph)
      rw [busy] at htimer
      cases htimer
    exact .completes hph (by rw [size_waitsFor wait]; rfl) rfl
  | waitDone n wait timer read reached => exact .completes rfl (by rw [size_waitsFor wait]; rfl) rfl
  | waitReset n wait timer | waitMore n wait timer | waitSleep n wait timer =>
    exact .continues rfl ((State.inProgress_waitsFor _ wait).2 timer) rfl
  | pin level drives | pinDrawn level drives =>
    subst drives
    exact .completes (hsimple (composite_pinCommand level)) (by rw [size_pinCommand]; rfl) rfl
  | pinFailed level drives =>
    subst drives
    exact .faults (hsimple (composite_pinCommand level)) rfl rfl
  | slotUnwritten | sercfgAgain | tmrcfgRange | tmrcfgAgain => exact .faults (hsimple rfl) rfl rfl
  | push d => exact .completes (by simpa using hsimple rfl) (by simp [Instr.size]) (by simp)
  | _ => exact .completes (hsimple rfl) rfl rfl

/-- A command that FG runs leaves `cp` within the stream and, if it goes on, itself at `cp`. -/
theorem CommandStep.sequencerWf {s t : State} {i : Instr} (h : CommandStep s i t) (hd : decode s.fetch = .ok i)
    (hfault : s.fault = none) (hawake : s.asleep = false) (hwf : s.sequencerWf) : t.sequencerWf := by
  obtain ⟨hcp, hcommand, -, -⟩ := hwf
  obtain ⟨hi, hsize⟩ := decode_bounds hd
  have hprogress (hph : s.ph ≠ .zero) : s.inProgress i := by
    obtain ⟨j, hj, hp⟩ := hcommand hph
    rw [hd] at hj
    cases hj
    exact hp
  have hend : s.cp + i.size ≤ t.cmd.length := by
    rw [State.fetch, List.length_drop] at hsize
    rw [h.cmd]
    omega
  cases h.sequencing hi hprogress with
  | completes ph cp fault =>
    exact ⟨cp ▸ hend, fun hph => absurd ph hph, fun _ => fault.trans hfault, fun _ => fault.trans hfault⟩
  | continues cp progress fault =>
    have hfetch : t.fetch = s.fetch := by rw [State.fetch, State.fetch, h.cmd, cp]
    exact ⟨by rw [cp]; omega, fun _ => ⟨i, hfetch ▸ hd, progress⟩, fun _ => fault.trans hfault,
      fun _ => fault.trans hfault⟩
  | faults ph cp asleep =>
    refine ⟨by rw [cp]; omega, fun hph => absurd ph hph, fun hph => absurd ph hph, fun hasleep => ?_⟩
    rw [asleep, hawake] at hasleep
    cases hasleep

/-- An illegal command is met between commands only. -/
theorem State.raise_illegal_sequencerWf {s : State} {e : Illegal} (hd : decode s.fetch = .error e)
    (hawake : s.asleep = false) (hwf : s.sequencerWf) : (s.raise .illegalCommand).sequencerWf := by
  obtain ⟨hcp, hcommand, -, -⟩ := hwf
  have hph : s.ph = .zero := by
    by_contra hph
    obtain ⟨i, hi, -⟩ := hcommand hph
    rw [hd] at hi
    cases hi
  refine ⟨hcp, fun hne => absurd hph hne, fun hne => absurd hph hne, fun hasleep => ?_⟩
  rw [State.raise_asleep, hawake] at hasleep
  cases hasleep

/-! ## Each step keeps the invariant -/

theorem State.Inv.takeTurn {s : State} (h : s.Inv) : s.takeTurn.Inv := ⟨h.ring, h.armed, h.timer, h.sequencer⟩

theorem CommandStep.inv {s t : State} {i : Instr} (h : CommandStep s i t) (hd : decode s.fetch = .ok i)
    (hfault : s.fault = none) (hawake : s.asleep = false) (hinv : s.Inv) : t.Inv where
  ring := h.ringWf hinv.ring
  armed := h.armedWf hinv.armed
  timer := h.timerWf hinv.timer
  sequencer := h.sequencerWf hd hfault hawake hinv.sequencer

/-- A return from an interrupt wakes the core and leaves the rest of the sequencer (60 R219). -/
theorem State.Inv.returnInterrupt {s : State} (h : s.Inv) : s.returnInterrupt.Inv where
  ring := h.ring
  armed := h.armed
  timer := h.timer
  sequencer := by
    obtain ⟨hcp, hcommand, hinside, -⟩ := h.sequencer
    exact ⟨hcp, hcommand, hinside, nofun⟩

/-- The drain handler disarms an empty ring only, and a pop leaves `TXIE` (60 R217). -/
theorem State.Inv.drain {s : State} (h : s.Inv) (harmed : s.txie = true) : s.drain.Inv := by
  unfold State.drain
  split
  · next he =>
    refine ⟨h.ring, fun hne => ?_, h.timer, h.sequencer⟩
    exact absurd (he.symm.trans hne) (by decide)
  · exact ⟨h.ring, fun _ => harmed, h.timer, h.sequencer⟩

theorem State.Inv.enterInterrupt {s : State} (h : s.Inv) : s.enterInterrupt.Inv :=
  ⟨h.ring, h.armed, h.timer, h.sequencer⟩

theorem State.Inv.tickOnce {s : State} (h : s.Inv) : s.tickOnce.Inv := by
  obtain ⟨henabled, -, htick⟩ := h.timer
  exact ⟨h.ring, h.armed, ⟨henabled, nofun, htick⟩, h.sequencer⟩

theorem State.Inv.serDev {s : State} (h : s.Inv) : (serDev s).Inv := ⟨h.ring, h.armed, h.timer, h.sequencer⟩

theorem State.Inv.tmrDev {s : State} (h : s.Inv) (hrun : s.tmrRun = true) : (tmrDev s).Inv := by
  obtain ⟨henabled, -, htick⟩ := h.timer
  exact ⟨h.ring, h.armed, ⟨henabled, fun _ => hrun, htick⟩, h.sequencer⟩

/-- Settles O56, agent by agent: FG by the outcomes of its commands, a handler by its entry, body and return, a device
by its one write. -/
theorem stepKeepsInvariant : Obligations.StepKeepsInvariant := by
  unfold Obligations.StepKeepsInvariant
  intro s t hinv h
  cases blockStep_of_step h with
  | pass => exact hinv.takeTurn
  | command i run effect =>
    obtain ⟨hfault, hawake, -⟩ := State.of_moves_fg run.1
    exact effect.inv run.2 hfault hawake hinv.takeTurn
  | illegal turn e undecoded =>
    obtain ⟨-, hawake, -⟩ := State.of_moves_fg turn
    exact ⟨hinv.ring, hinv.armed, hinv.timer,
      State.raise_illegal_sequencerWf undecoded hawake hinv.takeTurn.sequencer⟩
  | txisr turn =>
    exact (hinv.takeTurn.enterInterrupt.drain (State.of_moves_txisr turn).2.1).returnInterrupt
  | tmrisr => exact hinv.takeTurn.enterInterrupt.tickOnce.returnInterrupt
  | serdev => exact hinv.takeTurn.serDev
  | tmrdev turn =>
    have hrun := State.of_moves_tmrdev turn
    exact hinv.takeTurn.tmrDev hrun

/-- Settles O11: after reset the ring is empty, the timer stopped, and FG between commands at offset 0. -/
theorem resetMeetsInvariant : Obligations.ResetMeetsInvariant := by
  unfold Obligations.ResetMeetsInvariant
  intro c p
  exact {
    ring := ⟨List.Pairwise.nil, nofun⟩
    armed := fun hne => absurd hne (by simp [State.empty, State.reset])
    timer := ⟨rfl, nofun, nofun⟩
    sequencer := ⟨Nat.zero_le _, fun hph => absurd rfl hph, fun _ => rfl, fun _ => rfl⟩ }

end Sys2Proof.Machine
end

section
/-! PROOFS. The byte stream from producer to line (20_memory.md R73): a pop and the line's byte move it along and leave
it as it is, push_bytes appends what it accepts, so every step and every run does. -/

namespace Sys2Proof.Machine

/-! ## The stream under the moves of a byte -/

/-- The stream depends on the line and on what push_bytes reads and writes. -/
theorem SameTransmitter.stream {s t : State} (h : SameTransmitter s t) (hline : t.line = s.line) :
    t.stream = s.stream := by
  simp only [State.stream, State.inRegister, hline, h.udre, h.udr,
    State.queue_congr h.buf h.readIndex h.writeIndex h.cfg]

/-- A pop takes the ring's oldest byte to the register, which was empty (20 R63). -/
theorem State.popByte_stream {s : State} (he : s.empty = false) (hready : s.udre = true) :
    s.popByte.stream = s.stream := by
  simp [State.stream, State.inRegister, hready, State.queue_popByte he]

/-- The device takes the byte of the register to the line (60 R220). -/
theorem serDev_stream {s : State} (hbusy : s.udre = false) : (serDev s).stream = s.stream := by
  have hqueue : (serDev s).queue = s.queue := State.queue_congr rfl rfl rfl rfl
  simp [State.stream, State.inRegister, hbusy, hqueue]

theorem State.handOff_stream {s : State} (he : s.empty = false) : s.handOff.stream = s.stream := by
  unfold State.handOff
  split
  · next hready => exact State.popByte_stream he hready
  · rfl

theorem txIsr_stream {s : State} (hready : s.udre = true) : (txIsr s).stream = s.stream := by
  cases he : s.empty with
  | true => rw [txIsr_of_empty he]; rfl
  | false => rw [txIsr_of_not_empty he]; exact State.popByte_stream he hready

/-! ## The stream under push_bytes (42 R140) -/

theorem State.enqueue_stream {s : State} (hwf : s.ringWf) (d : List Byte) :
    (State.enqueue d s).2.stream = s.stream ++ d.take s.free := by
  have hqueue := State.enqueue_queue hwf d
  rw [State.stream, hqueue, (State.enqueue_spec d s).2, ← List.append_assoc]
  rfl

/-- The ring holds something after the enqueue loop on an empty to non-empty transition. -/
theorem State.enqueue_not_empty {s : State} (hwf : s.ringWf) {d : List Byte} (he : s.empty = true) (hd : d ≠ []) :
    (State.enqueue d s).2.empty = false := by
  rw [← Bool.not_eq_true, State.empty_iff_occupancy, ← State.queue_length, State.enqueue_queue hwf,
    List.length_eq_zero_iff, List.append_eq_nil_iff]
  exact fun hnil => State.take_free_ne_nil he hd hnil.2

/-- push_bytes appends to the stream exactly what it accepts: its hand-off is a pop. -/
theorem State.pushBytes_stream {s : State} (hwf : s.ringWf) (d : List Byte) :
    (State.pushBytes d s).2.stream = s.stream ++ d.take s.free := by
  rw [← State.enqueue_stream hwf d]
  by_cases h : s.empty = true ∧ d ≠ []
  · obtain ⟨he, hd⟩ := h
    rw [State.pushBytes_of_transition he hd]
    exact State.handOff_stream (State.enqueue_not_empty hwf he hd)
  · rw [State.pushBytes_of_no_transition]
    simpa [or_iff_not_imp_left] using h

/-! ## Steps and runs -/

theorem BlockStep.stream_of_fg {s t : State} (h : BlockStep s t) (hm : s.moves .fg = true) (hwf : s.ringWf) :
    t.stream = s.stream ++ s.accepts := by
  obtain ⟨hline, -, -⟩ := h.owns_of_fg hm
  obtain ⟨d, hacc, hsame⟩ := h.transmitter hm
  rw [hsame.stream (by rw [hline, State.pushBytes_line]), State.pushBytes_stream hwf, hacc]

theorem BlockStep.stream_of_not_fg {s t : State} (h : BlockStep s t) (hm : s.moves .fg = false) :
    t.stream = s.stream := by
  cases h with
  | txisr turn => exact txIsr_stream (s := s.takeTurn) (State.of_moves_txisr turn).2.2
  | serdev turn => exact serDev_stream (s := s.takeTurn) (State.of_moves_serdev turn).2
  | command i run _ => exact absurd run.1 (by simp [hm])
  | illegal turn => exact absurd turn (by simp [hm])
  | pass | tmrisr | tmrdev => rfl

/-- Settles O32: FG appends what its push_bytes accepts; the other agents accept nothing and only move bytes along. -/
theorem fifoEveryStep : Obligations.FifoEveryStep := by
  unfold Obligations.FifoEveryStep
  intro s t hwf h
  cases hm : s.moves .fg with
  | true => exact (blockStep_of_step h).stream_of_fg hm hwf
  | false => rw [(blockStep_of_step h).stream_of_not_fg hm, State.accepts_of_not_fg hm, List.append_nil]

/-- Every step keeps the canonical form of the ring storage (20 R60), from any state. -/
theorem BlockStep.ringWf {s t : State} (h : BlockStep s t) (hwf : s.ringWf) : t.ringWf := by
  cases h with
  | command i run effect => exact effect.ringWf hwf
  | txisr => simpa [State.ringWf, State.slots] using hwf
  | pass | illegal | tmrisr | serdev | tmrdev => exact hwf

theorem acceptedIn_succ {n : Nat} {s t : State} (h : step s = .next t) :
    acceptedIn (n + 1) s = s.accepts ++ acceptedIn n t := by
  simp [acceptedIn, h]

/-- A run appends to the stream what it accepts, in order. -/
theorem runSteps_stream {n : Nat} {s t : State} (hwf : s.ringWf) (h : runSteps n s = .next t) :
    t.stream = s.stream ++ acceptedIn n s := by
  induction n generalizing s with
  | zero =>
    rw [runSteps_zero, Host.Outcome.next.injEq] at h
    simp [h, acceptedIn]
  | succ n ih =>
    obtain ⟨u, hstep, hrun⟩ := runSteps_succ_eq_next.1 h
    calc t.stream = u.stream ++ acceptedIn n u := ih ((blockStep_of_step hstep).ringWf hwf) hrun
      _ = s.stream ++ s.accepts ++ acceptedIn n u := by rw [fifoEveryStep s u hwf hstep]
      _ = s.stream ++ acceptedIn (n + 1) s := by rw [acceptedIn_succ hstep, List.append_assoc]

/-- Settles O33: the stream is empty at reset, where the ring storage is canonical. -/
theorem fifoFromReset : Obligations.FifoFromReset := by
  unfold Obligations.FifoFromReset
  intro n c p order pol s t hs h
  have hwf : s.ringWf := by subst hs; exact ⟨List.Pairwise.nil, nofun⟩
  have hreset : s.stream = [] := by
    subst hs
    simp [State.stream, State.inRegister, State.queue, State.occupancy, State.reset]
  have hrun := runSteps_stream hwf h
  rw [hreset, List.nil_append] at hrun
  exact hrun.symm

end Sys2Proof.Machine
end

section
/-! PROOFS. The block observes an index only modulo `N` (20_memory.md R64): a state whose two indices are moved by
multiples of `N` selects the same slots, and every operation of push_bytes commutes with that move. -/

namespace Sys2Proof.Machine

/-- `s` with `m * N` added to `read_index` and `l * N` to `write_index`, in their storage width (20 R64). -/
def State.shiftIndices (m l : Nat) (s : State) : State :=
  { s with
    readIndex := s.readIndex + BitVec.ofNat 16 (m * s.slots)
    writeIndex := s.writeIndex + BitVec.ofNat 16 (l * s.slots) }

/-! ## What is read through the mask -/

theorem State.slotOf_add_mul_slots (s : State) (x : Half) (m : Nat) :
    s.slotOf (x + BitVec.ofNat 16 (m * s.slots)) = s.slotOf x := by
  rw [s.slotOf_add, Nat.add_mul_mod_self_right, Nat.mod_eq_of_lt (s.slotOf_lt x)]

section
variable (m l : Nat) (s : State)

@[simp] theorem State.shiftIndices_slotOf (x : Half) : (s.shiftIndices m l).slotOf x = s.slotOf x := rfl

theorem State.shiftIndices_slotOf_readIndex :
    s.slotOf (s.shiftIndices m l).readIndex = s.slotOf s.readIndex := s.slotOf_add_mul_slots _ m

theorem State.shiftIndices_slotOf_writeIndex :
    s.slotOf (s.shiftIndices m l).writeIndex = s.slotOf s.writeIndex := s.slotOf_add_mul_slots _ l

@[simp] theorem State.shiftIndices_occupancy : (s.shiftIndices m l).occupancy = s.occupancy := by
  refine State.occupancy_unique _ s.occupancy_lt ?_
  rw [State.shiftIndices_slotOf, State.shiftIndices_slotOf, State.shiftIndices_slotOf_readIndex,
    State.shiftIndices_slotOf_writeIndex]
  exact s.occupancy_eq

@[simp] theorem State.shiftIndices_empty : (s.shiftIndices m l).empty = s.empty := by
  rw [Bool.eq_iff_iff, State.empty_iff_occupancy, State.empty_iff_occupancy, State.shiftIndices_occupancy]

@[simp] theorem State.shiftIndices_full : (s.shiftIndices m l).full = s.full := by
  rw [Bool.eq_iff_iff, State.full_iff_occupancy, State.full_iff_occupancy, State.shiftIndices_occupancy]
  rfl

@[simp] theorem State.shiftIndices_free : (s.shiftIndices m l).free = s.free := by
  rw [State.free, State.shiftIndices_occupancy]
  rfl

@[simp] theorem State.shiftIndices_queue : (s.shiftIndices m l).queue = s.queue := by
  rw [State.queue, State.queue, State.shiftIndices_occupancy]
  refine List.map_congr_left fun j _ => ?_
  rw [State.shiftIndices_slotOf, s.slotOf_add, s.slotOf_add, State.shiftIndices_slotOf_readIndex]
  rfl

/-! ## What push_bytes does -/

theorem State.pushByte_shiftIndices (b : Byte) :
    (s.shiftIndices m l).pushByte b = (s.pushByte b).shiftIndices m l := by
  simp only [State.pushByte, State.shiftIndices_slotOf, State.shiftIndices_slotOf_writeIndex]
  simp [State.shiftIndices, add_right_comm, State.slots]

theorem State.popByte_shiftIndices : (s.shiftIndices m l).popByte = s.popByte.shiftIndices m l := by
  simp only [State.popByte, State.shiftIndices_slotOf, State.shiftIndices_slotOf_readIndex]
  simp [State.shiftIndices, add_right_comm, State.slots]

theorem State.arm_shiftIndices : (s.shiftIndices m l).arm = s.arm.shiftIndices m l := by
  rw [State.arm_eq, State.arm_eq]
  rfl

theorem State.handOff_shiftIndices : (s.shiftIndices m l).handOff = s.handOff.shiftIndices m l := by
  unfold State.handOff
  rw [State.popByte_shiftIndices, apply_ite (State.shiftIndices m l)]
  rfl

theorem State.enqueue_shiftIndices (d : List Byte) :
    State.enqueue d (s.shiftIndices m l) =
      ((State.enqueue d s).1, (State.enqueue d s).2.shiftIndices m l) := by
  induction d generalizing s with
  | nil => rfl
  | cons b d ih =>
    have hsame := s.shiftIndices_full m l
    cases hf : s.full with
    | true => rw [State.enqueue_of_full hf, State.enqueue_of_full (hsame.trans hf)]
    | false =>
      rw [State.enqueue_cons hf, State.enqueue_cons (hsame.trans hf), State.pushByte_shiftIndices, ih]

theorem State.pushBytes_shiftIndices (d : List Byte) :
    State.pushBytes d (s.shiftIndices m l) =
      ((State.pushBytes d s).1, (State.pushBytes d s).2.shiftIndices m l) := by
  unfold State.pushBytes
  rw [State.enqueue_shiftIndices, State.shiftIndices_empty]
  split
  · rw [State.arm_shiftIndices, State.handOff_shiftIndices]
  · rfl

end

/-- Settles O31: the second state is `shiftIndices` of the first, and push_bytes leaves `N` as it is. -/
theorem indexWidthUnobservable : Obligations.IndexWidthUnobservable := by
  unfold Obligations.IndexWidthUnobservable
  intro s t m l d ht
  obtain rfl : t = s.shiftIndices m l := ht
  have hslots : (State.pushBytes d s).2.slots = s.slots := by rw [State.slots, State.pushBytes_cfg, State.slots]
  refine ⟨s.shiftIndices_empty m l, s.shiftIndices_full m l, s.shiftIndices_occupancy m l, s.shiftIndices_free m l,
    s.shiftIndices_queue m l, ?_, ?_⟩
  · rw [State.pushBytes_shiftIndices]
  · rw [State.pushBytes_shiftIndices, ← hslots]
    rfl

end Sys2Proof.Machine
end

section
/-! PROOFS. What no step writes: the command stream (20_memory.md R72), the parameters of the run (10_state.md R43), the
client's bit (R39) and the model's own policy. -/

namespace Sys2Proof.Machine

/-- The parts of the state that are fixed before a run or belong to the client, and the policy (log 2). -/
def State.fixedPart (s : State) : List Byte × Config × Bool × Policy :=
  (s.cmd, s.cfg, s.wantInterWordSpace, s.policy)

theorem CommandStep.fixedPart {s t : State} {i : Instr} (h : CommandStep s i t) : t.fixedPart = s.fixedPart := by
  cases h <;> simp [State.fixedPart]

theorem txIsr_fixedPart (s : State) : (txIsr s).fixedPart = s.fixedPart := by
  rw [txIsr_spec]
  split <;> rfl

theorem BlockStep.fixedPart {s t : State} (h : BlockStep s t) : t.fixedPart = s.fixedPart := by
  cases h with
  | command i run effect => exact effect.fixedPart
  | txisr => exact txIsr_fixedPart _
  | pass | illegal | tmrisr | serdev | tmrdev => rfl

/-- Settles O49: no outcome of a command and no handler, device or turn writes any of the four. -/
theorem commandStreamImmutable : Obligations.CommandStreamImmutable := by
  unfold Obligations.CommandStreamImmutable
  intro s t h
  simpa [State.fixedPart] using (blockStep_of_step h).fixedPart

end Sys2Proof.Machine
end

section
/-! PROOFS. The decoder and the encoder are inverse to each other (30_encoding.md R80 to R88): both are tied to one
table of opcode bytes, and the operands are then compared format by format. -/

namespace Sys2Proof

/-! ## Opcode bytes (30 R83) -/

/-- The opcode byte of a mnemonic; only the two of format FK have their slot `k` in it (30 R82). -/
def opcodeByte (m : Mnemonic) (k : BitVec 2) : Byte :=
  match m with
  | .SEI => 0x01#8
  | .SLEEP => 0x02#8
  | .CSENTER => 0b000100#6 ++ k
  | .CSEXIT => 0b000110#6 ++ k
  | .PUSH => 0x20#8
  | .SENDALL => 0x21#8
  | .CLKRST => 0x30#8
  | .CLKRD => 0x31#8
  | .WAITMS => 0x32#8
  | .WAITUS => 0x33#8
  | .SERCFG => 0x40#8
  | .TMRCFG => 0x41#8
  | .PINLO => 0x50#8
  | .PINHI => 0x51#8

/-- An opcode byte selects a row of its mnemonic. -/
theorem name_opcodeRow_opcodeByte (m : Mnemonic) (k : BitVec 2) :
    (opcodeRow (opcodeByte m k)).map OpcodeRow.name = some m := by
  revert k
  cases m <;> decide

/-- A byte with a row's pattern under its mask is an opcode byte of the row's mnemonic. -/
theorem eq_opcodeByte_of_pattern :
    ∀ op : Byte, ∀ r ∈ opcodeRows, op &&& r.mask = r.pattern → op = opcodeByte r.name (op.extractLsb' 0 2) := by
  decide +kernel

theorem decode_opcodeByte (m : Mnemonic) (k : BitVec 2) (rest : List Byte) :
    decode (opcodeByte m k :: rest) = decodeOperands m (opcodeByte m k) rest := by
  obtain ⟨r, hrow, hname⟩ := Option.map_eq_some_iff.1 (name_opcodeRow_opcodeByte m k)
  rw [decode_cons, hrow, ← hname]

/-- Bytes that decode begin with the opcode byte of a mnemonic, and its operands follow. -/
theorem exists_opcodeByte_of_decode {bs : List Byte} {i : Instr} (h : decode bs = .ok i) :
    ∃ m k rest, bs = opcodeByte m k :: rest ∧ decodeOperands m (opcodeByte m k) rest = .ok i := by
  cases bs with
  | nil => cases h
  | cons op rest =>
    cases hrow : opcodeRow op with
    | none => rw [decode_cons, hrow] at h; cases h
    | some r =>
      obtain ⟨hmem, hpattern⟩ := opcodeRow_eq_some hrow
      have hop := eq_opcodeByte_of_pattern op r hmem hpattern
      rw [hop, decode_opcodeByte] at h
      exact ⟨r.name, op.extractLsb' 0 2, rest, congrArg (· :: rest) hop, h⟩

/-! ## What the operands decode to -/

theorem decodeOperands_csenter (k : BitVec 2) (rest : List Byte) :
    decodeOperands .CSENTER (opcodeByte .CSENTER k) rest = .ok (.csenter k) := by
  obtain ⟨-, -, hslot, -⟩ := opcodeRow_slot k
  rw [decodeOperands, opcodeByte, hslot]

theorem decodeOperands_csexit (k : BitVec 2) (rest : List Byte) :
    decodeOperands .CSEXIT (opcodeByte .CSEXIT k) rest = .ok (.csexit k) := by
  obtain ⟨-, -, -, hslot⟩ := opcodeRow_slot k
  rw [decodeOperands, opcodeByte, hslot]

theorem decodeOperands_sercfg (op lo hi : Byte) (rest : List Byte) :
    decodeOperands .SERCFG op (lo :: hi :: rest) =
      if (half lo hi).extractLsb' 12 3 = 0#3
      then .ok (.sercfg ((half lo hi).extractLsb' 0 12) ((half lo hi).getLsbD 15))
      else .error .reservedField := rfl

theorem takeData_length_cons {d : List Byte} (hfits : dataFits d) (rest : List Byte) :
    takeData (BitVec.ofNat 8 d.length :: (d ++ rest)) = .ok d := by
  refine takeData_eq_ok.2 ⟨_, rest, rfl, ?_⟩
  rw [BitVec.toNat_ofNat]
  omega

theorem takeImm32_byteOf (n : Word) (rest : List Byte) :
    takeImm32 (byteOf n 0 :: byteOf n 1 :: byteOf n 2 :: byteOf n 3 :: rest) = .ok n :=
  congrArg Except.ok (word_byteOf n)

theorem ok_of_map_eq_ok {α β : Type} {f : α → β} {x : Except Illegal α} {b : β} (h : x.map f = .ok b) :
    ∃ a, x = .ok a ∧ f a = b := by
  cases x with
  | error e => cases h
  | ok a => exact ⟨a, rfl, Except.ok.inj h⟩

theorem error_of_map_eq_error {α β : Type} {f : α → β} {x : Except Illegal α} {e : Illegal}
    (h : x.map f = .error e) : x = .error e := by
  cases x with
  | error e' => exact congrArg Except.error (Except.error.inj h)
  | ok a => cases h

/-! ## Decode of encode -/

theorem encode_length (i : Instr) : (encode i).length = i.size := by
  cases i with
  | push d => exact Laws.EncodeLength.push d
  | sendall d => exact Laws.EncodeLength.sendall d
  | _ => rfl

/-- In each case the opcode byte selects the command's row, and the operands are read as they were written. -/
theorem decode_encode_append {i : Instr} (hwf : i.wf = true) (rest : List Byte) :
    decode (encode i ++ rest) = .ok i := by
  cases i with
  | sei => exact decode_opcodeByte .SEI 0#2 rest
  | sleep => exact decode_opcodeByte .SLEEP 0#2 rest
  | csenter k => exact (decode_opcodeByte .CSENTER k rest).trans (decodeOperands_csenter k rest)
  | csexit k => exact (decode_opcodeByte .CSEXIT k rest).trans (decodeOperands_csexit k rest)
  | push d =>
    have hdata := takeData_length_cons (of_decide_eq_true hwf) rest
    exact (decode_opcodeByte .PUSH 0#2 _).trans (congrArg (Except.map Instr.push) hdata)
  | sendall d =>
    have hdata := takeData_length_cons (of_decide_eq_true hwf) rest
    exact (decode_opcodeByte .SENDALL 0#2 _).trans (congrArg (Except.map Instr.sendall) hdata)
  | clkrst => exact decode_opcodeByte .CLKRST 0#2 rest
  | clkrd => exact decode_opcodeByte .CLKRD 0#2 rest
  | waitms n =>
    exact (decode_opcodeByte .WAITMS 0#2 _).trans (congrArg (Except.map Instr.waitms) (takeImm32_byteOf n rest))
  | waitus n =>
    exact (decode_opcodeByte .WAITUS 0#2 _).trans (congrArg (Except.map Instr.waitus) (takeImm32_byteOf n rest))
  | sercfg ubrr u2x =>
    obtain ⟨hubrr, hrsv, hu2x⟩ := serWord_fields ubrr u2x
    refine (decode_opcodeByte .SERCFG 0#2 _).trans ((decodeOperands_sercfg _ _ _ rest).trans ?_)
    rw [half_byteOf, hubrr, hrsv, hu2x, if_pos rfl]
  | tmrcfg presc ocr =>
    refine (decode_opcodeByte .TMRCFG 0#2 _).trans (congrArg Except.ok ?_)
    simp only [word_halves, half_byteOf]
  | pinlo => exact decode_opcodeByte .PINLO 0#2 rest
  | pinhi => exact decode_opcodeByte .PINHI 0#2 rest

/-- Settles O2, by cases on the command; the length is the length rule's. -/
theorem decodeOfEncode : Obligations.DecodeOfEncode := by
  unfold Obligations.DecodeOfEncode
  exact fun i rest hwf => ⟨decode_encode_append hwf rest, encode_length i⟩

/-! ## Encode of decode -/

/-- In each case the opcode byte and the operand bytes read are the encoding of what they decode to. -/
theorem encode_of_decodeOperands {m : Mnemonic} {k : BitVec 2} {rest : List Byte} {i : Instr}
    (h : decodeOperands m (opcodeByte m k) rest = .ok i) : ∃ tail, opcodeByte m k :: rest = encode i ++ tail := by
  cases m with
  | CSENTER =>
    rw [decodeOperands_csenter] at h
    cases h
    exact ⟨rest, rfl⟩
  | CSEXIT =>
    rw [decodeOperands_csexit] at h
    cases h
    exact ⟨rest, rfl⟩
  | PUSH | SENDALL =>
    obtain ⟨d, hd, rfl⟩ := ok_of_map_eq_ok h
    obtain ⟨len, tail, rfl, hlen⟩ := takeData_eq_ok.1 hd
    exact ⟨tail, by simp [encode, opcodeByte, ← hlen]⟩
  | WAITMS | WAITUS =>
    obtain ⟨n, hn, rfl⟩ := ok_of_map_eq_ok h
    obtain ⟨b0, b1, b2, b3, tail, rfl, rfl⟩ := takeImm32_eq_ok.1 hn
    exact ⟨tail, by simp [encode, opcodeByte, byteOf_word]⟩
  | TMRCFG =>
    obtain ⟨n, hn, rfl⟩ := ok_of_map_eq_ok h
    obtain ⟨b0, b1, b2, b3, tail, rfl, rfl⟩ := takeImm32_eq_ok.1 hn
    exact ⟨tail, by simp [encode, opcodeByte, word_halves, byteOf_half]⟩
  | SERCFG =>
    match rest, h with
    | lo :: hi :: tail, h =>
      rw [decodeOperands_sercfg] at h
      split at h
      · next hrsv =>
        obtain ⟨hlo, hhi⟩ := byteOf_half lo hi
        cases h
        refine ⟨tail, ?_⟩
        rw [encode, serWord_eta _ hrsv, hlo, hhi]
        rfl
      · cases h
  | SEI | SLEEP | CLKRST | CLKRD | PINLO | PINHI =>
    cases h
    exact ⟨rest, rfl⟩

theorem exists_append_of_decode {bs : List Byte} {i : Instr} (h : decode bs = .ok i) :
    ∃ rest, bs = encode i ++ rest := by
  obtain ⟨m, k, rest, rfl, hoperands⟩ := exists_opcodeByte_of_decode h
  exact encode_of_decodeOperands hoperands

/-- Settles O3: an opcode byte has one mnemonic, and the operands of each format have one spelling. -/
theorem encodeOfDecode : Obligations.EncodeOfDecode := by
  unfold Obligations.EncodeOfDecode
  exact fun bs i h => ⟨(Machine.decode_bounds h).1, exists_append_of_decode h⟩

/-- Settles O1, by running the decoder. -/
theorem writtenWordsDecode : Obligations.WrittenWordsDecode := by
  unfold Obligations.WrittenWordsDecode
  decide

/-! ## Commands in a stream -/

/-- What follows a command does not change it. -/
theorem decode_append {bs : List Byte} {i : Instr} (h : decode bs = .ok i) (more : List Byte) :
    decode (bs ++ more) = .ok i := by
  obtain ⟨hwf, -⟩ := Machine.decode_bounds h
  obtain ⟨rest, rfl⟩ := exists_append_of_decode h
  rw [List.append_assoc]
  exact decode_encode_append hwf _

/-- An encoding cut short does not decode (30 R88): what it decoded to would be the whole command, which does not fit
into it. -/
theorem decode_take_encode {i : Instr} {n : Nat} (hwf : i.wf = true) (hn : n < i.size) :
    ∃ e, decode ((encode i).take n) = .error e := by
  cases hd : decode ((encode i).take n) with
  | error e => exact ⟨e, rfl⟩
  | ok j =>
    have hwhole := decode_append hd ((encode i).drop n ++ [])
    rw [← List.append_assoc, List.take_append_drop, decode_encode_append hwf] at hwhole
    cases hwhole
    have hsize := (Machine.decode_bounds hd).2
    rw [List.length_take] at hsize
    omega

theorem streamOf_length (is : List Instr) : (Machine.streamOf is).length = (is.map Instr.size).sum := by
  simp only [Machine.streamOf, List.length_flatMap, encode_length]

theorem streamOf_append_cons (before : List Instr) (i : Instr) (after : List Instr) :
    Machine.streamOf (before ++ i :: after) = Machine.streamOf before ++ (encode i ++ Machine.streamOf after) := by
  simp [Machine.streamOf]

/-- Settles O4: with the bytes of the commands before `i` dropped, the stream begins with the encoding of `i`. -/
theorem streamDecodesInOrder : Obligations.StreamDecodesInOrder := by
  unfold Obligations.StreamDecodesInOrder
  intro before i after hwf
  refine ⟨streamOf_length before, ?_⟩
  rw [streamOf_append_cons, ← streamOf_length, List.drop_left]
  exact decode_encode_append (hwf i (by simp)) _

/-! ## Illegal commands (30 R87) -/

theorem takeData_ne_reservedOpcode (rest : List Byte) : takeData rest ≠ .error .reservedOpcode := by
  cases rest with
  | nil => exact nofun
  | cons len rest => rw [takeData_cons]; split <;> exact nofun

theorem takeImm32_ne_reservedOpcode (rest : List Byte) : takeImm32 rest ≠ .error .reservedOpcode := by
  unfold takeImm32
  split <;> exact nofun

/-- No operand makes the opcode byte reserved. -/
theorem decodeOperands_ne_reservedOpcode (m : Mnemonic) (op : Byte) (rest : List Byte) :
    decodeOperands m op rest ≠ .error .reservedOpcode := by
  cases m with
  | PUSH | SENDALL => exact fun h => takeData_ne_reservedOpcode rest (error_of_map_eq_error h)
  | WAITMS | WAITUS | TMRCFG => exact fun h => takeImm32_ne_reservedOpcode rest (error_of_map_eq_error h)
  | SERCFG =>
    match rest with
    | [] | [_] => exact nofun
    | lo :: hi :: rest => rw [decodeOperands_sercfg]; split <;> exact nofun
  | _ => exact nofun

theorem decode_eq_reservedOpcode_iff (op : Byte) (rest : List Byte) :
    decode (op :: rest) = .error .reservedOpcode ↔ opcodeRow op = none := by
  rw [decode_cons]
  cases opcodeRow op with
  | none => simp
  | some r => simp [decodeOperands_ne_reservedOpcode]

/-- The opcode bytes of the map (30 R83), byte by byte. -/
theorem opcodeRow_eq_none_iff :
    ∀ op : Byte, opcodeRow op = none ↔
      op.toNat ∉ [0x01, 0x02, 0x10, 0x11, 0x12, 0x13, 0x18, 0x19, 0x1A, 0x1B, 0x20, 0x21, 0x30, 0x31, 0x32, 0x33,
        0x40, 0x41, 0x50, 0x51] := by
  decide +kernel

/-- `rsv`, bits 14..12 of the configuration halfword, is bits 6..4 of its second byte (30 R82). -/
theorem half_reservedBits (lo hi : Byte) : (half lo hi).extractLsb' 12 3 = hi.extractLsb' 4 3 := by
  apply BitVec.eq_of_getLsbD_eq
  intro j hj
  rw [BitVec.getLsbD_extractLsb', BitVec.getLsbD_extractLsb', getLsbD_half, if_neg (by omega)]
  congr 2
  omega

theorem half_reservedBits_eq_zero_iff (lo hi : Byte) :
    (half lo hi).extractLsb' 12 3 = 0#3 ↔ hi.toNat / 16 % 8 = 0 := by
  rw [half_reservedBits, ← BitVec.toNat_inj, BitVec.extractLsb'_toNat, Nat.shiftRight_eq_div_pow]
  rfl

theorem decode_sercfg_eq_reservedField_iff (lo hi : Byte) (rest : List Byte) :
    decode (0x40#8 :: lo :: hi :: rest) = .error .reservedField ↔ hi.toNat / 16 % 8 ≠ 0 := by
  rw [show 0x40#8 = opcodeByte .SERCFG 0#2 from rfl, decode_opcodeByte, decodeOperands_sercfg, ne_eq,
    ← half_reservedBits_eq_zero_iff lo hi]
  split
  · next hzero => simp [hzero]
  · next hne => simp [hne]

end Sys2Proof
end

section
/-! PROOFS. FG's step on the bytes at `cp` (30_encoding.md R86 to R88): it runs the command they decode to, or raises
`IllegalCommand`. -/

namespace Sys2Proof.Machine

/-! ## The step by what the bytes decode to -/

theorem step_of_command {s : State} {i : Instr} (hm : s.moves .fg = true) (hd : decode s.fetch = .ok i) :
    step s = exec i s.takeTurn :=
  (step_of_moves hm).trans (fgStep_of_decode (s := s.takeTurn) hd)

/-- FG moves without a fault only, so the fault is the first and stays (60 R230). -/
theorem step_of_illegal {s : State} {e : Illegal} (hm : s.moves .fg = true) (hd : decode s.fetch = .error e) :
    step s = .next { s.takeTurn with fault := some .illegalCommand } := by
  obtain ⟨hfault, -, -⟩ := State.of_moves_fg hm
  calc step s = fgStep s.takeTurn := step_of_moves hm
    _ = .next (s.takeTurn.raise .illegalCommand) := fgStep_of_illegal (s := s.takeTurn) hd
    _ = .next { s.takeTurn with fault := some .illegalCommand } :=
      congrArg _ (State.raise_of_none (s := s.takeTurn) hfault _)

/-- Settles O5: the reserved bytes and the reserved field by the decoder, the fault by `step_of_illegal`. -/
theorem illegalCommandsFault : Obligations.IllegalCommandsFault := by
  unfold Obligations.IllegalCommandsFault
  refine ⟨fun op rest => ?_, decode_sercfg_eq_reservedField_iff, fun s e hm hd => step_of_illegal hm hd⟩
  exact (decode_eq_reservedOpcode_iff op rest).trans (opcodeRow_eq_none_iff op)

/-- Settles O6: an encoding cut short does not decode. -/
theorem truncatedCommandsFault : Obligations.TruncatedCommandsFault := by
  unfold Obligations.TruncatedCommandsFault
  intro s i n hwf _ hn hfetch hm
  obtain ⟨e, he⟩ := decode_take_encode hwf hn
  exact step_of_illegal hm (hfetch ▸ he)

/-! ## When FG is enabled (30 R86) -/

theorem State.fgFinished_iff {s : State} : s.fgFinished = true ↔ s.cmd.length ≤ s.cp ∧ s.ph = .zero := by
  simp [State.fgFinished]

theorem State.enabled_fg_iff {s : State} :
    s.enabled .fg = true ↔ s.fault = none ∧ s.asleep = false ∧ ¬ (s.cmd.length ≤ s.cp ∧ s.ph = .zero) := by
  rw [← State.fgFinished_iff]
  simp [State.enabled, State.fgEnabled, and_assoc]

/-- Settles O7, from `step_of_command` and FG's enabling condition. -/
theorem stepRunsDecodedCommand : Obligations.StepRunsDecodedCommand := by
  unfold Obligations.StepRunsDecodedCommand
  exact fun s => ⟨fun i hm hd => step_of_command hm hd, State.enabled_fg_iff, State.moves_iff⟩

/-! ## A command placed at `cp` (log 9) -/

/-- FG fetches the placed bytes, and then what stood behind them in the stream. -/
theorem State.placeCommand_fetch (s : State) (bytes : List Byte) :
    (s.placeCommand bytes).fetch = bytes ++ s.cmd.drop (s.cp + bytes.length) := by
  have hbefore : (s.cmd.take s.cp ++ List.replicate (s.cp - s.cmd.length) 0#8).length = s.cp := by
    rw [List.length_append, List.length_take, List.length_replicate]
    omega
  rw [State.fetch, State.placeCommand, List.append_assoc _ bytes]
  exact List.drop_left' hbefore

/-- FG is not finished where it can fetch a byte. -/
theorem State.moves_fg_placeCommand {s : State} {bytes : List Byte} (h : bytes ≠ []) :
    (s.placeCommand bytes).moves .fg = true := by
  refine State.moves_iff.2 ⟨rfl, State.enabled_fg_iff.2 ⟨rfl, rfl, fun hfinished => ?_⟩⟩
  have hfetch := List.drop_eq_nil_of_le hfinished.1
  rw [← State.fetch, State.placeCommand_fetch] at hfetch
  exact h (List.append_eq_nil_iff.1 hfetch).1

theorem decodeTableWord_eq_some {nbits w : Nat} {i : Instr} :
    decodeTableWord nbits w = some i ↔ decode (tableBytes nbits w) = .ok i := by
  unfold decodeTableWord
  cases decode (tableBytes nbits w) <;> simp

/-- Settles O8: the placed bytes decode to `i` whatever stands behind them, and it is FG's turn. -/
theorem placedWordRunsNext : Obligations.PlacedWordRunsNext := by
  unfold Obligations.PlacedWordRunsNext
  intro s nbits w i h
  have hd := decodeTableWord_eq_some.1 h
  have hne : tableBytes nbits w ≠ [] := fun hnil => by rw [hnil] at hd; cases hd
  refine step_of_command (State.moves_fg_placeCommand hne) ?_
  rw [State.withFetchWord, State.placeCommand_fetch]
  exact decode_append hd _

end Sys2Proof.Machine
end

section
/-! PROOFS. The system commands and the critical section (40_system_critical_section.md): what SEI, SLEEP, CSENTER and
CSEXIT answer, when a handler is enabled after them, and that a save slot keeps `I` until the section is left. -/

namespace Sys2Proof

/-! ## The opcode bytes of format FK (30 R82, R83) -/

theorem decode_ofNat_csenter (k : BitVec 2) (rest : List Byte) :
    decode (BitVec.ofNat 8 (0x10 + k.toNat) :: rest) = .ok (.csenter k) := by
  have hop : BitVec.ofNat 8 (0x10 + k.toNat) = opcodeByte .CSENTER k := by revert k; decide
  rw [hop, decode_opcodeByte, decodeOperands_csenter]

theorem decode_ofNat_csexit (k : BitVec 2) (rest : List Byte) :
    decode (BitVec.ofNat 8 (0x18 + k.toNat) :: rest) = .ok (.csexit k) := by
  have hop : BitVec.ofNat 8 (0x18 + k.toNat) = opcodeByte .CSEXIT k := by revert k; decide
  rw [hop, decode_opcodeByte, decodeOperands_csexit]

/-- The bytes with `z = 1` after those of CSENTER and of CSEXIT are reserved (30 R82). -/
theorem decode_ofNat_reserved {x : Nat} (hx : 0x14 ≤ x ∧ x ≤ 0x17 ∨ 0x1C ≤ x ∧ x ≤ 0x1F) (rest : List Byte) :
    decode (BitVec.ofNat 8 x :: rest) = .error .reservedOpcode := by
  have hbyte : (BitVec.ofNat 8 x).toNat = x := by
    rw [BitVec.toNat_ofNat]
    omega
  rw [decode_eq_reservedOpcode_iff, opcodeRow_eq_none_iff, hbyte]
  simp only [List.mem_cons, List.not_mem_nil, or_false]
  omega

end Sys2Proof

namespace Sys2Proof.Machine

/-! ## When a handler is enabled (60 R211 to R213) -/

theorem State.enabled_txisr_iff {s : State} :
    s.enabled .txisr = true ↔ s.iflag = true ∧ s.txie = true ∧ s.udre = true := by
  simp [State.enabled, State.txRequest]

theorem State.enabled_tmrisr_iff {s : State} :
    s.enabled .tmrisr = true ↔ s.iflag = true ∧ s.ocie = true ∧ s.ocf = true := by
  simp [State.enabled, State.tmrRequest]

/-- With `I = 0` no handler is enabled. -/
theorem State.handlers_not_enabled {s : State} (h : s.iflag = false) :
    s.enabled .txisr = false ∧ s.enabled .tmrisr = false := by
  simp [State.enabled, h]

theorem State.enabled_fg_of_asleep {s : State} (h : s.asleep = true) : s.enabled .fg = false := by
  simp [State.enabled, State.fgEnabled, h]

/-! ## What the commands answer (40 R101 to R104) -/

theorem exec_sei (s : State) : exec .sei s = .next { s with iflag := true, cp := s.cp + 1 } := rfl

theorem exec_sleep (s : State) : exec .sleep s = .next { s with asleep := true, cp := s.cp + 1 } := rfl

theorem exec_csenter (k : BitVec 2) (s : State) :
    exec (.csenter k) s = .next { s.writeSlot k s.iflag with iflag := false, cp := s.cp + 1 } := rfl

theorem exec_csexit_of_written {k : BitVec 2} {s : State} (h : (s.slot k).written = true) :
    exec (.csexit k) s = .next { s with iflag := (s.slot k).value, cp := s.cp + 1 } := if_pos h

theorem exec_csexit_of_unwritten {k : BitVec 2} {s : State} (h : (s.slot k).written = false) :
    exec (.csexit k) s = .next (s.raise .saveSlotUnwritten) := if_neg (by simp [h])

/-! ## A critical section (40 R105, R106) -/

theorem neverExecutes_succ {i : Instr} {n : Nat} {s t : State} (h : step s = .next t) :
    neverExecutes i (n + 1) s ↔ ¬ s.executes i ∧ neverExecutes i n t := by
  simp [neverExecutes, h]

/-- The step that enters the section captures `I` in the slot. -/
theorem slot_of_step_csenter {k : BitVec 2} {s t : State} (run : s.executes (.csenter k)) (h : step s = .next t) :
    t.slot k = ⟨s.iflag, true⟩ := by
  rw [step_of_command run.1 run.2, exec_csenter, Host.Outcome.next.injEq] at h
  subst h
  exact State.slot_writeSlot_self s.takeTurn k s.iflag

/-- The step that leaves the section restores `I` from the slot. -/
theorem iflag_of_step_csexit {k : BitVec 2} {s t : State} (run : s.executes (.csexit k))
    (written : (s.slot k).written = true) (h : step s = .next t) : t.iflag = (s.slot k).value := by
  rw [step_of_command run.1 run.2, exec_csexit_of_written (s := s.takeTurn) written, Host.Outcome.next.injEq] at h
  exact congrArg State.iflag h.symm

/-- In between, the slot stays: CSENTER of this slot is its only writer (10 R32). -/
theorem slot_of_runSteps {k : BitVec 2} {n : Nat} {s t : State} (never : neverExecutes (.csenter k) n s)
    (h : runSteps n s = .next t) : t.slot k = s.slot k := by
  induction n generalizing s with
  | zero =>
    rw [runSteps_zero, Host.Outcome.next.injEq] at h
    rw [h]
  | succ n ih =>
    obtain ⟨u, hstep, hrun⟩ := runSteps_succ_eq_next.1 h
    obtain ⟨hnot, hnever⟩ := (neverExecutes_succ hstep).1 never
    have hkept : u.slot k = s.slot k := by
      by_contra hne
      exact hnot (saveSlotWriters s u k hstep hne).1
    rw [ih hnever hrun, hkept]

/-- Settles O16: the entry captures `I` in the slot, the slot stays along the run, and the exit restores `I` from it. -/
theorem criticalSectionRestoresInterrupts : Obligations.CriticalSectionRestoresInterrupts := by
  unfold Obligations.CriticalSectionRestoresInterrupts
  intro k n s t u v hentry hst hnever hrun hexit huv
  have hslot : u.slot k = ⟨s.iflag, true⟩ :=
    (slot_of_runSteps hnever hrun).trans (slot_of_step_csenter hentry hst)
  calc v.iflag = (u.slot k).value := iflag_of_step_csexit hexit (by rw [hslot]) huv
    _ = s.iflag := by rw [hslot]

/-! ## The obligations on the commands -/

/-- Settles O12: with `I = 1` a handler is enabled by its request alone. -/
theorem seiEnablesInterrupts : Obligations.SeiEnablesInterrupts := by
  unfold Obligations.SeiEnablesInterrupts
  refine ⟨fun rest => decode_encode_append (i := .sei) rfl rest, fun s => ⟨_, exec_sei s, rfl, ?_, ?_⟩⟩
  · simp [State.enabled_txisr_iff]
  · simp [State.enabled_tmrisr_iff]

/-- Settles O13: FG is not enabled while the core sleeps, and a handler's return clears `asleep`. -/
theorem sleepHaltsForeground : Obligations.SleepHaltsForeground := by
  unfold Obligations.SleepHaltsForeground
  refine ⟨fun rest => decode_encode_append (i := .sleep) rfl rest, fun s => ⟨_, exec_sleep s, rfl, ?_, ?_, ?_⟩⟩
  · exact State.enabled_fg_of_asleep rfl
  · exact ⟨txIsr_asleep _, txIsr_cp _, rfl, rfl⟩
  · exact fun hmasked => State.handlers_not_enabled hmasked

/-- Settles O14: the slot written is `k` and no other, and with `I = 0` no handler is enabled. -/
theorem csenterCapturesAndMasks : Obligations.CsenterCapturesAndMasks := by
  unfold Obligations.CsenterCapturesAndMasks
  refine ⟨decode_ofNat_csenter, fun x rest hlo hhi => decode_ofNat_reserved (.inl ⟨hlo, hhi⟩) rest, fun k s => ?_⟩
  refine ⟨_, exec_csenter k s, rfl, ?_, fun k' hne => ?_, State.handlers_not_enabled rfl⟩
  · exact State.slot_writeSlot_self s k s.iflag
  · exact State.slot_writeSlot_of_ne s s.iflag hne

/-- Settles O15: CSEXIT keeps the slot, so the second one restores the same `I` again. -/
theorem csexitRestores : Obligations.CsexitRestores := by
  unfold Obligations.CsexitRestores
  refine ⟨decode_ofNat_csexit, fun x rest hlo hhi => decode_ofNat_reserved (.inr ⟨hlo, hhi⟩) rest,
    fun k s => ⟨fun hwritten => ?_, fun hunwritten hfault => ?_⟩⟩
  · exact ⟨_, exec_csexit_of_written hwritten, rfl, exec_csexit_of_written hwritten, State.enabled_txisr_iff,
      State.enabled_tmrisr_iff⟩
  · rw [exec_csexit_of_unwritten hunwritten, State.raise_of_none hfault]

end Sys2Proof.Machine
end

section
/-! PROOFS. The clock commands (41_clock.md): what CLKRST, CLKRD and the two waits answer, how a wait in timer mode ends,
and how often the tick handler has run by then. -/

namespace Sys2Proof.Machine

/-! ## What the commands answer (41 R121 to R125) -/

theorem exec_clkrst (s : State) : exec .clkrst s = .next { s with counter := 0#32, cp := s.cp + 1 } := rfl

theorem exec_clkrd (s : State) : exec .clkrd s = .next { s with res := ⟨s.counter, true⟩, cp := s.cp + 1 } := rfl

theorem timerWait_reset {s : State} (hph : s.ph = .zero) (n : Word) :
    timerWait n s = { s with counter := 0#32, ph := .one } := by
  simp only [timerWait, hph]

theorem timerWait_done {n : Word} {s : State} (hph : s.ph = .one) (hreached : n.toNat ≤ s.counter.toNat) :
    timerWait n s = { s with ph := .zero, cp := s.cp + 5 } := by
  simp only [timerWait, hph, if_pos (BitVec.le_def.2 hreached)]
  rfl

theorem timerWait_more {n : Word} {s : State} (hph : s.ph = .one) (hshort : s.counter.toNat < n.toNat) :
    timerWait n s = { s with ph := .two } := by
  simp only [timerWait, hph, if_neg (BitVec.not_le.2 hshort)]

theorem timerWait_sleep {s : State} (hph : s.ph = .two) (n : Word) :
    timerWait n s = { s with asleep := true, ph := .one } := by
  simp only [timerWait, hph]
  rfl

section
variable {i : Instr} {n : Word} {s : State}

theorem exec_wait_of_timer (hwait : waitsFor i n) (htimer : s.cfg.clockMode = .timer) :
    exec i s = .next (timerWait n s) := by
  obtain rfl | ⟨u, rfl, rfl⟩ := hwait
  · simp only [exec, execWaitms, htimer]
  · simp only [exec, execWaitus, htimer]

theorem exec_wait_of_busy (hwait : waitsFor i n) (hbusy : s.cfg.clockMode = .busy) :
    exec i s = .next { s with cp := s.cp + 5 } := by
  obtain rfl | ⟨u, rfl, rfl⟩ := hwait
  · simp only [exec, execWaitms, hbusy]
    rfl
  · simp only [exec, execWaitus, hbusy]
    rfl

/-- The micro-steps of either wait: the reset, the read that completes, the read that does not, and the sleep. -/
theorem exec_wait_microSteps (hwait : waitsFor i n) (htimer : s.cfg.clockMode = .timer) :
    (s.ph = .zero → exec i s = .next { s with counter := 0#32, ph := .one }) ∧
    (s.ph = .one → n.toNat ≤ s.counter.toNat → exec i s = .next { s with ph := .zero, cp := s.cp + 5 }) ∧
    (s.ph = .one → s.counter.toNat < n.toNat → exec i s = .next { s with ph := .two }) ∧
    (s.ph = .two → exec i s = .next { s with asleep := true, ph := .one }) := by
  rw [exec_wait_of_timer hwait htimer]
  refine ⟨fun hph => ?_, fun hph hreached => ?_, fun hph hshort => ?_, fun hph => ?_⟩
  · rw [timerWait_reset hph]
  · rw [timerWait_done hph hreached]
  · rw [timerWait_more hph hshort]
  · rw [timerWait_sleep hph]

end

/-- The number of milliseconds fits 32 bits (41 R124). -/
theorem millisOfMicros_toNat (n : Word) : (millisOfMicros n).toNat = (n.toNat + 999) / 1000 := by
  rw [millisOfMicros, BitVec.toNat_ofNat]
  omega

/-! ## The command pointer only moves forward (10 R34) -/

theorem sendAttempt_cp_le (d : List Byte) (s : State) : s.cp ≤ (sendAttempt d s).cp := by
  rw [sendAttempt_spec d s _ rfl]
  split <;> simp

theorem CommandStep.cp_le {s t : State} {i : Instr} (h : CommandStep s i t) : s.cp ≤ t.cp := by
  cases h with
  | sendallFirst d => exact sendAttempt_cp_le d { s with sent := 0#8 }
  | sendallRetry d => exact sendAttempt_cp_le d s
  | _ => simp

theorem BlockStep.cp_le {s t : State} (h : BlockStep s t) : s.cp ≤ t.cp := by
  cases h with
  | command i run effect => exact effect.cp_le
  | txisr => simp
  | pass | illegal | tmrisr | serdev | tmrdev => exact Nat.le_refl s.cp

theorem runSteps_cp_le {n : Nat} {s t : State} (h : runSteps n s = .next t) : s.cp ≤ t.cp :=
  runSteps_induction (P := fun t => s.cp ≤ t.cp) (fun _ _ hle hstep => hle.trans (blockStep_of_step hstep).cp_le)
    (Nat.le_refl s.cp) h

/-! ## A step while a wait stands at `cp` -/

/-- In timer mode, a wait until the counter reaches `n` milliseconds stands at `cp`. -/
structure State.WaitsAt (s : State) (n : Word) : Prop where
  timer : s.cfg.clockMode = .timer
  command : ∃ i, waitsFor i n ∧ decode s.fetch = .ok i

section
variable {n : Word} {s t : State}

/-- FG's step is then a micro-step of the wait. -/
theorem eq_timerWait_of_step (hwait : s.WaitsAt n) (hm : s.moves .fg = true) (h : step s = .next t) :
    t = timerWait n s.takeTurn := by
  obtain ⟨htimer, i, hi, hd⟩ := hwait
  rw [step_of_command hm hd, exec_wait_of_timer (s := s.takeTurn) hi htimer, Host.Outcome.next.injEq] at h
  exact h.symm

/-- A step that is not FG's leaves FG's place and `TICK`, and moves the counter only in TMRISR (60 R218). -/
theorem BlockStep.clock_of_not_fg (h : BlockStep s t) (hm : s.moves .fg = false) :
    (t.cp = s.cp ∧ t.ph = s.ph ∧ t.fault = s.fault) ∧ t.tick = s.tick ∧
      t.counter = s.counter + s.tick * BitVec.ofNat 32 (if s.moves .tmrisr then 1 else 0) := by
  cases h with
  | tmrisr turn => exact ⟨⟨rfl, rfl, rfl⟩, rfl, by simp [turn, tmrIsr_spec]⟩
  | txisr turn =>
    have htick : (txIsr s.takeTurn).tick = s.tick := by rw [txIsr_spec]; split <;> rfl
    have hother := State.moves_eq_false_of_ne turn (b := .tmrisr) nofun
    exact ⟨by simp, htick, by simp [hother]⟩
  | serdev turn | tmrdev turn =>
    exact ⟨⟨rfl, rfl, rfl⟩, rfl, by simp [State.moves_eq_false_of_ne turn (b := .tmrisr) nofun]⟩
  | pass idle => exact ⟨⟨rfl, rfl, rfl⟩, rfl, by simp [idle]⟩
  | command i run => exact absurd run.1 (by simp [hm])
  | illegal turn => exact absurd turn (by simp [hm])

/-- The wait goes on standing at `cp` until `cp` moves. -/
theorem State.WaitsAt.of_step (hwait : s.WaitsAt n) (h : step s = .next t) (hcp : t.cp = s.cp) : t.WaitsAt n := by
  obtain ⟨hcmd, hcfg, -, -⟩ := commandStreamImmutable s t h
  have hfetch : t.fetch = s.fetch := by rw [State.fetch, State.fetch, hcmd, hcp]
  exact ⟨hcfg ▸ hwait.timer, hfetch ▸ hwait.command⟩

/-- The only exit is the read that finds the counter at or above the operand (41 R129). -/
theorem State.WaitsAt.exit (hwait : s.WaitsAt n) (h : step s = .next t) :
    t.fault = s.fault ∧
      (t.cp ≠ s.cp → s.moves .fg = true ∧ s.ph = .one ∧ n.toNat ≤ s.counter.toNat ∧ t.cp = s.cp + 5 ∧ t.ph = .zero) := by
  cases hm : s.moves .fg with
  | false =>
    obtain ⟨⟨hcp, -, hfault⟩, -, -⟩ := (blockStep_of_step h).clock_of_not_fg hm
    exact ⟨hfault, fun hne => absurd hcp hne⟩
  | true =>
    have ht := eq_timerWait_of_step hwait hm h
    rw [timerWait_spec] at ht
    subst ht
    refine ⟨rfl, fun hne => ?_⟩
    by_cases hread : s.ph = .one ∧ n ≤ s.counter
    · obtain ⟨hph, hreached⟩ := hread
      exact ⟨rfl, hph, hreached, by simp [hph, hreached], by simp [hph, hreached]⟩
    · exact absurd (if_neg hread) hne

/-- Past its reset micro-step, a step that does not end the wait keeps it there, and the counter is `TICK` higher
exactly if the step is TMRISR's. -/
theorem State.WaitsAt.counter_of_step (hwait : s.WaitsAt n) (hph : s.ph ≠ .zero) (h : step s = .next t)
    (hcp : t.cp = s.cp) :
    t.ph ≠ .zero ∧ t.tick = s.tick ∧
      t.counter = s.counter + s.tick * BitVec.ofNat 32 (if s.moves .tmrisr then 1 else 0) := by
  cases hm : s.moves .fg with
  | false =>
    obtain ⟨⟨-, hsame, -⟩, htick, hcounter⟩ := (blockStep_of_step h).clock_of_not_fg hm
    exact ⟨hsame ▸ hph, htick, hcounter⟩
  | true =>
    have ht := eq_timerWait_of_step hwait hm h
    rw [timerWait_spec] at ht
    subst ht
    have hother := State.moves_eq_false_of_ne hm (b := .tmrisr) nofun
    refine ⟨?_, rfl, by simp [hph, hother]⟩
    by_cases hread : s.ph = .one
    · have hshort : ¬ n ≤ s.counter := fun hreached => by simp [hread, hreached] at hcp
      simp [hread, hshort]
    · simp [hread]

end

/-! ## A run while a wait stands at `cp` (41 R127) -/

theorem tickRuns_succ {j : Nat} {s t : State} (h : step s = .next t) :
    tickRuns (j + 1) s = (if s.moves .tmrisr then 1 else 0) + tickRuns j t := by
  simp [tickRuns, h]

/-- Over a run that does not end the wait, the counter rises by `TICK` for each run of TMRISR. -/
theorem State.WaitsAt.counter_of_runSteps {n : Word} {j : Nat} {s u : State} (hwait : s.WaitsAt n) (hph : s.ph ≠ .zero)
    (h : runSteps j s = .next u) (hcp : u.cp = s.cp) :
    u.WaitsAt n ∧ u.counter = s.counter + s.tick * BitVec.ofNat 32 (tickRuns j s) := by
  induction j generalizing s with
  | zero =>
    rw [runSteps_zero, Host.Outcome.next.injEq] at h
    subst h
    exact ⟨hwait, by simp [tickRuns]⟩
  | succ j ih =>
    obtain ⟨t, hstep, hrun⟩ := runSteps_succ_eq_next.1 h
    have hstay : t.cp = s.cp :=
      Nat.le_antisymm ((runSteps_cp_le hrun).trans_eq hcp) (blockStep_of_step hstep).cp_le
    obtain ⟨hph', htick, hcounter⟩ := hwait.counter_of_step hph hstep hstay
    obtain ⟨hwait', hrest⟩ := ih (hwait.of_step hstep hstay) hph' hrun (hcp.trans hstay.symm)
    refine ⟨hwait', ?_⟩
    rw [hrest, hcounter, htick, tickRuns_succ hstep, BitVec.ofNat_add, BitVec.mul_add, BitVec.add_assoc]

/-- Settles O25: the completing read found the counter at or above `n`, and the counter is the ticks modulo `2^32`. -/
theorem waitSeesEnoughTicks : Obligations.WaitSeesEnoughTicks := by
  unfold Obligations.WaitSeesEnoughTicks
  intro n j s u v htimer hd hph hzero hrun hcp hstep hend
  have hwait : s.WaitsAt n := ⟨htimer, _, .inl rfl, hd⟩
  obtain ⟨hwait', hcounter⟩ := hwait.counter_of_runSteps (by simp [hph]) hrun hcp
  rw [hzero, BitVec.zero_add] at hcounter
  obtain ⟨-, -, hreached, -, -⟩ := (hwait'.exit hstep).2 hend
  refine ⟨hcounter, ?_⟩
  calc n.toNat ≤ u.counter.toNat := hreached
    _ = s.tick.toNat * tickRuns j s % 2 ^ 32 := by rw [hcounter, BitVec.toNat_mul, BitVec.toNat_ofNat, Nat.mul_mod_mod]
    _ ≤ s.tick.toNat * tickRuns j s := Nat.mod_le _ _

/-! ## The obligations on single steps of the clock commands -/

/-- Settles O21: both commands are the same `timerWait`, for the `m` that rounds `n` up. -/
theorem waitusRoundsUp : Obligations.WaitusRoundsUp := by
  unfold Obligations.WaitusRoundsUp
  intro n
  have hround := millisOfMicros_toNat n
  refine ⟨millisOfMicros n, by omega, fun s htimer => ?_⟩
  have hwait : waitsFor (.waitus n) (millisOfMicros n) := .inr ⟨n, rfl, rfl⟩
  exact ⟨(exec_wait_of_timer hwait htimer).trans (exec_wait_of_timer (.inl rfl) htimer).symm,
    exec_wait_microSteps hwait htimer⟩

/-- Settles O24: `ms` is the operand of the wait that stands at `cp`. -/
theorem waitEndsOnlyAtRead : Obligations.WaitEndsOnlyAtRead := by
  unfold Obligations.WaitEndsOnlyAtRead
  rintro s t n ms htimer (⟨hd, rfl⟩ | ⟨hd, rfl⟩) h
  · exact State.WaitsAt.exit ⟨htimer, _, .inl rfl, hd⟩ h
  · rw [← millisOfMicros_toNat]
    exact State.WaitsAt.exit ⟨htimer, _, .inr ⟨n, rfl, rfl⟩, hd⟩ h

/-- Settles O19: CLKRST leaves `OCIE` and `OCF`, so TMRISR then adds `TICK` to 0. -/
theorem counterCommands : Obligations.CounterCommands := by
  unfold Obligations.CounterCommands
  refine ⟨fun rest => ⟨decode_encode_append (i := .clkrst) rfl rest, decode_encode_append (i := .clkrd) rfl rest⟩,
    fun s => ⟨⟨_, exec_clkrst s, rfl, rfl, ?_⟩, ⟨_, exec_clkrd s, rfl⟩⟩⟩
  exact BitVec.zero_add s.tick

/-- Settles O20, from the micro-steps of either wait. -/
theorem waitmsMicroSteps : Obligations.WaitmsMicroSteps := by
  unfold Obligations.WaitmsMicroSteps
  exact fun n s htimer => exec_wait_microSteps (.inl rfl) htimer

/-- Settles O22, from the busy wait of either command. -/
theorem busyWaitOneStep : Obligations.BusyWaitOneStep := by
  unfold Obligations.BusyWaitOneStep
  exact fun n s hbusy => ⟨exec_wait_of_busy (.inl rfl) hbusy, exec_wait_of_busy (.inr ⟨n, rfl, rfl⟩) hbusy⟩

end Sys2Proof.Machine
end

section
/-! PROOFS. The transmit commands (42_ringbuffer_tx.md): where PUSH stores what it accepts and how many bytes that is,
the attempt of SENDALL as a PUSH of the unsent remainder, and the writers of `TXIE`. -/

namespace Sys2Proof.Machine

/-! ## What the enqueue loop stores (42 R140) -/

/-- The slots from `write_index` on follow those of the bytes held. -/
theorem State.slotOf_writeIndex_add (s : State) (j : Nat) :
    s.slotOf (s.writeIndex + BitVec.ofNat 16 j) = s.slotOf (s.readIndex + BitVec.ofNat 16 (s.occupancy + j)) := by
  rw [s.slotOf_add, s.slotOf_add, ← s.occupancy_eq, Nat.mod_add_mod, Nat.add_assoc]

theorem State.queue_getD (s : State) {j : Nat} (hj : j < s.occupancy) :
    s.queue.getD j 0#8 = s.buf.read (s.slotOf (s.readIndex + BitVec.ofNat 16 j)) := by
  simp [State.queue, hj]

section
variable (d : List Byte) (s : State)

@[simp] theorem State.enqueue_readIndex : (State.enqueue d s).2.readIndex = s.readIndex := by
  rw [(State.enqueue_spec d s).2]

@[simp] theorem State.enqueue_slots : (State.enqueue d s).2.slots = s.slots := by
  rw [(State.enqueue_spec d s).2]; rfl

@[simp] theorem State.enqueue_slotOf (x : Half) : (State.enqueue d s).2.slotOf x = s.slotOf x := by
  rw [(State.enqueue_spec d s).2]; rfl

theorem State.enqueue_occupancy : (State.enqueue d s).2.occupancy = s.occupancy + min d.length s.free := by
  have hfree := s.free_add_occupancy
  apply State.occupancy_unique
  · rw [State.enqueue_slots]
    omega
  · rw [State.enqueue_slots, State.enqueue_slotOf, State.enqueue_slotOf, State.enqueue_readIndex,
      (State.enqueue_spec d s).2, s.slotOf_writeIndex_add, s.slotOf_add]

end

/-- Byte `j` of the data is stored in the slot that `write_index + j` selects: it is the byte of the queue after the
`occupancy` bytes held before and the `j` bytes in front of it. -/
theorem State.enqueue_read_stored {s : State} (hwf : s.ringWf) {d : List Byte} {j : Nat}
    (hj : j < min d.length s.free) :
    (State.enqueue d s).2.buf.read (s.slotOf (s.writeIndex + BitVec.ofNat 16 j)) = d.getD j 0#8 := by
  have hheld : s.occupancy + j < (State.enqueue d s).2.occupancy := by
    rw [State.enqueue_occupancy]
    omega
  have hread := State.queue_getD _ hheld
  rw [State.enqueue_slotOf, State.enqueue_readIndex, ← s.slotOf_writeIndex_add, State.enqueue_queue hwf,
    ← s.queue_length, List.getD_append_right _ _ _ _ (by omega), Nat.add_sub_cancel_left] at hread
  rw [← hread, List.getD_eq_getElem?_getD, List.getD_eq_getElem?_getD, List.getElem?_take_of_lt (by omega)]

/-! ## The empty to non-empty transition (42 R142, R143) -/

/-- An empty ring accepts a byte of any data but none. -/
theorem State.take_free_ne_nil_iff {s : State} (he : s.empty = true) (d : List Byte) :
    d.take s.free ≠ [] ↔ d ≠ [] :=
  ⟨fun htake hd => htake (by rw [hd, List.take_nil]), State.take_free_ne_nil he⟩

theorem State.count_pos_iff {s : State} (he : s.empty = true) (d : List Byte) :
    0 < min d.length s.free ↔ d ≠ [] := by
  rw [Nat.min_comm, ← List.length_take, List.length_pos_iff, State.take_free_ne_nil_iff he]

/-- The byte at the head after the enqueue into an empty ring is the first of the data. -/
theorem State.enqueue_read_head {s : State} (hwf : s.ringWf) (he : s.empty = true) {d : List Byte} (hd : d ≠ [])
    (b : Byte) :
    (State.enqueue d s).2.buf.read (s.slotOf s.readIndex) = d.headD b := by
  have hread := State.enqueue_read_stored hwf ((State.count_pos_iff he d).2 hd)
  rw [BitVec.add_zero, ← s.empty_iff.1 he] at hread
  rw [hread]
  cases d with
  | nil => exact absurd rfl hd
  | cons c d => rfl

theorem State.handOff_occupancy {s : State} (h : s.empty = false) :
    s.handOff.occupancy + (if s.udre = true then 1 else 0) = s.occupancy := by
  unfold State.handOff
  split
  · exact State.occupancy_popByte h
  · rfl

/-- push_bytes adds its count to the occupancy, less one where it hands a byte off (42 R146). -/
theorem State.pushBytes_occupancy (d : List Byte) (s : State) :
    (State.pushBytes d s).2.occupancy +
        (if s.empty = true ∧ 0 < min d.length s.free ∧ s.udre = true then 1 else 0) =
      s.occupancy + min d.length s.free := by
  rw [← State.enqueue_occupancy]
  by_cases htrans : s.empty = true ∧ d ≠ []
  · obtain ⟨he, hd⟩ := htrans
    have hk := (State.count_pos_iff he d).2 hd
    have hne : (State.enqueue d s).2.empty = false := by
      rw [← Bool.not_eq_true, State.empty_iff_occupancy, State.enqueue_occupancy]
      omega
    have hhands :
        s.empty = true ∧ 0 < min d.length s.free ∧ s.udre = true ↔ (State.enqueue d s).2.udre = true := by
      rw [(State.enqueue_spec d s).2]
      simp only [he, hk, true_and]
    rw [State.pushBytes_of_transition he hd]
    simp only [hhands]
    exact State.handOff_occupancy (s := { (State.enqueue d s).2 with txie := true }) hne
  · have hnone : ¬ (s.empty = true ∧ 0 < min d.length s.free ∧ s.udre = true) :=
      fun ⟨he, hk, _⟩ => htrans ⟨he, (State.count_pos_iff he d).1 hk⟩
    rw [if_neg hnone, State.pushBytes_of_no_transition]
    · rfl
    · simpa [or_iff_not_imp_left] using htrans

/-- All that push_bytes does to a canonical ring, by its count: the byte handed off is the first of the data. -/
theorem State.pushBytes_of_ringWf {s : State} (hwf : s.ringWf) {d : List Byte} {k : Nat}
    (hk : k = min d.length s.free) :
    (State.pushBytes d s).2 =
      { s with
        buf := (State.enqueue d s).2.buf
        writeIndex := s.writeIndex + BitVec.ofNat 16 k
        readIndex := if s.empty = true ∧ 0 < k ∧ s.udre = true then s.readIndex + 1#16 else s.readIndex
        udr := if s.empty = true ∧ 0 < k ∧ s.udre = true then d.headD s.udr else s.udr
        udre := if s.empty = true ∧ 0 < k then false else s.udre
        txie := if s.empty = true ∧ 0 < k then true else s.txie } := by
  subst hk
  have harms : s.empty = true ∧ 0 < min d.length s.free ↔ s.empty = true ∧ d ≠ [] :=
    and_congr_right fun he => State.count_pos_iff he d
  have hhands :
      s.empty = true ∧ 0 < min d.length s.free ∧ s.udre = true ↔ s.empty = true ∧ d ≠ [] ∧ s.udre = true :=
    and_congr_right fun he => and_congr_left' (State.count_pos_iff he d)
  have hudr : (if s.empty = true ∧ d ≠ [] ∧ s.udre = true
      then (State.enqueue d s).2.buf.read (s.slotOf s.readIndex) else s.udr) =
      if s.empty = true ∧ d ≠ [] ∧ s.udre = true then d.headD s.udr else s.udr :=
    if_ctx_congr Iff.rfl (fun ⟨he, hd, _⟩ => State.enqueue_read_head hwf he hd s.udr) fun _ => rfl
  rw [(State.pushBytes_spec d s).2, hudr]
  simp only [harms, hhands]

/-! ## PUSH (42 R141) -/

/-- PUSH is push_bytes, with the count in `RES`. -/
theorem exec_push (d : List Byte) (s : State) :
    exec (.push d) s = .next { (State.pushBytes d s).2 with
      res := ⟨BitVec.ofNat 32 (min d.length s.free), true⟩, cp := s.cp + 2 + d.length } := by
  simp [exec, execPush, State.pushBytes_count, State.advance, State.writeResult, Nat.add_assoc]

/-- Settles O26: the enqueue loop stores the bytes, and the head of an empty ring is then the first of them. -/
theorem pushStoresWhatFits : Obligations.PushStoresWhatFits := by
  unfold Obligations.PushStoresWhatFits
  rintro d s k hwf rfl
  have hexec := exec_push d s
  rw [State.pushBytes_of_ringWf hwf rfl] at hexec
  exact ⟨_, hexec, rfl, fun j => State.enqueue_read_stored hwf, State.enqueue_read d⟩

/-- Settles O27: the count is 0 only without data or without free space, and an empty ring has `N - 1` free slots. -/
theorem pushCountLaws : Obligations.PushCountLaws := by
  unfold Obligations.PushCountLaws
  intro d s
  have hfree := s.free_add_occupancy
  refine ⟨_, _, exec_push d s, rfl, by omega, rfl, State.pushBytes_occupancy d s, ?_, fun he hlen => ?_⟩
  · rw [s.full_iff_free, ← List.length_eq_zero_iff]
    omega
  · rw [s.empty_iff_occupancy.1 he] at hfree
    omega

/-! ## SENDALL (42 R144) -/

/-- push_bytes neither reads nor writes `sent`. -/
theorem State.pushBytes_with_sent (d : List Byte) (s : State) (v : Byte) :
    (State.pushBytes d { s with sent := v }).2 = { (State.pushBytes d s).2 with sent := v } := by
  have hsame : SameTransmitter s { s with sent := v } := ⟨rfl, rfl, rfl, rfl, rfl, rfl, rfl⟩
  rw [(State.pushBytes_spec d { s with sent := v }).2, (State.pushBytes_spec d s).2, (hsame.enqueue d).2.buf]
  rfl

/-- The attempt after `before` bytes, by natural numbers: `sent` does not wrap, for at most 255 bytes of data. -/
theorem sendAttempt_with_sent {d : List Byte} (s : State) {before k : Nat} (hfits : d.length ≤ 255)
    (hbefore : before ≤ d.length) (hk : k = min (d.length - before) s.free) :
    sendAttempt d { s with sent := BitVec.ofNat 8 before } =
      if before + k = d.length then
        { (State.pushBytes (d.drop before) s).2 with
          sent := BitVec.ofNat 8 d.length, res := ⟨BitVec.ofNat 32 d.length, true⟩, ph := .zero
          cp := s.cp + 2 + d.length }
      else
        { (State.pushBytes (d.drop before) s).2 with sent := BitVec.ofNat 8 (before + k), ph := .two } := by
  have hsent : (BitVec.ofNat 8 before).toNat = before := by
    rw [BitVec.toNat_ofNat]
    omega
  have hafter : (BitVec.ofNat 8 (before + k)).toNat = before + k := by
    rw [BitVec.toNat_ofNat]
    omega
  rw [sendAttempt_spec d _ k (by rw [hsent]; exact hk)]
  simp only [hsent, ← BitVec.ofNat_add, hafter, State.pushBytes_with_sent]
  by_cases hall : before + k = d.length
  · rw [if_pos hall, if_pos hall, hall, Nat.add_assoc]
  · rw [if_neg hall, if_neg hall]

/-- SENDALL makes an attempt at its start, if it has data, and in its attempt phase. -/
theorem exec_sendall_attempt {d : List Byte} {s : State} {before : Nat}
    (h : (s.ph = .zero ∧ d ≠ [] ∧ before = 0) ∨ (s.ph = .one ∧ before = s.sent.toNat)) :
    exec (.sendall d) s = .next (sendAttempt d { s with sent := BitVec.ofNat 8 before }) := by
  obtain ⟨hph, hd, rfl⟩ | ⟨hph, rfl⟩ := h
  · simp [exec, execSendall, hph, hd]
  · have hsent : { s with sent := BitVec.ofNat 8 s.sent.toNat } = s := by rw [BitVec.ofNat_toNat, BitVec.setWidth_eq]
    rw [hsent]
    simp only [exec, execSendall, hph]

/-- Settles O28: an attempt is the push_bytes of the PUSH of the unsent remainder, whose `RES` and `cp` it replaces. -/
theorem sendallMicroSteps : Obligations.SendallMicroSteps := by
  unfold Obligations.SendallMicroSteps
  intro d s hfits
  refine ⟨fun hph hd => ?_, fun hph => ?_, fun before k hattempt hbefore hk => ⟨_, exec_push _ s, ?_⟩⟩
  · subst hd
    simp only [exec, execSendall, hph]
    rfl
  · simp only [exec, execSendall, hph]
    rfl
  · rw [exec_sendall_attempt hattempt, sendAttempt_with_sent s hfits hbefore hk]
    split
    · rfl
    · simp

/-! ## The writers of `TXIE` (42 R142, 10 R25) -/

/-- FG arms exactly on an empty to non-empty transition. -/
theorem BlockStep.txie_of_fg {s t : State} (h : BlockStep s t) (hm : s.moves .fg = true) :
    t.txie = if s.empty = true ∧ s.accepts ≠ [] then true else s.txie := by
  obtain ⟨d, hacc, hsame⟩ := h.transmitter hm
  have harms : s.empty = true ∧ s.accepts ≠ [] ↔ s.empty = true ∧ d ≠ [] :=
    and_congr_right fun he => hacc ▸ State.take_free_ne_nil_iff he d
  rw [hsame.txie, State.pushBytes_txie]
  simp only [harms]

/-- Of the other agents only TXISR writes `TXIE`, on an empty ring (60 R217). -/
theorem BlockStep.txie_of_not_fg {s t : State} (h : BlockStep s t) (hm : s.moves .fg = false) :
    t.txie = if s.moves .txisr = true ∧ s.empty = true then false else s.txie := by
  cases h with
  | txisr turn =>
    cases he : s.empty with
    | true => rw [txIsr_of_empty (s := s.takeTurn) he]; simp [turn]
    | false => rw [txIsr_of_not_empty (s := s.takeTurn) he]; simp
  | command i run _ => exact absurd run.1 (by simp [hm])
  | illegal turn => exact absurd turn (by simp [hm])
  | pass idle => simp [idle]
  | tmrisr turn => simp [State.moves_eq_false_of_ne turn (b := .txisr) (by decide), tmrIsr_spec]
  | serdev turn => simp [State.moves_eq_false_of_ne turn (b := .txisr) (by decide)]
  | tmrdev turn => simp [State.moves_eq_false_of_ne turn (b := .txisr) (by decide)]

/-- Settles O29: FG only arms, TXISR only disarms and runs only while `TXIE` is 1, and the others leave `TXIE`. -/
theorem armingAndDisarming : Obligations.ArmingAndDisarming := by
  unfold Obligations.ArmingAndDisarming
  intro s t h
  cases hm : s.moves .fg with
  | true =>
    have htx := State.moves_eq_false_of_ne hm (b := .txisr) (by decide)
    rw [(blockStep_of_step h).txie_of_fg hm]
    exact ⟨fun hoff => by simp [hoff], fun hon => by simp [hon, htx]⟩
  | false =>
    rw [(blockStep_of_step h).txie_of_not_fg hm, State.accepts_of_not_fg hm]
    exact ⟨fun hoff => by simp [hoff], fun hon => by simp [hon]⟩

end Sys2Proof.Machine
end

section
/-! PROOFS. The configuration commands (43_config.md R160 to R169): the bytes of SERCFG and TMRCFG, what the two answer,
the default tick amount, and that a run keeps a configuration once written. -/

namespace Sys2Proof

/-! ## Operand bytes as numbers (30 R81, R82) -/

theorem byteOf_eq_ofNat {w : Nat} (v : BitVec w) (j : Nat) : byteOf v j = BitVec.ofNat 8 (v.toNat / 2 ^ (8 * j)) := by
  apply BitVec.eq_of_toNat_eq
  rw [byteOf, BitVec.extractLsb'_toNat, BitVec.toNat_ofNat, Nat.shiftRight_eq_div_pow]

theorem byteOf_zero_eq_ofNat {w : Nat} (v : BitVec w) : byteOf v 0 = BitVec.ofNat 8 v.toNat := by
  rw [byteOf_eq_ofNat, Nat.mul_zero, Nat.pow_zero, Nat.div_one]

theorem byteOf_one_eq_ofNat {w : Nat} (v : BitVec w) : byteOf v 1 = BitVec.ofNat 8 (v.toNat / 256) :=
  byteOf_eq_ofNat v 1

/-- The configuration halfword is `ubrr`, with bit 15 set for `u2x` (30 R82). -/
theorem serWord_toNat (ubrr : BitVec 12) (u2x : Bool) :
    (serWord ubrr u2x).toNat = ubrr.toNat + if u2x then 32768 else 0 := by
  have hubrr := ubrr.isLt
  rw [serWord, BitVec.toNat_append, ← Nat.shiftLeft_add_eq_or_of_lt hubrr, Nat.add_comm]
  cases u2x <;> rfl

theorem encode_sercfg (ubrr : BitVec 12) (u2x : Bool) {cfg : Nat} (hcfg : cfg = ubrr.toNat + if u2x then 32768 else 0) :
    encode (.sercfg ubrr u2x) = [0x40#8, BitVec.ofNat 8 cfg, BitVec.ofNat 8 (cfg / 256)] := by
  rw [encode, byteOf_zero_eq_ofNat, byteOf_one_eq_ofNat, serWord_toNat, ← hcfg]

theorem encode_tmrcfg (presc ocr : Half) :
    encode (.tmrcfg presc ocr) = [0x41#8, BitVec.ofNat 8 presc.toNat, BitVec.ofNat 8 (presc.toNat / 256),
      BitVec.ofNat 8 ocr.toNat, BitVec.ofNat 8 (ocr.toNat / 256)] := by
  simp only [encode, byteOf_zero_eq_ofNat, byteOf_one_eq_ofNat]

end Sys2Proof

namespace Sys2Proof.Machine

/-! ## What SERCFG and TMRCFG answer (43 R160, R167) -/

section
variable {s : State}

theorem exec_sercfg_of_fresh (hfresh : s.serCfgd = false) (ubrr : BitVec 12) (u2x : Bool) :
    exec (.sercfg ubrr u2x) s = .next { s with ubrr := ubrr, u2x := u2x, serCfgd := true, cp := s.cp + 3 } := by
  simp only [exec, execSercfg, hfresh]
  rfl

theorem exec_sercfg_of_configured (hcfgd : s.serCfgd = true) (ubrr : BitVec 12) (u2x : Bool) :
    exec (.sercfg ubrr u2x) s = .next (s.raise .bootConflict) := by
  simp only [exec, execSercfg, if_pos hcfgd]

theorem exec_tmrcfg_of_running (hrun : s.tmrRun = true) (presc ocr : Half) :
    exec (.tmrcfg presc ocr) s = .next (s.raise .bootConflict) := by
  simp only [exec, execTmrcfg, if_pos hrun]

theorem exec_tmrcfg_of_accepted (hrun : s.tmrRun = false) {presc ocr : Half} {t : Word}
    (htick : acceptedTick (Config.tickAmount s.cfg presc ocr) = some t) :
    exec (.tmrcfg presc ocr) s =
      .next { s with presc := presc, ocr := ocr, tick := t, ocie := true, tmrRun := true, cp := s.cp + 5 } := by
  simp only [exec, execTmrcfg, hrun, htick]
  rfl

theorem exec_tmrcfg_of_refused (hrun : s.tmrRun = false) {presc ocr : Half}
    (htick : acceptedTick (Config.tickAmount s.cfg presc ocr) = none) :
    exec (.tmrcfg presc ocr) s = .next (s.raise .configRange) := by
  simp only [exec, execTmrcfg, hrun, htick]
  rfl

end

/-- Settles O35: the bytes are the encoding of SERCFG, and the two branches are told apart by `ser_cfgd`. -/
theorem sercfgStoresOperands : Obligations.SercfgStoresOperands := by
  unfold Obligations.SercfgStoresOperands
  refine ⟨fun ubrr u2x rest cfg hcfg => ?_, fun lo hi rest => (decode_sercfg_eq_reservedField_iff lo hi rest).2,
    fun ubrr u2x s => ⟨fun hfresh => exec_sercfg_of_fresh hfresh ubrr u2x, fun hcfgd hfault => ?_⟩⟩
  · have hdecode := decode_encode_append (i := .sercfg ubrr u2x) rfl rest
    rwa [encode_sercfg ubrr u2x hcfg] at hdecode
  · rw [exec_sercfg_of_configured hcfgd, State.raise_of_none hfault]

/-! ## The tick amount (43 R167, R168) -/

theorem acceptedTick_of_natCast {q : Rat} {t : Nat} (hq : q = (t : Rat)) (hpos : 1 ≤ t) (hlt : t < 2 ^ 32) :
    acceptedTick q = some (BitVec.ofNat 32 t) := by
  have ht : (BitVec.ofNat 32 t).toNat = t := by rw [BitVec.toNat_ofNat, Nat.mod_eq_of_lt hlt]
  refine acceptedTick_eq_some.2 ⟨by rw [ht, hq], fun hzero => ?_⟩
  rw [hzero, BitVec.toNat_zero] at ht
  omega

theorem acceptedTick_eq_none {q : Rat} (h : ∀ t : Nat, q = (t : Rat) → ¬ (1 ≤ t ∧ t < 2 ^ 32)) :
    acceptedTick q = none := by
  refine Option.eq_none_iff_forall_ne_some.2 fun t haccepted => ?_
  obtain ⟨hq, hne⟩ := acceptedTick_eq_some.1 haccepted
  have hpos : t.toNat ≠ 0 := fun hzero => hne (BitVec.eq_of_toNat_eq hzero)
  exact h t.toNat hq ⟨Nat.one_le_iff_ne_zero.2 hpos, t.isLt⟩

/-- Settles O36: the bytes are the encoding of TMRCFG, and where the timer does not run yet the tick amount decides. -/
theorem tmrcfgStartsTimer : Obligations.TmrcfgStartsTimer := by
  unfold Obligations.TmrcfgStartsTimer
  refine ⟨fun presc ocr rest => ?_, fun presc ocr s => ⟨fun hrun hfault => ?_, fun hrun t hamount hpos hlt => ?_,
    fun hrun hfault hrange => ?_⟩⟩
  · have hdecode := decode_encode_append (i := .tmrcfg presc ocr) rfl rest
    rwa [encode_tmrcfg] at hdecode
  · rw [exec_tmrcfg_of_running hrun, State.raise_of_none hfault]
  · exact exec_tmrcfg_of_accepted hrun (acceptedTick_of_natCast hamount hpos hlt)
  · rw [exec_tmrcfg_of_refused hrun (acceptedTick_eq_none hrange), State.raise_of_none hfault]

theorem periodTick_eq_natCast_iff (presc ocr : Half) {c : Nat} (hc : 0 < c) (t : Nat) :
    periodTick presc ocr c = (t : Rat) ↔ t * c = presc.toNat * (ocr.toNat + 1) * 1000 := by
  have hne : (c : Rat) ≠ 0 := Nat.cast_ne_zero.2 hc.ne'
  rw [periodTick, Rat.mkRat_eq_div, div_eq_iff hne, eq_comm]
  exact_mod_cast Iff.rfl

/-- Settles O37: over the rationals the quotient is `t` exactly when `t` times the clock rate is the dividend. -/
theorem defaultTickFormula : Obligations.DefaultTickFormula := by
  unfold Obligations.DefaultTickFormula
  intro presc ocr c t hc
  rw [acceptedTick_eq_some, periodTick_eq_natCast_iff presc ocr hc, and_comm]

/-! ## A configuration is written once (43 R169, 10 R26, R28, R29) -/

/-- `ser_cfgd` and the registers that SERCFG writes. -/
def State.serialConfig (s : State) : Bool × BitVec 12 × Bool := (s.serCfgd, s.ubrr, s.u2x)

/-- `tmr_run` and the registers that TMRCFG writes. -/
def State.timerConfig (s : State) : Bool × Half × Half × Word × Bool := (s.tmrRun, s.presc, s.ocr, s.tick, s.ocie)

/-- Each configuration that `s` has, `t` has too. -/
structure ConfigKept (s t : State) : Prop where
  serial : s.serCfgd = true → t.serialConfig = s.serialConfig
  timer : s.tmrRun = true → t.timerConfig = s.timerConfig

theorem ConfigKept.of_eq {s t : State} (hserial : t.serialConfig = s.serialConfig)
    (htimer : t.timerConfig = s.timerConfig) : ConfigKept s t :=
  ⟨fun _ => hserial, fun _ => htimer⟩

theorem ConfigKept.trans {s t u : State} (hst : ConfigKept s t) (htu : ConfigKept t u) : ConfigKept s u where
  serial hcfgd :=
    have hsame := hst.serial hcfgd
    (htu.serial ((congrArg Prod.fst hsame).trans hcfgd)).trans hsame
  timer hrun :=
    have hsame := hst.timer hrun
    (htu.timer ((congrArg Prod.fst hsame).trans hrun)).trans hsame

/-- SERCFG writes only where `ser_cfgd` is 0, TMRCFG only where `tmr_run` is 0, and no other command writes either. -/
theorem CommandStep.configKept {s t : State} {i : Instr} (h : CommandStep s i t) : ConfigKept s t := by
  cases h with
  | sercfg ubrr u2x first => exact ⟨fun hcfgd => absurd hcfgd (by simp [first]), fun _ => rfl⟩
  | tmrcfg presc ocr tick first => exact ⟨fun _ => rfl, fun hrun => absurd hrun (by simp [first])⟩
  | _ => exact .of_eq (by simp [State.serialConfig]) (by simp [State.timerConfig])

theorem State.takeTurn_configKept (s : State) : ConfigKept s s.takeTurn :=
  .of_eq (by simp [State.serialConfig]) (by simp [State.timerConfig])

theorem txIsr_configKept (s : State) : ConfigKept s (txIsr s) := by
  rw [txIsr_spec]
  split <;> exact .of_eq (by simp [State.serialConfig]) (by simp [State.timerConfig])

theorem BlockStep.configKept {s t : State} (h : BlockStep s t) : ConfigKept s t := by
  cases h with
  | command i run effect => exact s.takeTurn_configKept.trans effect.configKept
  | txisr => exact s.takeTurn_configKept.trans (txIsr_configKept s.takeTurn)
  | pass | illegal | tmrisr | serdev | tmrdev =>
    exact .of_eq (by simp [State.serialConfig, tmrIsr_spec]) (by simp [State.timerConfig, tmrIsr_spec])

theorem runSteps_configKept {n : Nat} {s t : State} (h : runSteps n s = .next t) : ConfigKept s t :=
  runSteps_induction (P := ConfigKept s) (fun _ _ hkept hstep => hkept.trans (blockStep_of_step hstep).configKept)
    (.of_eq rfl rfl) h

/-- Settles O38: every step keeps both configurations, so every run does. -/
theorem configurationOnlyOnce : Obligations.ConfigurationOnlyOnce := by
  unfold Obligations.ConfigurationOnlyOnce
  intro n s t hrun
  obtain ⟨hserial, htimer⟩ := runSteps_configKept hrun
  refine ⟨fun hcfgd => ?_, fun hstarted => ?_⟩
  · simpa [State.serialConfig, hcfgd] using hserial hcfgd
  · simpa [State.timerConfig, hstarted] using htimer hstarted

end Sys2Proof.Machine
end

section
/-! PROOFS. The baud derivation (43_config.md R162 to R165): both readings halve the whole quotient `C div (d * B)`, so
they are defined on the same inputs and differ by at most one, and `baud_cfg` follows from the two divisors. -/

namespace Sys2Proof.Machine

/-! ## The two readings (43 R163, R164) -/

/-- The divisor that a reading makes of the whole quotient `C div (d * B)`. -/
def BaudArith.halve (a : BaudArith) (quotient : Nat) : Nat :=
  match a with
  | .exactRound => quotient / 2
  | .trunc => (quotient - 1) / 2

section
variable {c d b : Nat}

/-- The truncating reading is defined on the same inputs as the exact one. -/
theorem one_le_quotient_iff (hd : 0 < d) : 1 ≤ c / (d * b) ↔ 0 < b ∧ d * b ≤ c :=
  Nat.div_pos_iff.trans (and_congr_left' (Nat.mul_pos_iff_of_pos_left hd))

theorem divRound_eq (a : BaudArith) (hd : 0 < d) :
    divRound a c d b = if 0 < b ∧ d * b ≤ c then some (a.halve (c / (d * b))) else none := by
  cases a with
  | exactRound =>
    have hhalf : c / (2 * d * b) = c / (d * b) / 2 := by rw [Nat.div_div_eq_div_mul, Nat.mul_assoc, Nat.mul_comm 2]
    simp only [divRound, BaudArith.halve, hhalf]
  | trunc => simp only [divRound, BaudArith.halve, Nat.div_div_eq_div_mul, one_le_quotient_iff hd]

theorem divRound_of_defined (a : BaudArith) (hd : 0 < d) (hb : 0 < b) (hle : d * b ≤ c) :
    divRound a c d b = some (a.halve (c / (d * b))) := by
  rw [divRound_eq a hd, if_pos ⟨hb, hle⟩]

theorem divRound_eq_none_iff (a : BaudArith) (hd : 0 < d) : divRound a c d b = none ↔ b = 0 ∨ c < d * b := by
  rw [divRound_eq a hd]
  split
  · next hdef => exact iff_of_false nofun (by omega)
  · next hundef => exact iff_of_true rfl (by omega)

/-- Exact rounding to the nearest integer, a tie up, in the closed form of 43 R163. -/
theorem roundHalfUp_eq (hd : 0 < d) (hb : 0 < b) :
    ((c : ℚ) / (d * b) - 1) / 2 + 1 / 2 = (c : ℚ) / (2 * d * b) := by
  have hd' : (d : ℚ) ≠ 0 := Nat.cast_ne_zero.2 hd.ne'
  have hb' : (b : ℚ) ≠ 0 := Nat.cast_ne_zero.2 hb.ne'
  field_simp
  ring

theorem floor_closedForm (c d b : Nat) :
    ⌊(c : ℚ) / (2 * d * b)⌋ = ((BaudArith.halve .exactRound (c / (d * b)) : Nat) : ℤ) := by
  have hfloor := Rat.floor_natCast_div_natCast c (d * b * 2)
  rw [BaudArith.halve, Nat.div_div_eq_div_mul]
  push_cast at hfloor ⊢
  rw [← hfloor]
  ring_nf

theorem BaudArith.halve_le (a : BaudArith) (quotient : Nat) : a.halve quotient ≤ quotient / 2 := by
  cases a with
  | exactRound => exact Nat.le_refl _
  | trunc => exact Nat.div_le_div_right (Nat.sub_le _ _)

/-- Truncating loses at most one. -/
theorem halve_trunc_near (q : Nat) :
    BaudArith.halve .trunc q ≤ BaudArith.halve .exactRound q ∧
      BaudArith.halve .exactRound q ≤ BaudArith.halve .trunc q + 1 := by
  simp only [BaudArith.halve]
  omega

end

/-- Settles O39, with both divisors as halves of the same whole quotient. -/
theorem baudRoundingReadings : Obligations.BaudRoundingReadings := by
  unfold Obligations.BaudRoundingReadings
  refine fun c d b hd => ⟨fun hb hle => ?_, fun hundef => ?_⟩
  · obtain ⟨hlow, hhigh⟩ := halve_trunc_near (c / (d * b))
    refine ⟨_, _, divRound_of_defined _ hd hb hle, divRound_of_defined _ hd hb hle, ?_, ?_, ?_, hlow, hhigh⟩
    · rw [roundHalfUp_eq hd hb, floor_closedForm]
    · rw [floor_closedForm]
    · rw [Nat.div_div_eq_div_mul, BaudArith.halve]
  · exact ⟨(divRound_eq_none_iff _ hd).2 hundef, (divRound_eq_none_iff _ hd).2 hundef⟩

/-! ## The branches of `baud_cfg` (43 R162, R165) -/

/-- Where the first divisor exceeds 12 bits the rate is so low that the second one is defined. -/
theorem divRound_eight_of_exceeds {a : BaudArith} {c b u : Nat} (hfirst : divRound a c 4 b = some u) (hbig : 4095 < u) :
    ∃ v, divRound a c 8 b = some v := by
  rw [divRound_eq a (by decide)] at hfirst
  split at hfirst
  · next hdef =>
    obtain ⟨hb, -⟩ := hdef
    refine ⟨_, divRound_of_defined a (by decide) hb ?_⟩
    cases hfirst
    have hquotient : 2 ≤ c / (4 * b) := by
      have hhalf := a.halve_le (c / (4 * b))
      omega
    have hle := (Nat.le_div_iff_mul_le (by omega)).1 hquotient
    omega
  · cases hfirst

/-- `BaudAnswer a c b answer`: the branch of `baud_cfg` that `answer` comes from. -/
inductive BaudAnswer (a : BaudArith) (c b : Nat) : Option (BitVec 12 × Bool) → Prop where
  | undefined (noDivisor : divRound a c 4 b = none) : BaudAnswer a c b none
  | double (u : Nat) (first : divRound a c 4 b = some u) (fits : u ≤ 4095) :
      BaudAnswer a c b (some (BitVec.ofNat 12 u, true))
  | normal (u v : Nat) (first : divRound a c 4 b = some u) (exceeds : 4095 < u) (second : divRound a c 8 b = some v)
      (fits : v ≤ 4095) : BaudAnswer a c b (some (BitVec.ofNat 12 v, false))
  | slow (u v : Nat) (first : divRound a c 4 b = some u) (exceeds : 4095 < u) (second : divRound a c 8 b = some v)
      (exceedsToo : 4095 < v) : BaudAnswer a c b none

theorem baudAnswer_baudCfg (a : BaudArith) (c b : Nat) : BaudAnswer a c b (baudCfg a c b) := by
  unfold baudCfg
  split
  · next hnone => exact .undefined hnone
  · next u hfirst =>
    split
    · next hfits => exact .double u hfirst hfits
    · next hbig =>
      have hbig : 4095 < u := Nat.lt_of_not_le hbig
      obtain ⟨v, hsecond⟩ := divRound_eight_of_exceeds hfirst hbig
      simp only [hsecond]
      split
      · next hfits => exact .normal u v hfirst hbig hsecond hfits
      · next hslow => exact .slow u v hfirst hbig hsecond (Nat.lt_of_not_le hslow)

/-- A divisor that fits 12 bits is the number of the register's value. -/
theorem ofNat_eq_iff_of_fits {u : Nat} (hfits : u ≤ 4095) (r : BitVec 12) : BitVec.ofNat 12 u = r ↔ u = r.toNat := by
  rw [← BitVec.toNat_inj, BitVec.toNat_ofNat, Nat.mod_eq_of_lt (by omega)]

theorem baudCfg_eq_double_iff (a : BaudArith) (c b : Nat) (r : BitVec 12) :
    baudCfg a c b = some (r, true) ↔ divRound a c 4 b = some r.toNat := by
  have hr := r.isLt
  have hanswer := baudAnswer_baudCfg a c b
  generalize baudCfg a c b = answer at hanswer ⊢
  cases hanswer with
  | undefined hnone => simp [hnone]
  | double u hfirst hfits => simp [hfirst, ofNat_eq_iff_of_fits hfits]
  | normal u v hfirst hbig | slow u v hfirst hbig =>
    have hne : u ≠ r.toNat := by omega
    simp [hfirst, hne]

theorem baudCfg_eq_normal_iff (a : BaudArith) (c b : Nat) (r : BitVec 12) :
    baudCfg a c b = some (r, false) ↔
      (∃ u, divRound a c 4 b = some u ∧ 4095 < u) ∧ divRound a c 8 b = some r.toNat := by
  have hr := r.isLt
  have hanswer := baudAnswer_baudCfg a c b
  generalize baudCfg a c b = answer at hanswer ⊢
  cases hanswer with
  | undefined hnone => simp [hnone]
  | double u hfirst hfits => simp [hfirst, hfits]
  | normal u v hfirst hbig hsecond hfits => simp [hfirst, hbig, hsecond, ofNat_eq_iff_of_fits hfits]
  | slow u v hfirst hbig hsecond hslow =>
    have hne : v ≠ r.toNat := by omega
    simp [hsecond, hne]

theorem baudCfg_eq_none_iff (a : BaudArith) (c b : Nat) :
    baudCfg a c b = none ↔
      b = 0 ∨ c < 4 * b ∨ ∃ u v, divRound a c 4 b = some u ∧ 4095 < u ∧ divRound a c 8 b = some v ∧ 4095 < v := by
  rw [← or_assoc, ← divRound_eq_none_iff a (by decide)]
  have hanswer := baudAnswer_baudCfg a c b
  generalize baudCfg a c b = answer at hanswer ⊢
  cases hanswer with
  | undefined hnone => simp [hnone]
  | double u hfirst hfits => simp [hfirst, hfits]
  | normal u v hfirst hbig hsecond hfits => simp [hfirst, hsecond, hfits]
  | slow u v hfirst hbig hsecond hslow => simp [hfirst, hbig, hsecond, hslow]

/-- Settles O40: each answer comes from one branch, and BAUD is the SERCFG of the answer. -/
theorem baudBranches : Obligations.BaudBranches := by
  unfold Obligations.BaudBranches
  refine fun a c b r => ⟨baudCfg_eq_double_iff a c b r, baudCfg_eq_normal_iff a c b r, baudCfg_eq_none_iff a c b,
    fun p want ha => ⟨?_, fun x hanswer => ?_⟩⟩
  · rw [expandLine, ha, Option.map_eq_none_iff]
  · rw [expandLine, ha, hanswer, Option.map_some]

end Sys2Proof.Machine
end

section
/-! PROOFS. The pin commands (44_pin_and_morse_client.md R180 to R182): what `drivePin` does in each build. -/

namespace Sys2Proof.Machine

theorem exec_pinCommand (level : Bool) (s : State) : exec (pinCommand level) s = .next (drivePin level s) := by
  cases level <;> rfl

theorem drivePin_of_infallible {s : State} (h : s.cfg.pinFallible = false) (level : Bool) :
    drivePin level s = { s with pin := level, cp := s.cp + 1 } := by
  simp [drivePin_spec, h]

theorem drivePin_of_fallible {s : State} (h : s.cfg.pinFallible = true) (hfault : s.fault = none) (level : Bool) :
    drivePin level s =
      if Config.pinFails s.draws = true then { s with fault := some .pinIo, draws := s.draws + 1 }
      else { s with pin := level, cp := s.cp + 1, draws := s.draws + 1 } := by
  simp [drivePin_spec, h, hfault]

/-- Settles O41: both commands are a pin write of their level, and only a fallible build makes a draw. -/
theorem pinCommands : Obligations.PinCommands := by
  unfold Obligations.PinCommands
  refine ⟨fun rest => ⟨decode_encode_append (i := .pinlo) rfl rest, decode_encode_append (i := .pinhi) rfl rest⟩,
    fun s => ⟨fun h => ⟨?_, ?_⟩, fun h hfault => ⟨?_, ?_⟩⟩⟩
  · exact (exec_pinCommand false s).trans (congrArg _ (drivePin_of_infallible h false))
  · exact (exec_pinCommand true s).trans (congrArg _ (drivePin_of_infallible h true))
  · exact (exec_pinCommand false s).trans (congrArg _ (drivePin_of_fallible h hfault false))
  · exact (exec_pinCommand true s).trans (congrArg _ (drivePin_of_fallible h hfault true))

end Sys2Proof.Machine
end

section
/-! PROOFS. The Morse codec (44_pin_and_morse_client.md R187, R198): packing a sequence of signals into a record and
reading the record's tokens are inverse to each other. -/

namespace Sys2Proof.Machine

/-! ## The bits of a packed sequence -/

theorem packSignals_getLsbD_zero (sig : Signal) (rest : List Signal) :
    (packSignals (sig :: rest)).getLsbD 0 = decide (sig = .dash) := by
  cases sig <;> simp [packSignals]

theorem packSignals_getLsbD_succ (sig : Signal) (rest : List Signal) {i : Nat} (hi : i + 1 < 8) :
    (packSignals (sig :: rest)).getLsbD (i + 1) = (packSignals rest).getLsbD i := by
  cases sig <;> simp [packSignals, hi, BitVec.getLsbD_eq_getElem (Nat.lt_of_succ_lt hi)]

/-- Bit `i` of a packed sequence says whether signal `i` is a dash (44 R198). -/
theorem packSignals_getLsbD {sigs : List Signal} {i : Nat} (hi : i < 8) (hlen : i < sigs.length) :
    (packSignals sigs).getLsbD i = decide (sigs[i] = .dash) := by
  induction sigs generalizing i with
  | nil => simp at hlen
  | cons sig rest ih =>
    cases i with
    | zero => exact packSignals_getLsbD_zero sig rest
    | succ j =>
      rw [packSignals_getLsbD_succ sig rest hi]
      exact ih (Nat.lt_of_succ_lt hi) (Nat.lt_of_succ_lt_succ hlen)

/-! ## The record and its tokens -/

theorem signals_length (m : MorseChar) : (signals m).length = m.count.val := by
  simp [signals]

theorem signals_length_le (m : MorseChar) : (signals m).length ≤ 8 := by
  rw [signals_length]
  exact Nat.le_of_lt_succ m.count.isLt

theorem isWordSpace_iff (m : MorseChar) : isWordSpace m = true ↔ signals m = [] := by
  rw [← List.length_eq_zero_iff, signals_length, isWordSpace, beq_iff_eq, Fin.ext_iff]
  rfl

/-- The tokens of a record that packs a sequence are the sequence. -/
theorem signals_packSignals (sigs : List Signal) (h : sigs.length < 9) :
    signals ⟨⟨sigs.length, h⟩, packSignals sigs⟩ = sigs := by
  refine List.ext_getElem (signals_length _) fun i _ hi => ?_
  have hbit := packSignals_getLsbD (Nat.lt_of_lt_of_le hi (Nat.le_of_lt_succ h)) hi
  cases hsig : sigs[i] <;> simp [signals, hbit, hsig]

theorem ofSignals_of_length_le {sigs : List Signal} (h : sigs.length ≤ 8) :
    ∃ m, ofSignals sigs = some m ∧ signals m = sigs ∧ m.count.val = sigs.length :=
  ⟨_, dif_pos (Nat.lt_succ_of_le h), signals_packSignals sigs (Nat.lt_succ_of_le h), rfl⟩

/-- Settles O58: a record has at most eight tokens, so its own tokens are a sequence that has a record again. -/
theorem morsePatternRoundTrip : Obligations.MorsePatternRoundTrip := by
  unfold Obligations.MorsePatternRoundTrip
  refine ⟨fun sigs => ⟨ofSignals_of_length_le, fun h => dif_neg (Nat.not_lt_of_le h)⟩, fun m => ?_⟩
  obtain ⟨m', hrecord, htokens, hcount⟩ := ofSignals_of_length_le (signals_length_le m)
  exact ⟨m', hrecord, Fin.ext (hcount.trans (signals_length m)), htokens⟩

end Sys2Proof.Machine
end

section
/-! PROOFS. The Morse emitter (44_pin_and_morse_client.md R188 to R191, R193, R196): a character's commands without
narration, what narration adds to them, and the commands of a text from those of its characters. -/

namespace Sys2Proof.Machine

open Sys2Proof.Laws

/-! ## A character without narration (44 R189, R190) -/

/-- The commands that send one signal: the pin high for a dit or three, then low (44 R190). -/
def signalCommands (dit : Nat) (sig : Signal) : List Instr :=
  [.pinhi, .waitms (BitVec.ofNat 32 (if sig = .dash then 3 * dit else dit)), .pinlo]

theorem signalMs_eq (w : Nat) (sig : Signal) :
    signalMs w sig = if sig = .dash then 3 * ditMs w else ditMs w := by
  cases sig <;> rfl

theorem emitSignal_zero_quiet (p : ClientParams) (sig : Signal) :
    emitSignal p (fun _ => []) 0 sig = signalCommands (ditMs p.wpm) sig := by
  rw [signalCommands, ← signalMs_eq]
  rfl

theorem emitSignal_succ_quiet (p : ClientParams) (i : Nat) (sig : Signal) :
    emitSignal p (fun _ => []) (i + 1) sig = waitCommand (ditMs p.wpm) :: signalCommands (ditMs p.wpm) sig := by
  rw [signalCommands, ← signalMs_eq]
  rfl

theorem intercalate_cons_eq_append {α : Type} (sep x : List α) (xs : List (List α)) :
    List.intercalate sep (x :: xs) = x ++ List.intercalate sep ([] :: xs) := by
  cases xs <;> simp [List.intercalate]

/-- From the second signal on, a dit of silence stands before each one. -/
theorem emitSignals_succ_quiet (p : ClientParams) (i : Nat) (sigs : List Signal) :
    emitSignals p (fun _ => []) (i + 1) sigs =
      List.intercalate [waitCommand (ditMs p.wpm)] ([] :: sigs.map (signalCommands (ditMs p.wpm))) := by
  induction sigs generalizing i with
  | nil => rfl
  | cons sig rest ih =>
    rw [emitSignals, emitSignal_succ_quiet, ih, List.map_cons, List.intercalate_cons_cons,
      intercalate_cons_eq_append _ (signalCommands _ sig)]
    rfl

/-- The dits of silence stand between the signals, with none before the first or after the last. -/
theorem emitSignals_zero_quiet (p : ClientParams) (sigs : List Signal) :
    emitSignals p (fun _ => []) 0 sigs =
      List.intercalate [waitCommand (ditMs p.wpm)] (sigs.map (signalCommands (ditMs p.wpm))) := by
  cases sigs with
  | nil => rfl
  | cons sig rest =>
    rw [emitSignals, emitSignal_zero_quiet, emitSignals_succ_quiet, List.map_cons, ← intercalate_cons_eq_append]

theorem emitCode_of_space {code : MorseChar} (h : isWordSpace code = true) (p : ClientParams) (notes : CharNarration)
    (want : Bool) : emitCode p notes want code = (narrate p (notes .space), true) :=
  if_pos h

theorem emitCode_of_not_space {code : MorseChar} (h : isWordSpace code = false) (p : ClientParams)
    (notes : CharNarration) (want : Bool) :
    emitCode p notes want code =
      (narrate p (notes (.gap want)) ++ waitCommand (if want then interWordSpaceMs p.wpm else interCharSpaceMs p.wpm) ::
        emitSignals p notes 0 (signals code), false) :=
  if_neg (by simp [h])

/-- After a word space, a character with signals starts with the wait of seven dits and the pin high. -/
theorem emitCode_after_space {code : MorseChar} (h : isWordSpace code = false) (p : ClientParams) :
    ∃ rest, (emitCode p (fun _ => []) true code).1 = waitCommand (interWordSpaceMs p.wpm) :: .pinhi :: rest := by
  rw [emitCode_of_not_space h]
  cases hsignals : signals code with
  | nil => rw [(isWordSpace_iff code).2 hsignals] at h; cases h
  | cons sig rest => exact ⟨_, rfl⟩

/-! ## What narration adds (44 R193) -/

theorem emitSignal_filter (p : ClientParams) (notes : CharNarration) (i : Nat) (sig : Signal) :
    (emitSignal p notes i sig).filter (fun c => !isDiagnostic c) = emitSignal p (fun _ => []) i sig := by
  by_cases hi : i = 0 <;> simp [emitSignal, hi]

theorem emitSignals_filter (p : ClientParams) (notes : CharNarration) (i : Nat) (sigs : List Signal) :
    (emitSignals p notes i sigs).filter (fun c => !isDiagnostic c) = emitSignals p (fun _ => []) i sigs := by
  induction sigs generalizing i with
  | nil => rfl
  | cons sig rest ih => rw [emitSignals, List.filter_append, emitSignal_filter, ih, ← emitSignals]

theorem emitCode_filter (p : ClientParams) (notes : CharNarration) (want : Bool) (code : MorseChar) :
    (emitCode p notes want code).1.filter (fun c => !isDiagnostic c) = (emitCode p (fun _ => []) want code).1 := by
  cases h : isWordSpace code with
  | true => simp [emitCode_of_space h]
  | false => simp [emitCode_of_not_space h, emitSignals_filter]

/-- The client's bit after a character says whether it was a word space, whatever was narrated. -/
theorem emitCode_snd (p : ClientParams) (notes : CharNarration) (want : Bool) (code : MorseChar) :
    (emitCode p notes want code).2 = isWordSpace code := by
  cases h : isWordSpace code with
  | true => rw [emitCode_of_space h]
  | false => rw [emitCode_of_not_space h]

theorem emitChars_cons (p : ClientParams) (notes : TextNarration) (want : Bool) (c : Byte) (text : List Byte) :
    emitChars p notes want (c :: text) =
      ((emitCode p (notes 0) want (lookup p.table (foldCase c))).1 ++
        (emitChars p (fun j => notes (j + 1)) (isWordSpace (lookup p.table (foldCase c))) text).1,
        (emitChars p (fun j => notes (j + 1)) (isWordSpace (lookup p.table (foldCase c))) text).2) := by
  rw [emitChars, ← emitCode_snd p (notes 0) want]

theorem emitString_silenced_nil (p : ClientParams) (want : Bool) : emitString p.silenced want [] = ([], want) := rfl

theorem emitString_silenced_cons (p : ClientParams) (want : Bool) (c : Byte) (text : List Byte) :
    emitString p.silenced want (c :: text) =
      ((emitCode p (fun _ => []) want (lookup p.table (foldCase c))).1 ++
        (emitString p.silenced (isWordSpace (lookup p.table (foldCase c))) text).1,
        (emitString p.silenced (isWordSpace (lookup p.table (foldCase c))) text).2) := by
  rw [← emitCode_silenced]
  exact emitChars_cons p.silenced _ want c text

/-- Without the diagnostic writer's commands, a narrated text is the text without narration. -/
theorem emitChars_filter (p : ClientParams) (notes : TextNarration) (want : Bool) (text : List Byte) :
    (emitChars p notes want text).1.filter (fun c => !isDiagnostic c) = (emitString p.silenced want text).1 ∧
    (emitChars p notes want text).2 = (emitString p.silenced want text).2 := by
  induction text generalizing notes want with
  | nil => exact ⟨rfl, rfl⟩
  | cons c text ih =>
    obtain ⟨hlater, hbit⟩ := ih (fun j => notes (j + 1)) (isWordSpace (lookup p.table (foldCase c)))
    rw [emitChars_cons, emitString_silenced_cons]
    exact ⟨by rw [List.filter_append, emitCode_filter, hlater], hbit⟩

theorem isDiagnostic_of_mem_emitString_silenced {p : ClientParams} {want : Bool} {text : List Byte} {i : Instr}
    (h : i ∈ (emitString p.silenced want text).1) : isDiagnostic i = false := by
  rw [← (emitChars_filter p (p.narration text) want text).1] at h
  simpa using (List.mem_filter.1 h).2

/-! ## The end of a text (44 R191) -/

/-- The commands end with the pin low: after the last PINLO only the diagnostic writer sends. -/
def EndsLow (issued : List Instr) : Prop :=
  ∃ before after, issued = before ++ .pinlo :: after ∧ ∀ i ∈ after, ∃ d, i = .sendall d ∨ i = .push d

theorem EndsLow.append_left {issued : List Instr} (h : EndsLow issued) (earlier : List Instr) :
    EndsLow (earlier ++ issued) := by
  obtain ⟨before, after, rfl, hafter⟩ := h
  exact ⟨earlier ++ before, after, (List.append_assoc ..).symm, hafter⟩

theorem EndsLow.getLast?_eq_pinlo {issued : List Instr} (h : EndsLow issued)
    (hquiet : ∀ i ∈ issued, isDiagnostic i = false) : issued.getLast? = some .pinlo := by
  obtain ⟨before, after, rfl, hafter⟩ := h
  have hnone : after = [] := by
    refine List.eq_nil_iff_forall_not_mem.2 fun i hi => ?_
    have hi' := hquiet i (by simp [hi])
    obtain ⟨d, rfl | rfl⟩ := hafter i hi <;> cases hi'
  rw [hnone, List.getLast?_append_cons, List.getLast?_singleton]

theorem emitSignal_endsLow (p : ClientParams) (notes : CharNarration) (i : Nat) (sig : Signal) :
    EndsLow (emitSignal p notes i sig) := by
  refine EndsLow.append_left ?_ _
  exact ⟨.pinhi :: (narrate p (notes (.high i)) ++ waitCommand (signalMs p.wpm sig) :: narrate p (notes (.held i))),
    narrate p (notes (.low i)), by simp, narrate_spec p _⟩

theorem emitSignals_endsLow (p : ClientParams) (notes : CharNarration) (i : Nat) {sigs : List Signal}
    (h : sigs ≠ []) : EndsLow (emitSignals p notes i sigs) := by
  induction sigs generalizing i with
  | nil => exact absurd rfl h
  | cons sig rest ih =>
    rw [emitSignals]
    by_cases hrest : rest = []
    · rw [hrest, emitSignals, List.append_nil]
      exact emitSignal_endsLow p notes i sig
    · exact (ih (i + 1) hrest).append_left _

theorem emitCode_endsLow {code : MorseChar} (h : isWordSpace code = false) (p : ClientParams) (notes : CharNarration)
    (want : Bool) : EndsLow (emitCode p notes want code).1 := by
  have hsignals : signals code ≠ [] := fun hnil => by rw [(isWordSpace_iff code).2 hnil] at h; cases h
  rw [emitCode_of_not_space h]
  exact ((emitSignals_endsLow p notes 0 hsignals).append_left [_]).append_left _

theorem emitString_concat_endsLow {p : ClientParams} {c : Byte} (h : isWordSpace (lookup p.table (foldCase c)) = false)
    (want : Bool) (text : List Byte) :
    (emitString p want (text ++ [c])).2 = false ∧ EndsLow (emitString p want (text ++ [c])).1 := by
  rw [emitString, emitChars_append, emitChars_cons, emitChars, List.append_nil]
  exact ⟨h, (emitCode_endsLow h p _ _).append_left _⟩

/-- Settles O59: the last character ends with the pin low, and a client without narration sends nothing after that. -/
theorem emitHasNoTrailingGap : Obligations.EmitHasNoTrailingGap := by
  unfold Obligations.EmitHasNoTrailingGap
  intro p want text c h
  obtain ⟨hbit, hlow⟩ := emitString_concat_endsLow h want text
  have hsilenced := (emitString_concat_endsLow (p := p.silenced) h want text).2
  exact ⟨hbit, hsilenced.getLast?_eq_pinlo fun _ => isDiagnostic_of_mem_emitString_silenced, hlow⟩

/-! ## Word spaces (44 R189) -/

theorem emitString_spaces_of_pending {p : ClientParams} {spaces : List Byte}
    (h : ∀ x ∈ spaces, isWordSpace (lookup p.table (foldCase x)) = true) :
    emitString p.silenced true spaces = ([], true) := by
  induction spaces with
  | nil => rfl
  | cons x xs ih =>
    obtain ⟨hx, hxs⟩ := List.forall_mem_cons.1 h
    rw [emitString_silenced_cons, emitCode_of_space hx, hx, ih hxs]
    rfl

theorem emitString_spaces {p : ClientParams} {spaces : List Byte} (hne : spaces ≠ [])
    (h : ∀ x ∈ spaces, isWordSpace (lookup p.table (foldCase x)) = true) (want : Bool) :
    emitString p.silenced want spaces = ([], true) := by
  cases spaces with
  | nil => exact absurd rfl hne
  | cons x xs =>
    obtain ⟨hx, hxs⟩ := List.forall_mem_cons.1 h
    rw [emitString_silenced_cons, emitCode_of_space hx, hx, emitString_spaces_of_pending hxs]
    rfl

theorem emitString_silenced_append (p : ClientParams) (want : Bool) (a b : List Byte) :
    emitString p.silenced want (a ++ b) =
      ((emitString p.silenced want a).1 ++ (emitString p.silenced (emitString p.silenced want a).2 b).1,
        (emitString p.silenced (emitString p.silenced want a).2 b).2) :=
  emitChars_append p.silenced _ want a b

/-- Settles O60, from a character's commands without narration, the order of the characters, and the commands that
narration adds. -/
theorem emitSpacesCollapse : Obligations.EmitSpacesCollapse := by
  unfold Obligations.EmitSpacesCollapse
  refine ⟨fun p want code dit hdit => ⟨fun h => emitCode_of_space h p _ want, fun h => ?_⟩,
    fun p want c text now later mid last hnow hlater => ?_, emitString_silenced_nil,
    fun p want spaces c text hne hspaces hc => ⟨emitString_spaces hne hspaces want, ?_, ?_⟩,
    fun p want text => emitChars_filter p _ want text⟩
  · rw [emitCode_of_not_space h, emitSignals_zero_quiet, hdit]
    rfl
  · have hmid := emitCode_snd p (fun _ => []) want (lookup p.table (foldCase c))
    rw [hnow] at hmid
    rw [emitString_silenced_cons, hnow, ← hmid, hlater]
  · rw [emitString_silenced_append, emitString_spaces hne hspaces]
    rfl
  · obtain ⟨rest, hstart⟩ := emitCode_after_space hc p
    rw [emitString_silenced_cons, hstart]
    exact ⟨_, rfl⟩

end Sys2Proof.Machine
end

section
/-! PROOFS. Interrupts and faults (60_exceptions.md): what a handler's run and a device's do and that two handlers'
runs commute, which steps raise a fault, and that a fault stops FG and comes before a command's first micro-step. -/

namespace Sys2Proof.Machine

/-! ## The handlers and the devices, step by step (60 R211 to R221) -/

/-- Settles O42: a request is the conjunction of its two bits. -/
theorem handlersEnabled : Obligations.HandlersEnabled := by
  unfold Obligations.HandlersEnabled
  exact fun s => ⟨State.enabled_txisr_iff, State.enabled_tmrisr_iff⟩

/-- Settles O43, from the two branches of TXISR; its pop takes the head of the queue to `UDR`. -/
theorem drainHandlerStep : Obligations.DrainHandlerStep := by
  unfold Obligations.DrainHandlerStep
  intro s hm
  have hstep : step s = .next (txIsr s.takeTurn) := step_of_moves hm
  refine ⟨fun he => ?_, fun hne => ?_⟩
  · rw [hstep, txIsr_of_empty (s := s.takeTurn) he]
    rfl
  · rw [txIsr_of_not_empty (s := s.takeTurn) hne] at hstep
    exact ⟨_, hstep, rfl, State.queue_popByte hne⟩

/-- Settles O44: the addition of 32-bit words is the sum modulo `2^32`. -/
theorem tickHandlerStep : Obligations.TickHandlerStep := by
  unfold Obligations.TickHandlerStep
  intro s hm
  have hstep : step s = .next (tmrIsr s.takeTurn) := step_of_moves hm
  rw [tmrIsr_spec] at hstep
  exact ⟨_, hstep, rfl, BitVec.toNat_add s.counter s.tick⟩

/-- Settles O45, from SERDEV's enabling condition and its one step. -/
theorem serialDeviceStep : Obligations.SerialDeviceStep := by
  unfold Obligations.SerialDeviceStep
  exact fun s => ⟨by simp [State.enabled], fun hm => step_of_moves hm⟩

/-- A match while one is pending is merged into it (10 R29). -/
theorem tmrDev_of_pending {s : State} (h : s.ocf = true) : tmrDev s = s := by
  cases s
  cases h
  rfl

/-- Settles O46, from TMRDEV's step and its merging of matches, `tmrDev_of_pending`. -/
theorem timerDeviceStep : Obligations.TimerDeviceStep := by
  unfold Obligations.TimerDeviceStep
  intro s
  have hstep (hm : s.moves .tmrdev = true) : step s = .next (tmrDev s.takeTurn) := step_of_moves hm
  refine ⟨Iff.rfl, hstep, fun hm hpending => ?_⟩
  rw [hstep hm, tmrDev_of_pending (s := s.takeTurn) hpending]
  rfl

/-! ## The order of the two handlers (60 R214) -/

/-- A scripted turn of an enabled agent is that agent's step. -/
theorem step_of_scripted {s : State} {a : Agent} {rest : List Agent} (hturn : s.sched = a :: rest)
    (henabled : s.enabled a = true) : step s = runAgent a s.takeTurn :=
  step_of_moves (State.moves_iff.2 ⟨by simp [State.nextAgent, hturn], henabled⟩)

/-- Two scripted turns, of an agent and then of one that it leaves enabled. -/
theorem runSteps_two_scripted {s t u : State} {a b : Agent} {rest : List Agent}
    (hturns : s.sched = a :: b :: rest) (ha : s.enabled a = true) (hrun : runAgent a s.takeTurn = .next t)
    (hsched : t.sched = s.takeTurn.sched) (hb : t.enabled b = true) (hrun' : runAgent b t.takeTurn = .next u) :
    runSteps 2 s = .next u := by
  have hnext : t.sched = b :: rest := by rw [hsched, State.takeTurn_sched, hturns, List.tail_cons]
  refine runSteps_succ_eq_next.2 ⟨t, (step_of_scripted hturns ha).trans hrun, ?_⟩
  exact runSteps_succ_eq_next.2 ⟨u, (step_of_scripted hnext hb).trans hrun', runSteps_zero u⟩

@[simp] theorem txIsr_sched (s : State) : (txIsr s).sched = s.sched := by rw [txIsr_spec]; split <;> rfl

@[simp] theorem tmrIsr_sched (s : State) : (tmrIsr s).sched = s.sched := rfl
@[simp] theorem tmrIsr_fault (s : State) : (tmrIsr s).fault = s.fault := rfl

/-- TXISR leaves the two bits of the TMR request, and a handler returns with `I = 1`. -/
theorem State.enabled_tmrisr_txIsr {s : State} (h : s.enabled .tmrisr = true) : (txIsr s).enabled .tmrisr = true := by
  obtain ⟨-, hocie, hocf⟩ := State.enabled_tmrisr_iff.1 h
  rw [State.enabled_tmrisr_iff, txIsr_spec]
  split <;> exact ⟨rfl, hocie, hocf⟩

/-- TMRISR leaves the two bits of the TX request. -/
theorem State.enabled_txisr_tmrIsr {s : State} (h : s.enabled .txisr = true) : (tmrIsr s).enabled .txisr = true := by
  obtain ⟨-, htxie, hudre⟩ := State.enabled_txisr_iff.1 h
  exact State.enabled_txisr_iff.2 ⟨rfl, htxie, hudre⟩

/-- The handlers read and write disjoint parts of the block, but for `I` and `asleep`, which both leave alike. -/
theorem txIsr_tmrIsr_comm (s : State) : txIsr (tmrIsr s) = tmrIsr (txIsr s) := by
  rw [txIsr_spec, txIsr_spec, apply_ite tmrIsr]
  rfl

theorem takeTurn_txIsr (s : State) : (txIsr s).takeTurn = txIsr s.takeTurn := by
  rw [txIsr_spec, txIsr_spec, apply_ite State.takeTurn]
  rfl

section
variable {s : State} {rest : List Agent}

theorem runSteps_txisr_tmrisr (hturns : s.sched = .txisr :: .tmrisr :: rest) (htx : s.enabled .txisr = true)
    (htmr : s.enabled .tmrisr = true) : runSteps 2 s = .next (tmrIsr (txIsr s.takeTurn.takeTurn)) := by
  rw [← takeTurn_txIsr]
  exact runSteps_two_scripted hturns htx rfl (txIsr_sched _) (State.enabled_tmrisr_txIsr htmr) rfl

theorem runSteps_tmrisr_txisr (hturns : s.sched = .tmrisr :: .txisr :: rest) (htx : s.enabled .txisr = true)
    (htmr : s.enabled .tmrisr = true) : runSteps 2 s = .next (txIsr (tmrIsr s.takeTurn.takeTurn)) :=
  runSteps_two_scripted (t := tmrIsr s.takeTurn) hturns htmr rfl rfl (State.enabled_txisr_tmrIsr htx) rfl

end

/-- Settles O47: each handler leaves the other enabled, and their runs commute. -/
theorem handlerOrderIrrelevant : Obligations.HandlerOrderIrrelevant := by
  unfold Obligations.HandlerOrderIrrelevant
  intro s rest htx htmr
  have hdrainFirst := runSteps_txisr_tmrisr (s := { s with sched := .txisr :: .tmrisr :: rest }) rfl htx htmr
  have htickFirst := runSteps_tmrisr_txisr (s := { s with sched := .tmrisr :: .txisr :: rest }) rfl htx htmr
  rw [txIsr_tmrIsr_comm] at htickFirst
  exact ⟨_, hdrainFirst, htickFirst, (tmrIsr_sched _).trans (txIsr_sched _)⟩

/-! ## Which steps raise a fault (60 R230, R234) -/

/-- A command leaves `fault`, or raises one and has no other effect; a pin command's draw is the model's own (log 7). -/
theorem CommandStep.raises {s t : State} {i : Instr} (h : CommandStep s i t) :
    t.fault = s.fault ∨ ∃ c, t = { s with draws := t.draws }.raise c := by
  cases h with
  | slotUnwritten => exact .inr ⟨.saveSlotUnwritten, rfl⟩
  | sercfgAgain | tmrcfgAgain => exact .inr ⟨.bootConflict, rfl⟩
  | tmrcfgRange => exact .inr ⟨.configRange, rfl⟩
  | pinFailed => exact .inr ⟨.pinIo, rfl⟩
  | _ => left; simp

/-- A step that changes `fault` is FG's, and raises it in a state that is otherwise the one before. -/
theorem BlockStep.raises {s t : State} (h : BlockStep s t) (hne : t.fault ≠ s.fault) :
    s.moves .fg = true ∧ ∃ c, t = { s.takeTurn with draws := t.draws }.raise c := by
  cases h with
  | command i run effect => exact ⟨run.1, effect.raises.resolve_left hne⟩
  | illegal turn => exact ⟨turn, .illegalCommand, rfl⟩
  | txisr => exact absurd (txIsr_fault _) hne
  | tmrisr => exact absurd (tmrIsr_fault _) hne
  | pass | serdev | tmrdev => exact absurd rfl hne

/-- Settles O53: the step raises the fault where FG moved, which it does only without a fault. -/
theorem faultsArePrecise : Obligations.FaultsArePrecise := by
  unfold Obligations.FaultsArePrecise
  intro s t h hne
  obtain ⟨hm, c, ht⟩ := (blockStep_of_step h).raises hne
  obtain ⟨hfault, -, -⟩ := State.of_moves_fg hm
  refine ⟨hm, hfault, c, ?_⟩
  rw [State.raise_of_none (s := { s.takeTurn with draws := t.draws }) hfault] at ht
  exact ht

/-- Settles O55: a step that raised a fault would leave `ph` as it is, and the invariant after the step has no fault
inside a command. -/
theorem noFaultInsideCommand : Obligations.NoFaultInsideCommand := by
  unfold Obligations.NoFaultInsideCommand
  intro s t hinv hph h
  obtain ⟨-, -, hinside, -⟩ := hinv.sequencer
  obtain ⟨-, -, hinside', -⟩ := (stepKeepsInvariant s t hinv h).sequencer
  by_contra hraised
  obtain ⟨-, -, c, ht⟩ := faultsArePrecise s t h (by rwa [hinside hph])
  have hkept : t.ph = s.ph := by rw [ht]
  exact hraised (hinside' (hkept ▸ hph))

/-! ## After a fault (60 R230) -/

/-- The fault and the parts of the state that FG alone writes (10 R42). -/
def State.foregroundPart (s : State) :
    Option FaultCode × Nat × Phase × Byte × ResultReg × Vector SaveSlot 4 × Bool × Half × Memory × BitVec 12 × Half :=
  (s.fault, s.cp, s.ph, s.sent, s.res, s.saves, s.pin, s.writeIndex, s.buf, s.ubrr, s.presc)

theorem txIsr_foregroundPart (s : State) : (txIsr s).foregroundPart = s.foregroundPart := by
  rw [txIsr_spec]
  split <;> rfl

theorem tmrIsr_foregroundPart (s : State) : (tmrIsr s).foregroundPart = s.foregroundPart := by
  rw [tmrIsr_spec]
  rfl

theorem BlockStep.foregroundPart_of_not_fg {s t : State} (h : BlockStep s t) (hm : s.moves .fg = false) :
    t.foregroundPart = s.foregroundPart := by
  cases h with
  | command i run _ => exact absurd run.1 (by simp [hm])
  | illegal turn => exact absurd turn (by simp [hm])
  | txisr => exact txIsr_foregroundPart _
  | tmrisr => exact tmrIsr_foregroundPart _
  | pass | serdev | tmrdev => rfl

theorem State.moves_fg_of_fault {s : State} {c : FaultCode} (h : s.fault = some c) : s.moves .fg = false := by
  by_contra hm
  have hnone := (State.of_moves_fg (by simpa using hm)).1
  rw [h] at hnone
  cases hnone

theorem State.final_of_fault {s : State} {c : FaultCode} (h : s.fault = some c) : s.final = false := by
  simp [State.final, h]

/-- After a fault no run writes what FG alone writes. -/
theorem runSteps_foregroundPart {n : Nat} {s t : State} {c : FaultCode} (hfault : s.fault = some c)
    (h : runSteps n s = .next t) : t.foregroundPart = s.foregroundPart := by
  refine runSteps_induction (P := fun u => u.foregroundPart = s.foregroundPart) (fun u v hu hstep => ?_) rfl h
  have hfaulted : u.fault = some c := (congrArg Prod.fst hu).trans hfault
  exact ((blockStep_of_step hstep).foregroundPart_of_not_fg (State.moves_fg_of_fault hfaulted)).trans hu

/-- Settles O54: FG moves no more, so its part stays, and a final state has no fault. -/
theorem faultedForegroundStops : Obligations.FaultedForegroundStops := by
  unfold Obligations.FaultedForegroundStops
  intro n s t c hfault h
  have hpart := runSteps_foregroundPart hfault h
  simp only [State.foregroundPart, Prod.mk.injEq] at hpart
  obtain ⟨hf, hcp, hph, hsent, hres, hsaves, hpin, hwrite, hbuf, hubrr, hpresc⟩ := hpart
  have hfaulted := hf.trans hfault
  exact ⟨hfaulted, hcp, hph, hsent, hres, hsaves, hpin, hwrite, hbuf, hubrr, hpresc, State.final_of_fault hfaulted⟩

end Sys2Proof.Machine
end

section
/-! PROOFS. Reset and hazards (70_reset_and_hazards.md): a core asleep with `I = 0` never wakes (R260), a final state is
drained and only the timer goes on from it (R259), and what reset leaves (R251, R252). -/

namespace Sys2Proof.Machine

/-! ## Asleep with `I = 0` (70 R260) -/

/-- `asleep`, `I` and the further parts of the state that a core asleep with `I = 0` keeps: FG's place, the fault, the
counter that only TMRISR advances and the queue that only TXISR drains. -/
def State.maskedSleepPart (s : State) : Bool × Bool × Nat × Phase × Option FaultCode × Word × List Byte :=
  (s.asleep, s.iflag, s.cp, s.ph, s.fault, s.counter, s.queue)

/-- Asleep, FG does not move, and with `I = 0` no handler does; a device leaves this part alone. -/
theorem BlockStep.maskedSleepPart {s t : State} (h : BlockStep s t) (hasleep : s.asleep = true)
    (hmasked : s.iflag = false) : t.maskedSleepPart = s.maskedSleepPart := by
  have hfg := State.moves_fg_of_asleep hasleep
  cases h with
  | command i run _ => exact absurd run.1 (by simp [hfg])
  | illegal turn => exact absurd turn (by simp [hfg])
  | txisr turn => exact absurd (State.of_moves_txisr turn).1 (by simp [hmasked])
  | tmrisr turn => exact absurd (State.of_moves_tmrisr turn).1 (by simp [hmasked])
  | pass | serdev | tmrdev => rfl

/-- The part holds `asleep` and `I` themselves, so every later step is again one of a masked sleep. -/
theorem runSteps_maskedSleepPart {n : Nat} {s t : State} (hasleep : s.asleep = true) (hmasked : s.iflag = false)
    (h : runSteps n s = .next t) : t.maskedSleepPart = s.maskedSleepPart := by
  refine runSteps_induction (P := fun u => u.maskedSleepPart = s.maskedSleepPart) (fun u v hu hstep => ?_) rfl h
  have hasleep' : u.asleep = true := (congrArg Prod.fst hu).trans hasleep
  have hmasked' : u.iflag = false := (congrArg (fun part => part.2.1) hu).trans hmasked
  exact ((blockStep_of_step hstep).maskedSleepPart hasleep' hmasked').trans hu

theorem State.final_of_asleep {s : State} (h : s.asleep = true) : s.final = false := by
  simp [State.final, h]

/-- Settles O52: no step of a masked sleep ends it, and a final state is awake. -/
theorem maskedSleepHangs : Obligations.MaskedSleepHangs := by
  unfold Obligations.MaskedSleepHangs
  intro n s t hasleep hmasked h
  have hpart := runSteps_maskedSleepPart hasleep hmasked h
  simp only [State.maskedSleepPart, Prod.mk.injEq] at hpart
  obtain ⟨hasleep', hmasked', hcp, hph, hfault, hcounter, hqueue⟩ := hpart
  have hstill := hasleep'.trans hasleep
  exact ⟨hstill, hmasked'.trans hmasked, hcp, hph, hfault, hcounter, hqueue, State.final_of_asleep hstill⟩

/-! ## Final states (70 R259) -/

theorem State.final_iff {s : State} :
    s.final = true ↔ s.fault = none ∧ s.fgFinished = true ∧ s.asleep = false ∧ s.empty = true ∧ s.udre = true ∧
      s.txie = false := by
  simp [State.final, and_assoc]

theorem State.queue_of_empty {s : State} (h : s.empty = true) : s.queue = [] := by
  rw [← List.length_eq_zero_iff, State.queue_length, ← State.empty_iff_occupancy, h]

/-- Neither the ring nor the register holds a byte. -/
theorem State.stream_of_final {s : State} (h : s.final = true) : s.stream = s.line := by
  obtain ⟨-, -, -, hempty, hready, -⟩ := State.final_iff.1 h
  simp [State.stream, State.inRegister, hready, State.queue_of_empty hempty]

/-- FG is finished, the TX source disarmed and the register empty, which leaves the timer's two agents. -/
theorem State.enabled_of_final {s : State} {a : Agent} (h : s.final = true) (ha : s.enabled a = true) :
    a = .tmrdev ∨ a = .tmrisr := by
  obtain ⟨-, hfinished, -, -, hready, hdisarmed⟩ := State.final_iff.1 h
  cases a with
  | fg => exact absurd (State.fgFinished_iff.1 hfinished) (State.enabled_fg_iff.1 ha).2.2
  | txisr => exact absurd (State.enabled_txisr_iff.1 ha).2.1 (by simp [hdisarmed])
  | serdev => simp [State.enabled, hready] at ha
  | tmrisr => exact .inr rfl
  | tmrdev => exact .inl rfl

theorem State.moves_of_final {s : State} {a : Agent} (h : s.final = true) (hm : s.moves a = true) :
    a = .tmrdev ∨ a = .tmrisr :=
  State.enabled_of_final h (State.moves_iff.1 hm).2

/-- TMRISR writes only the counter and `OCF`, and returns with the core awake. -/
theorem tmrIsr_final {s : State} (h : s.final = true) : (tmrIsr s).final = true := by
  obtain ⟨hfault, hfinished, -, hempty, hready, hdisarmed⟩ := State.final_iff.1 h
  exact State.final_iff.2 ⟨hfault, hfinished, rfl, hempty, hready, hdisarmed⟩

/-- A step from a final state is a turn that passes or one of the timer's. -/
theorem final_of_step {s t : State} (hfinal : s.final = true) (h : step s = .next t) :
    t.final = true ∧ t.line = s.line ∧ t.pin = s.pin ∧ t.res = s.res := by
  obtain ⟨-, rfl⟩ | ⟨hm, -⟩ | ⟨hm, -⟩ | ⟨-, rfl⟩ | ⟨hm, -⟩ | ⟨-, rfl⟩ := step_cases h
  · exact ⟨hfinal, rfl, rfl, rfl⟩
  · exact absurd (State.moves_of_final hfinal hm) (by decide)
  · exact absurd (State.moves_of_final hfinal hm) (by decide)
  · exact ⟨tmrIsr_final (s := s.takeTurn) hfinal, rfl, rfl, rfl⟩
  · exact absurd (State.moves_of_final hfinal hm) (by decide)
  · exact ⟨hfinal, rfl, rfl, rfl⟩

/-- Settles O57, from the stream, the enabled agents and the steps of a final state. -/
theorem finalStateIsDrained : Obligations.FinalStateIsDrained := by
  unfold Obligations.FinalStateIsDrained
  exact fun s h => ⟨State.stream_of_final h, fun a ha => State.enabled_of_final h ha, fun t => final_of_step h⟩

/-! ## Reset (70 R251, R252) -/

section
variable (c : Config) (p : List Byte)

/-- Reset leaves both indices 0, so they agree under the mask of every configuration. -/
theorem State.reset_empty : ({ State.reset with cfg := c, cmd := p } : State).empty = true := beq_self_eq_true _

theorem State.reset_slot_unwritten (k : BitVec 2) :
    (({ State.reset with cfg := c, cmd := p } : State).slot k).written = false := by
  simp [State.slot, State.reset]

/-- `I = 0` masks the handlers, and neither device is configured. -/
theorem State.reset_enabled {a : Agent} (hne : a ≠ .fg) :
    ({ State.reset with cfg := c, cmd := p } : State).enabled a = false := by
  cases a with
  | fg => exact absurd rfl hne
  | txisr => exact (State.handlers_not_enabled rfl).1
  | tmrisr => exact (State.handlers_not_enabled rfl).2
  | serdev | tmrdev => rfl

end

/-- Settles O10: the reset values are those of the reset table, and FG fetches at offset 0 of the stream. -/
theorem resetLeaves : Obligations.ResetLeaves := by
  unfold Obligations.ResetLeaves
  rintro c p s rfl
  refine ⟨⟨rfl, rfl, rfl, rfl, rfl, List.drop_zero⟩, ?ring, ⟨rfl, rfl, rfl, rfl⟩, ?slots, ?agents⟩
  case ring => exact ⟨rfl, rfl, State.reset_empty c p, rfl, rfl, rfl, rfl⟩
  case slots => exact ⟨State.reset_slot_unwritten c p, rfl, rfl, rfl⟩
  case agents => exact fun a hne => State.reset_enabled c p hne

end Sys2Proof.Machine
end
